-- ==== Sys2Proof/Word.lean ====
section
/-! DEFINITION. The word types of QR-CORE: the byte every register and buffer cell holds (R9), and the 16-bit
byte address of the host bus window (R70). -/

namespace Sys2Proof

/-- An unsigned 8-bit value (R9). -/
abbrev Byte := BitVec 8

/-- A byte address `0x0000`-`0xFFFF` of the host bus window (R70). -/
abbrev BusAddr := BitVec 16

end Sys2Proof
end

