-- ==== Sys2Proof/Syntax.lean ====
section
/-! DEFINITION. The syntax of QR-CORE: the 21 commands of R93, one constructor a row; the accesses and events the
outside world offers the machine (R72, R82, R340); the bus transactions a run records (R99); and the host assembly
notation of R97 and R98. -/

namespace Sys2Proof

/-- The command set, one constructor per row of the command map (R93). A command carries no operand field (R91). -/
inductive Instr where
  | nop | gfAdd | gfMul | gfInv | gfExp | gfLog | polyEval
  | rsGenpoly | rsEncode | rsSyndrome
  | bpClear | bpPut | selectVersion | encodeStream
  | rsBlocks | interleave
  | matrixInit | placeData | applyMask
  | writeFormat
  | generate
  deriving DecidableEq, Repr

/-- One host access as the bus presents it. `width` is in bytes: R72 knows width 1 only, and a model refuses any
other, so the width is kept here for the check. -/
inductive Access where
  | read (width : Nat) (addr : BusAddr)
  | write (width : Nat) (addr : BusAddr) (data : Byte)
  deriving DecidableEq, Repr

/-- What comes next in the single total order of host accesses and core steps (R82): a host access, the core step of
the pending command (the scheduler's free choice of R356), or the external reset input (R340). -/
inductive Event where
  | host (a : Access)
  | core
  | reset
  deriving DecidableEq, Repr

/-- A completed bus transaction `(R|W, address, data)` (R99). -/
inductive Txn where
  | r (addr : BusAddr) (data : Byte)
  | w (addr : BusAddr) (data : Byte)
  deriving DecidableEq, Repr

/-- The register names of the address map (R71). -/
inductive RegName where
  | id0 | id1 | rev | cmd | status | errcode | stage
  | opa | opb | res | k | plen | version | lenLo | lenHi
  | size | nblk | ecpb | ndataLo | ndataHi | ntotalLo | ntotalHi
  | bpNbits | bpValLo | bpValHi | bpPosLo | bpPosHi
  deriving DecidableEq, Repr

/-- The buffers of the address map (R48, R57). -/
inductive BufName where
  | payload | dcw | poly | gen | rem | syn | icw | ecw | matrix
  deriving DecidableEq, Repr

/-- ADDR of the host notation: a register name, a buffer byte `BUF+i`, or a plain address (R97). -/
inductive Target where
  | reg (r : RegName)
  | buf (b : BufName) (i : Nat)
  | addr (a : BusAddr)
  deriving DecidableEq, Repr

/-- The 16-bit registers `wr16` may name: those whose two halves the host writes (R73, R98). -/
inductive PairReg where
  | len | bpVal
  deriving DecidableEq, Repr

/-- One line of a host program: the three bus operations of R97 and the pseudo-operations of R98. The NAME that `rd`
gives the byte it returns is the host's own and is not kept. -/
inductive HostLine where
  | wr (t : Target) (v : Byte)
  | rd (t : Target)
  | expect (t : Target) (v : Byte)
  | cmd (i : Instr)
  | wait
  | run (i : Instr)
  | wr16 (r : PairReg) (v : BitVec 16)
  | wrbuf (b : BufName) (i : Nat) (bytes : List Byte)
  | expectbuf (b : BufName) (i : Nat) (bytes : List Byte)
  | ok
  | fail (code : Byte)
  deriving DecidableEq, Repr

end Sys2Proof
end

