-- ==== Sys2Proof/WellFormed.lean ====
section
/-! DEFINITION. Well-formedness of what stands in Syntax.lean and of a raw command byte: a command byte outside the
illegal ranges of R96, an access of width 1 (R72), a host line whose buffer bytes lie inside the buffer (R48). -/

namespace Sys2Proof

/-- The inclusive ranges of illegal command codes, as R96 lists them. -/
def illegalRanges : List (Nat × Nat) :=
  [(0x01, 0x0F), (0x16, 0x1F), (0x23, 0x2F), (0x34, 0x3F), (0x42, 0x4F), (0x53, 0x5F), (0x61, 0x6F), (0x71, 0xFF)]

/-- A command byte is well formed when it lies in no illegal range of R96. -/
def commandWellFormed (c : Byte) : Bool :=
  illegalRanges.all fun range => !(range.1 ≤ c.toNat && c.toNat ≤ range.2)

/-- Every command is well formed: it has no operand that could be out of range (R91). -/
def Instr.wellFormed : Instr → Bool
  | .nop | .gfAdd | .gfMul | .gfInv | .gfExp | .gfLog | .polyEval
  | .rsGenpoly | .rsEncode | .rsSyndrome
  | .bpClear | .bpPut | .selectVersion | .encodeStream
  | .rsBlocks | .interleave | .matrixInit | .placeData | .applyMask | .writeFormat | .generate => true

/-- The width of an access, in bytes. -/
def Access.width : Access → Nat
  | .read w _ => w
  | .write w _ _ => w

/-- The bus moves exactly one byte (R72). -/
def Access.wellFormed (a : Access) : Bool := a.width == 1

/-- The size of a buffer in bytes (R48, R57). -/
def BufName.size : BufName → Nat
  | .payload => 512 | .dcw => 512 | .poly => 256 | .gen => 128 | .rem => 64 | .syn => 64
  | .icw => 512 | .ecw => 128 | .matrix => 4096

/-- A buffer byte `BUF+i` lies inside its buffer. -/
def Target.wellFormed : Target → Bool
  | .reg _ => true
  | .buf b i => i < b.size
  | .addr _ => true

/-- Every buffer byte a host line names lies inside its buffer (R97, R98). -/
def HostLine.wellFormed : HostLine → Bool
  | .wr t _ | .rd t | .expect t _ => t.wellFormed
  | .wrbuf b i bytes | .expectbuf b i bytes => i + bytes.length ≤ b.size
  | .cmd _ | .wait | .run _ | .wr16 _ _ | .ok | .fail _ => true

end Sys2Proof
end

