-- ==== Sys2Proof/Decode.lean ====
section
/-! DEFINITION. The command decoder and encoder (R90, R93, R94): decoding is an exact match of all 8 bits, and every
other byte is rejected by name (R96). -/

namespace Sys2Proof

/-- Why a list of bytes gives no command. -/
inductive DecodeError where
  /-- The byte is in no row of R93 (R96). -/
  | illegalCode (code : Byte)
  /-- There is no byte to decode. -/
  | noByte
  deriving DecidableEq, Repr

/-- The command a byte written to CMD names, by the rows of R93. -/
def decodeByte (c : Byte) : Except DecodeError Instr :=
  match c.toNat with
  | 0x00 => .ok .nop
  | 0x10 => .ok .gfAdd
  | 0x11 => .ok .gfMul
  | 0x12 => .ok .gfInv
  | 0x13 => .ok .gfExp
  | 0x14 => .ok .gfLog
  | 0x15 => .ok .polyEval
  | 0x20 => .ok .rsGenpoly
  | 0x21 => .ok .rsEncode
  | 0x22 => .ok .rsSyndrome
  | 0x30 => .ok .bpClear
  | 0x31 => .ok .bpPut
  | 0x32 => .ok .selectVersion
  | 0x33 => .ok .encodeStream
  | 0x40 => .ok .rsBlocks
  | 0x41 => .ok .interleave
  | 0x50 => .ok .matrixInit
  | 0x51 => .ok .placeData
  | 0x52 => .ok .applyMask
  | 0x60 => .ok .writeFormat
  | 0x70 => .ok .generate
  | _ => .error (.illegalCode c)

/-- Decode the first command of a list of bytes and return the rest: every command is one byte long (R95). -/
def decode : List Byte → Except DecodeError (Instr × List Byte)
  | [] => .error .noByte
  | c :: rest => (decodeByte c).map fun i => (i, rest)

/-- Decode an opcode-table word: the command byte is the table's one word of 8 bits. -/
def decodeTableWord (nbits w : Nat) : Option Instr :=
  if nbits = 8 ∧ w < 256 then (decodeByte (BitVec.ofNat 8 w)).toOption else none

/-- The family number GRP, bits 7:4 of the command byte (R90). -/
def Instr.grp : Instr → BitVec 4
  | .nop => 0x0
  | .gfAdd | .gfMul | .gfInv | .gfExp | .gfLog | .polyEval => 0x1
  | .rsGenpoly | .rsEncode | .rsSyndrome => 0x2
  | .bpClear | .bpPut | .selectVersion | .encodeStream => 0x3
  | .rsBlocks | .interleave => 0x4
  | .matrixInit | .placeData | .applyMask => 0x5
  | .writeFormat => 0x6
  | .generate => 0x7

/-- The function number FN within the family, bits 3:0 of the command byte (R90). -/
def Instr.fn : Instr → BitVec 4
  | .nop => 0x0
  | .gfAdd => 0x0 | .gfMul => 0x1 | .gfInv => 0x2 | .gfExp => 0x3 | .gfLog => 0x4 | .polyEval => 0x5
  | .rsGenpoly => 0x0 | .rsEncode => 0x1 | .rsSyndrome => 0x2
  | .bpClear => 0x0 | .bpPut => 0x1 | .selectVersion => 0x2 | .encodeStream => 0x3
  | .rsBlocks => 0x0 | .interleave => 0x1
  | .matrixInit => 0x0 | .placeData => 0x1 | .applyMask => 0x2
  | .writeFormat => 0x0
  | .generate => 0x0

/-- The command byte of a command, `GRP` above `FN` (R90). -/
def encodeByte (i : Instr) : Byte := i.grp ++ i.fn

/-- The bytes of a command: one (R95). -/
def encode (i : Instr) : List Byte := [encodeByte i]

end Sys2Proof
end

