-- ==== Sys2Proof/Config.lean ====
section
/-! DEFINITION. The implementation parameters of R7, which are fixed for this hardware (R8), and the two values the
spec leaves free: what a host read returns while a command is pending (R80), and the `LOG` ROM entry at index 0
(R151). The ROM tables and the address map stand in Machine/Rom.lean and Machine/AddressMap.lean. -/

namespace Sys2Proof.Config

/-- `VMIN` (R7). -/
def vMin : Nat := 1

/-- `VMAX` (R7). -/
def vMax : Nat := 10

/-- `K_MAX`, the largest Reed–Solomon degree a command accepts (R7, R36). -/
def kMax : Nat := 64

/-- The bits of bit-packer space, `8 · DCW_SIZE` (R7). -/
def dcwBits : Nat := 4096

/-- The byte a host read returns while a command is pending, for every address whose value R80 leaves unspecified.
A draw under no law: the argument is the number of draws made before it. -/
opaque pendingRead : Nat → Byte

/-- The stored value of the ROM entry `LOG[0]`, which R151 leaves unspecified. No command's result depends on it. -/
opaque logZero : Byte

end Sys2Proof.Config
end

