-- ==== Sys2Proof/Machine/State.lean ====
section
/-! DEFINITION. The state of one QR-CORE instance (R21) and of the environment that drives it, the reasons a step can
stop, and the state after reset (R61). -/

namespace Sys2Proof.Machine

/-- RAM as (bus address, byte) pairs, addresses strictly rising. An address that is not listed is an unwritten byte
and holds no value (R60), so no listed byte can equal what an unlisted address reads as. -/
abbrev Memory := List Host.Cell

/-- Bits of DCW bytes that `put` has written only in part, as (bit position, bit) pairs, positions strictly rising.
Position `p` is bit `7 − (p mod 8)` of `DCW[p div 8]` (R130). -/
abbrev BitCells := List (Nat × Bool)

/-- Why the machine stops. -/
inductive Fault where
  /-- A host read or a command read of a RAM byte that holds no value (R60). Raised by Machine/Bus.lean and by every
  command that reads a buffer. Safe: the spec asks for it, and no proof can go past it. -/
  | unwrittenRead (addr : Nat)
  deriving DecidableEq, Repr

/-- Why the machine has no meaning for what it is asked to do. -/
inductive Refusal where
  /-- The command has no meaning in this model; raised by no arm of exec. Safe: the run stops there. -/
  | notModelled (mnemonic : String)
  /-- A host access of a width other than one byte, which R72 tells a model to refuse; raised by Machine/Bus.lean.
  Safe: the bus has no such access. -/
  | accessWidth (width : Nat)
  deriving DecidableEq, Repr

/-- The error names of R312. -/
inductive ErrCode where
  | illegalCmd | gfZero | badLen | badK | capacity | badVersion | bpOverflow | badNbits
  deriving DecidableEq, Repr

/-- The state. STATUS.BUSY, the profile readouts and the identification registers have no storage: BUSY is
`pending ≠ none` (R26), the readouts are computed from VERSION (R40), ID0, ID1 and REV are constants (R22). -/
structure State where
  /-- LASTCMD, read through CMD (R23). -/
  lastCmd : Byte
  /-- STATUS.DONE (R27). -/
  done : Bool
  /-- STATUS.ERR (R28). -/
  err : Bool
  /-- STATUS.WIGN (R29). -/
  wign : Bool
  /-- ERRCODE (R31). -/
  errcode : Byte
  /-- STAGE (R32). -/
  stage : Byte
  /-- OPA (R33). -/
  opa : Byte
  /-- OPB (R34). -/
  opb : Byte
  /-- RES (R35). -/
  res : Byte
  /-- K (R36). -/
  k : Byte
  /-- PLEN (R37). -/
  plen : Byte
  /-- VERSION (R38). -/
  version : Byte
  /-- LEN_LO (R39). -/
  lenLo : Byte
  /-- LEN_HI (R39). -/
  lenHi : Byte
  /-- BP_NBITS (R41). -/
  bpNbits : Byte
  /-- BP_VAL_LO (R42). -/
  bpValLo : Byte
  /-- BP_VAL_HI (R42). -/
  bpValHi : Byte
  /-- BP_POS, a 13-bit count of bits (R43). -/
  bpPos : BitVec 13
  /-- The pending slot (R59). -/
  pending : Option Byte
  /-- PAYLOAD, DCW, POLY, GEN, REM, SYN, ICW, ECW and MATRIX (R48, R57) with their written-since-reset knowledge (R60). -/
  mem : Memory
  /-- The written bits of DCW bytes not yet written whole (R130). -/
  dcwBits : BitCells
  /-- The model's own: what the environment does next, in the total order of R82. -/
  events : List Event
  /-- The model's own: the bus transactions made so far, latest first (R99). -/
  trace : List Txn
  /-- The model's own: how many free bytes pending reads have drawn (R80). -/
  draws : Nat
  deriving DecidableEq, Repr

/-- The state right after reset (R61), with no event waiting. -/
def State.reset : State where
  lastCmd := 0x00
  done := false
  err := false
  wign := false
  errcode := 0x00
  stage := 0x00
  opa := 0x00
  opb := 0x00
  res := 0x00
  k := 0x00
  plen := 0x00
  version := 0x00
  lenLo := 0x00
  lenHi := 0x00
  bpNbits := 0x00
  bpValLo := 0x00
  bpValHi := 0x00
  bpPos := 0
  pending := none
  mem := []
  dcwBits := []
  events := []
  trace := []
  draws := 0

end Sys2Proof.Machine
end

