-- ==== Sys2Proof/Machine/AddressMap.lean ====
section
/-! DEFINITION. The address map of the bus window (R71) and what each address names (R70). -/

namespace Sys2Proof.Machine

/-- PAYLOAD, 512 bytes from `0x0200` (R48). -/
def payloadBase : Nat := 0x0200
/-- DCW, 512 bytes from `0x0400` (R48). -/
def dcwBase : Nat := 0x0400
/-- POLY, 256 bytes from `0x0600` (R48). -/
def polyBase : Nat := 0x0600
/-- GEN, 128 bytes from `0x0700` (R48). -/
def genBase : Nat := 0x0700
/-- REM, 64 bytes from `0x0780` (R48). -/
def remBase : Nat := 0x0780
/-- SYN, 64 bytes from `0x07C0` (R48). -/
def synBase : Nat := 0x07C0
/-- ICW, 512 bytes from `0x0800` (R48). -/
def icwBase : Nat := 0x0800
/-- ECW, 128 bytes from `0x0A00` (R48). -/
def ecwBase : Nat := 0x0A00
/-- MATRIX, 4096 cells from `0x1000` (R57). -/
def matrixBase : Nat := 0x1000

/-- The address of MATRIX cell `(r, c)` (R57). -/
def cellAddr (r c : Nat) : Nat := matrixBase + 64 * r + c

/-- The address of EC byte `j` of block `b` (R56). -/
def ecwAddr (b j : Nat) : Nat := ecwBase + 32 * b + j

/-- An address of the RAM buffers `0x0200`-`0x0A7F` or of MATRIX `0x1000`-`0x1FFF` (R71). -/
def isRam (a : Nat) : Bool := (0x0200 ≤ a && a < 0x0A80) || (0x1000 ≤ a && a < 0x2000)

/-- An address of a buffer the host may write: PAYLOAD, DCW, POLY, ICW or ECW (R71). -/
def isHostRw (a : Nat) : Bool := (0x0200 ≤ a && a < 0x0700) || (0x0800 ≤ a && a < 0x0A80)

/-- What an address of the window names. -/
inductive Loc where
  /-- A named register (R71). -/
  | reg (r : RegName)
  /-- A buffer byte the host may read and write. -/
  | ramRw (a : Nat)
  /-- A byte of GEN, REM or SYN, which the host may only read. -/
  | ramRo (a : Nat)
  /-- A MATRIX cell, which the host may only read. -/
  | cell (a : Nat)
  /-- A reserved address (R86). -/
  | reserved
  deriving DecidableEq, Repr

/-- The registers in address order, from `0x0000`; `0x0007` is reserved (R71). -/
def regAt (a : Nat) : Option RegName :=
  match a with
  | 0x00 => some .id0
  | 0x01 => some .id1
  | 0x02 => some .rev
  | 0x03 => some .cmd
  | 0x04 => some .status
  | 0x05 => some .errcode
  | 0x06 => some .stage
  | 0x08 => some .opa
  | 0x09 => some .opb
  | 0x0A => some .res
  | 0x0B => some .k
  | 0x0C => some .plen
  | 0x0D => some .version
  | 0x0E => some .lenLo
  | 0x0F => some .lenHi
  | 0x10 => some .size
  | 0x11 => some .nblk
  | 0x12 => some .ecpb
  | 0x13 => some .ndataLo
  | 0x14 => some .ndataHi
  | 0x15 => some .ntotalLo
  | 0x16 => some .ntotalHi
  | 0x17 => some .bpNbits
  | 0x18 => some .bpValLo
  | 0x19 => some .bpValHi
  | 0x1A => some .bpPosLo
  | 0x1B => some .bpPosHi
  | _ => none

/-- What address `addr` names, by the ranges of R71. -/
def locate (addr : BusAddr) : Loc :=
  let a := addr.toNat
  if a < 0x0200 then
    match regAt a with
    | some r => .reg r
    | none => .reserved
  else if isHostRw a then .ramRw a
  else if a < 0x0800 then .ramRo a
  else if 0x1000 ≤ a ∧ a < 0x2000 then .cell a
  else .reserved

end Sys2Proof.Machine
end

