-- ==== Sys2Proof/Machine/Rom.lean ====
section
/-! DEFINITION. The read-only tables of R44-R47: EXP, LOG, PROFILE, ALIGN and FORMAT_WORD. They are constants of the
machine, not state (R21). -/

namespace Sys2Proof.Machine

/-- The rows of the antilog table, row `i[7:4]`, column `i[3:0]` (R165). -/
def expRows : List (List Nat) :=
  [[0x01, 0x02, 0x04, 0x08, 0x10, 0x20, 0x40, 0x80, 0x1D, 0x3A, 0x74, 0xE8, 0xCD, 0x87, 0x13, 0x26]] ++
  [[0x4C, 0x98, 0x2D, 0x5A, 0xB4, 0x75, 0xEA, 0xC9, 0x8F, 0x03, 0x06, 0x0C, 0x18, 0x30, 0x60, 0xC0]] ++
  [[0x9D, 0x27, 0x4E, 0x9C, 0x25, 0x4A, 0x94, 0x35, 0x6A, 0xD4, 0xB5, 0x77, 0xEE, 0xC1, 0x9F, 0x23]] ++
  [[0x46, 0x8C, 0x05, 0x0A, 0x14, 0x28, 0x50, 0xA0, 0x5D, 0xBA, 0x69, 0xD2, 0xB9, 0x6F, 0xDE, 0xA1]] ++
  [[0x5F, 0xBE, 0x61, 0xC2, 0x99, 0x2F, 0x5E, 0xBC, 0x65, 0xCA, 0x89, 0x0F, 0x1E, 0x3C, 0x78, 0xF0]] ++
  [[0xFD, 0xE7, 0xD3, 0xBB, 0x6B, 0xD6, 0xB1, 0x7F, 0xFE, 0xE1, 0xDF, 0xA3, 0x5B, 0xB6, 0x71, 0xE2]] ++
  [[0xD9, 0xAF, 0x43, 0x86, 0x11, 0x22, 0x44, 0x88, 0x0D, 0x1A, 0x34, 0x68, 0xD0, 0xBD, 0x67, 0xCE]] ++
  [[0x81, 0x1F, 0x3E, 0x7C, 0xF8, 0xED, 0xC7, 0x93, 0x3B, 0x76, 0xEC, 0xC5, 0x97, 0x33, 0x66, 0xCC]] ++
  [[0x85, 0x17, 0x2E, 0x5C, 0xB8, 0x6D, 0xDA, 0xA9, 0x4F, 0x9E, 0x21, 0x42, 0x84, 0x15, 0x2A, 0x54]] ++
  [[0xA8, 0x4D, 0x9A, 0x29, 0x52, 0xA4, 0x55, 0xAA, 0x49, 0x92, 0x39, 0x72, 0xE4, 0xD5, 0xB7, 0x73]] ++
  [[0xE6, 0xD1, 0xBF, 0x63, 0xC6, 0x91, 0x3F, 0x7E, 0xFC, 0xE5, 0xD7, 0xB3, 0x7B, 0xF6, 0xF1, 0xFF]] ++
  [[0xE3, 0xDB, 0xAB, 0x4B, 0x96, 0x31, 0x62, 0xC4, 0x95, 0x37, 0x6E, 0xDC, 0xA5, 0x57, 0xAE, 0x41]] ++
  [[0x82, 0x19, 0x32, 0x64, 0xC8, 0x8D, 0x07, 0x0E, 0x1C, 0x38, 0x70, 0xE0, 0xDD, 0xA7, 0x53, 0xA6]] ++
  [[0x51, 0xA2, 0x59, 0xB2, 0x79, 0xF2, 0xF9, 0xEF, 0xC3, 0x9B, 0x2B, 0x56, 0xAC, 0x45, 0x8A, 0x09]] ++
  [[0x12, 0x24, 0x48, 0x90, 0x3D, 0x7A, 0xF4, 0xF5, 0xF7, 0xF3, 0xFB, 0xEB, 0xCB, 0x8B, 0x0B, 0x16]] ++
  [[0x2C, 0x58, 0xB0, 0x7D, 0xFA, 0xE9, 0xCF, 0x83, 0x1B, 0x36, 0x6C, 0xD8, 0xAD, 0x47, 0x8E, 0x01]]

/-- The rows of the log table, row `a[7:4]`, column `a[3:0]` (R166). The entry at 0 is `Config.logZero`, whatever
stands here. -/
def logRows : List (List Nat) :=
  [[0x00, 0x00, 0x01, 0x19, 0x02, 0x32, 0x1A, 0xC6, 0x03, 0xDF, 0x33, 0xEE, 0x1B, 0x68, 0xC7, 0x4B]] ++
  [[0x04, 0x64, 0xE0, 0x0E, 0x34, 0x8D, 0xEF, 0x81, 0x1C, 0xC1, 0x69, 0xF8, 0xC8, 0x08, 0x4C, 0x71]] ++
  [[0x05, 0x8A, 0x65, 0x2F, 0xE1, 0x24, 0x0F, 0x21, 0x35, 0x93, 0x8E, 0xDA, 0xF0, 0x12, 0x82, 0x45]] ++
  [[0x1D, 0xB5, 0xC2, 0x7D, 0x6A, 0x27, 0xF9, 0xB9, 0xC9, 0x9A, 0x09, 0x78, 0x4D, 0xE4, 0x72, 0xA6]] ++
  [[0x06, 0xBF, 0x8B, 0x62, 0x66, 0xDD, 0x30, 0xFD, 0xE2, 0x98, 0x25, 0xB3, 0x10, 0x91, 0x22, 0x88]] ++
  [[0x36, 0xD0, 0x94, 0xCE, 0x8F, 0x96, 0xDB, 0xBD, 0xF1, 0xD2, 0x13, 0x5C, 0x83, 0x38, 0x46, 0x40]] ++
  [[0x1E, 0x42, 0xB6, 0xA3, 0xC3, 0x48, 0x7E, 0x6E, 0x6B, 0x3A, 0x28, 0x54, 0xFA, 0x85, 0xBA, 0x3D]] ++
  [[0xCA, 0x5E, 0x9B, 0x9F, 0x0A, 0x15, 0x79, 0x2B, 0x4E, 0xD4, 0xE5, 0xAC, 0x73, 0xF3, 0xA7, 0x57]] ++
  [[0x07, 0x70, 0xC0, 0xF7, 0x8C, 0x80, 0x63, 0x0D, 0x67, 0x4A, 0xDE, 0xED, 0x31, 0xC5, 0xFE, 0x18]] ++
  [[0xE3, 0xA5, 0x99, 0x77, 0x26, 0xB8, 0xB4, 0x7C, 0x11, 0x44, 0x92, 0xD9, 0x23, 0x20, 0x89, 0x2E]] ++
  [[0x37, 0x3F, 0xD1, 0x5B, 0x95, 0xBC, 0xCF, 0xCD, 0x90, 0x87, 0x97, 0xB2, 0xDC, 0xFC, 0xBE, 0x61]] ++
  [[0xF2, 0x56, 0xD3, 0xAB, 0x14, 0x2A, 0x5D, 0x9E, 0x84, 0x3C, 0x39, 0x53, 0x47, 0x6D, 0x41, 0xA2]] ++
  [[0x1F, 0x2D, 0x43, 0xD8, 0xB7, 0x7B, 0xA4, 0x76, 0xC4, 0x17, 0x49, 0xEC, 0x7F, 0x0C, 0x6F, 0xF6]] ++
  [[0x6C, 0xA1, 0x3B, 0x52, 0x29, 0x9D, 0x55, 0xAA, 0xFB, 0x60, 0x86, 0xB1, 0xBB, 0xCC, 0x3E, 0x5A]] ++
  [[0xCB, 0x59, 0x5F, 0xB0, 0x9C, 0xA9, 0xA0, 0x51, 0x0B, 0xF5, 0x16, 0xEB, 0x7A, 0x75, 0x2C, 0xD7]] ++
  [[0x4F, 0xAE, 0xD5, 0xE9, 0xE6, 0xE7, 0xAD, 0xE8, 0x74, 0xD6, 0xF4, 0xEA, 0xA8, 0x50, 0x58, 0xAF]]

/-- `EXP[i]` for `i` in `0..255` (R150). -/
def expAt (i : Nat) : Byte := BitVec.ofNat 8 ((expRows.getD (i / 16) []).getD (i % 16) 0)

/-- `LOG[a]` (R151), the free ROM entry at `a = 0`. -/
def logAt (a : Byte) : Nat :=
  if a = 0 then Config.logZero.toNat else (logRows.getD (a.toNat / 16) []).getD (a.toNat % 16) 0

/-- One row of the PROFILE ROM: the three columns the others follow from (R45). -/
structure ProfileRow where
  ntotal : Nat
  ecpb : Nat
  nblk : Nat
  deriving DecidableEq, Repr

/-- The PROFILE ROM, versions 1 to 10 (R45). -/
def profileRom : List ProfileRow :=
  [⟨26, 7, 1⟩, ⟨44, 10, 1⟩, ⟨70, 15, 1⟩, ⟨100, 20, 1⟩, ⟨134, 26, 1⟩,
   ⟨172, 18, 2⟩, ⟨196, 20, 2⟩, ⟨242, 24, 2⟩, ⟨292, 30, 2⟩, ⟨346, 18, 4⟩]

/-- A version the ROMs have an entry for, 1 to 10 (R38). -/
def validVersion (v : Nat) : Bool := Config.vMin ≤ v && v ≤ Config.vMax

/-- The PROFILE entry of version `v`; all zero outside 1 to 10, as the readouts of R40 give. -/
def profile (v : Nat) : ProfileRow :=
  if validVersion v then profileRom.getD (v - 1) ⟨0, 0, 0⟩ else ⟨0, 0, 0⟩

/-- `NTOTAL(v)` (R45). -/
def ntotal (v : Nat) : Nat := (profile v).ntotal
/-- `ECPB(v)` (R45). -/
def ecpb (v : Nat) : Nat := (profile v).ecpb
/-- `NBLK(v)` (R45). -/
def nblk (v : Nat) : Nat := (profile v).nblk
/-- `NDATA(v) = NTOTAL(v) − ECPB(v) · NBLK(v)` (R45). -/
def ndata (v : Nat) : Nat := ntotal v - ecpb v * nblk v
/-- The character-count width: 8 bits for versions 1 to 9, 16 for version 10 (R121). -/
def cci (v : Nat) : Nat := if v ≤ 9 then 8 else 16
/-- The symbol side `n = 4·v + 17` (R220). -/
def side (v : Nat) : Nat := 4 * v + 17

/-- The ALIGN ROM, versions 1 to 10 (R46). -/
def alignRom : List (List Nat) :=
  [[], [6, 18], [6, 22], [6, 26], [6, 30], [6, 34], [6, 22, 38], [6, 24, 42], [6, 26, 46], [6, 28, 50]]

/-- The alignment centres of version `v` (R46). -/
def alignCentres (v : Nat) : List Nat := if validVersion v then alignRom.getD (v - 1) [] else []

/-- FORMAT_WORD (R47). -/
def formatWord : BitVec 15 := 0x77C4

end Sys2Proof.Machine
end

