-- ==== Sys2Proof/Machine/Ops.lean ====
section
/-! DEFINITION. The named operations over memory and the completion state: reading and writing RAM (R60, R87), how a
command ends (R310, R311), and accepting a command (R76). -/

namespace Sys2Proof.Machine

/-! ### Sparse lists keyed by address or bit position -/

/-- The value listed at key `a`, if any. For RAM: none is an unwritten byte (R60). -/
def memRead {α : Type} : List (Nat × α) → Nat → Option α
  | [], _ => none
  | (k, b) :: m, a => if k = a then some b else memRead m a

/-- Write the entries `cells`, whose keys rise strictly, over `m` in one pass. -/
def memOverlay {α : Type} : List (Nat × α) → List (Nat × α) → List (Nat × α)
  | [], m => m
  | (a, b) :: cells, m =>
    m.takeWhile (fun e => e.1 < a) ++ (a, b) :: memOverlay cells (m.dropWhile fun e => e.1 ≤ a)

/-- Write `writes` over `m` in program order: of two writes to one key the later stands. -/
def memWriteAll {α : Type} (writes m : List (Nat × α)) : List (Nat × α) :=
  memOverlay (writes.foldl (fun set w => memOverlay [w] set) []) m

/-- Read the bytes at `addrs`, whose addresses rise strictly, in one pass; the error is the first address of them that
holds no value (R60). -/
def memGather {α : Type} : List Nat → List (Nat × α) → Except Nat (List α)
  | [], _ => .ok []
  | a :: addrs, m =>
    match m.dropWhile fun e => e.1 < a with
    | [] => .error a
    | (k, b) :: rest => if k = a then (memGather addrs rest).map (b :: ·) else .error a

/-- The addresses of `n` consecutive bytes from `base`. -/
def addrRange (base n : Nat) : List Nat := (List.range n).map (base + ·)

/-- The cells that put `bytes` at consecutive addresses from `base`. -/
def cellsAt {α : Type} (base : Nat) : List α → List (Nat × α)
  | [] => []
  | b :: bytes => (base, b) :: cellsAt (base + 1) bytes

/-- The keys rise strictly, from `lo` up. -/
def risingFrom {α : Type} : Nat → List (Nat × α) → Bool
  | _, [] => true
  | lo, (a, _) :: m => lo ≤ a && risingFrom (a + 1) m

/-- The canonical form of memory: addresses strictly rising, each an address of RAM (R71). -/
def Memory.wf (m : Memory) : Bool := risingFrom 0 m && m.all fun e => isRam e.1

/-! ### How a command's pseudocode ends -/

/-- How a command stops before its last line: by `raise` (R311), with the state it leaves, or on an unwritten byte. -/
inductive Stop where
  | raised (e : ErrCode) (s : State)
  | fault (f : Fault)
  deriving DecidableEq, Repr

/-- The body of a command's rule, without its completion step. -/
abbrev Body := State → Except Stop State

/-- `raise E(code)` with no write made (R311). -/
def raise (e : ErrCode) (s : State) : Except Stop State := .error (.raised e s)

/-- Read the bytes at `addrs` and go on with them, or fault at the first unwritten one (R60). -/
def State.load (s : State) (addrs : List Nat) (k : List Byte → Except Stop State) : Except Stop State :=
  match memGather addrs s.mem with
  | .ok bytes => k bytes
  | .error a => .error (.fault (.unwrittenRead a))

/-- Write `cells` into RAM. For every buffer but DCW, whose bytes the bit-packer writes (R63). -/
def State.store (s : State) (cells : Memory) : State := { s with mem := memOverlay cells s.mem }

/-- Run one body after another; the first stop ends both. -/
def Body.andThen (first second : Body) : Body := fun s =>
  match first s with
  | .ok t => second t
  | .error e => .error e

/-! ### Completion and error (R310-R312): the machine's one exception mechanism -/

/-- The code of an error name (R312). -/
def ErrCode.code : ErrCode → Byte
  | .illegalCmd => 0x01
  | .gfZero => 0x02
  | .badLen => 0x03
  | .badK => 0x04
  | .capacity => 0x05
  | .badVersion => 0x06
  | .bpOverflow => 0x07
  | .badNbits => 0x08

/-- A command finished without raise (R310). -/
def State.completeDone (s : State) : State := { s with done := true, err := false, errcode := 0x00, pending := none }

/-- A command ended by `raise` (R310): what the machine saves of an error is ERR and the code in ERRCODE (R315). -/
def State.completeError (s : State) (e : ErrCode) : State :=
  { s with done := false, err := true, errcode := e.code, pending := none }

/-- The completion rule applied to how a body ended (R310). -/
def finish (r : Except Stop State) : Host.Outcome State Fault Refusal :=
  match r with
  | .ok t => .next t.completeDone
  | .error (.raised e t) => .next (t.completeError e)
  | .error (.fault f) => .fault f

/-- Accept command byte `v` (R76). This is also what clears an error, the machine's return from one (R316). -/
def State.accept (s : State) (v : Byte) : State :=
  { s with lastCmd := v, done := false, err := false, errcode := 0x00, pending := some v }

end Sys2Proof.Machine
end

