-- ==== Sys2Proof/Machine/Operands.lean ====
section
/-! DEFINITION. The operand values commands take from the registers (R92), the profile readouts (R40), and the operand
checks that come before a command's first write (R311, R312). -/

namespace Sys2Proof.Machine

/-- LEN, unsigned (R39, R92). -/
def State.len (s : State) : Nat := s.lenHi.toNat * 256 + s.lenLo.toNat

/-- BP_VAL, unsigned (R42, R92). -/
def State.bpVal (s : State) : Nat := s.bpValHi.toNat * 256 + s.bpValLo.toNat

/-- `v[7:0]` of a number. -/
def loByte (v : Nat) : Byte := BitVec.ofNat 8 v

/-- `v[15:8]` of a number. -/
def hiByte (v : Nat) : Byte := BitVec.ofNat 8 (v / 256)

/-- VERSION as a number (R38). -/
def State.ver (s : State) : Nat := s.version.toNat

/-- SIZE, 0 when VERSION is outside 1 to 10 (R40). -/
def State.sizeReadout (s : State) : Byte := if validVersion s.ver then loByte (side s.ver) else 0x00

/-- The value of a register as a host read finds it, the readouts computed and the constants in place (R22-R43). -/
def State.readReg (s : State) (status : Byte) : RegName → Byte
  | .id0 => 0x51
  | .id1 => 0x52
  | .rev => 0x01
  | .cmd => s.lastCmd
  | .status => status
  | .errcode => s.errcode
  | .stage => s.stage
  | .opa => s.opa
  | .opb => s.opb
  | .res => s.res
  | .k => s.k
  | .plen => s.plen
  | .version => s.version
  | .lenLo => s.lenLo
  | .lenHi => s.lenHi
  | .size => s.sizeReadout
  | .nblk => loByte (nblk s.ver)
  | .ecpb => loByte (ecpb s.ver)
  | .ndataLo => loByte (ndata s.ver)
  | .ndataHi => hiByte (ndata s.ver)
  | .ntotalLo => loByte (ntotal s.ver)
  | .ntotalHi => hiByte (ntotal s.ver)
  | .bpNbits => s.bpNbits
  | .bpValLo => s.bpValLo
  | .bpValHi => s.bpValHi
  | .bpPosLo => loByte s.bpPos.toNat
  | .bpPosHi => hiByte s.bpPos.toNat

/-- Check VERSION and go on with it, or raise BAD_VERSION (R38, R312). -/
def State.withVersion (s : State) (k : Nat → Except Stop State) : Except Stop State :=
  if validVersion s.ver then k s.ver else raise .badVersion s

/-- Check K and go on with it, or raise BAD_K (R36, R312). -/
def State.withK (s : State) (k : Nat → Except Stop State) : Except Stop State :=
  if s.k.toNat = 0 ∨ s.k.toNat > Config.kMax then raise .badK s else k s.k.toNat

/-- Check PLEN and go on with the coefficients `POLY[0..PLEN−1]`, or raise BAD_LEN (R37, R312). -/
def State.withPoly (s : State) (k : List Byte → Except Stop State) : Except Stop State :=
  if s.plen.toNat = 0 then raise .badLen s else s.load (addrRange polyBase s.plen.toNat) k

/-- Check that OPA is not zero and go on with it, or raise GF_ZERO (R158, R160, R312). -/
def State.withNonzeroOpa (s : State) (k : Byte → Except Stop State) : Except Stop State :=
  if s.opa = 0x00 then raise .gfZero s else k s.opa

/-- Write RES (R35). -/
def State.setRes (s : State) (v : Byte) : State := { s with res := v }

end Sys2Proof.Machine
end

