-- ==== Sys2Proof/Machine/BitStream.lean ====
section
/-! DEFINITION. The version selector, the bit-packer and the bit-stream encoder (41_bitstream): SELECT_VERSION,
BP_CLEAR, BP_PUT and ENCODE_STREAM. -/

namespace Sys2Proof.Machine

/-- A payload of `L` bytes fits version `v`, the full 4-bit terminator counted (R120). -/
def fits (v L : Nat) : Bool := 4 + cci v + 8 * L + 4 ≤ 8 * ndata v

/-- `MAXLEN(v)` (R122). -/
def maxLen (v : Nat) : Nat := (8 * ndata v - 8 - cci v) / 8

/-- The least version of 1 to 10 that fits `L` bytes, if any (R123). -/
def selectVersion (L : Nat) : Option Nat := (List.range' 1 10).find? fun v => fits v L

/-- The low `nb` bits of `val`, most significant first (R130). -/
def bitsOf (nb val : Nat) : List Bool := (List.range nb).map fun i => val.testBit (nb - 1 - i)

/-- `byte` with bit `i` replaced by `b` (R130). -/
def replaceBit (byte : Byte) (i : Nat) (b : Bool) : Byte :=
  if b then byte ||| (1#8 <<< i) else byte &&& ~~~(1#8 <<< i)

/-- The byte whose bits are `bits`, most significant first. -/
def byteOfBits (bits : List Bool) : Byte := BitVec.ofNat 8 (bits.foldl (fun acc b => 2 * acc + b.toNat) 0)

/-- The entries of bit list `m` that lie in DCW byte `i`. -/
def bitsIn (i : Nat) (m : BitCells) : BitCells := m.filter fun e => e.1 / 8 == i

/-- The entries of bit list `m` that lie outside DCW byte `i`. -/
def bitsOutside (i : Nat) (m : BitCells) : BitCells := m.filter fun e => e.1 / 8 != i

/-- Append one bit at BP_POS (R130). In a written byte the bit is replaced. In an unwritten one it is kept apart, and the
byte becomes written when its eighth bit has been put. -/
def State.putBit (s : State) (b : Bool) : State :=
  let p := s.bpPos.toNat
  let i := p / 8
  let next := s.bpPos + 1
  match memRead s.mem (dcwBase + i) with
  | some byte =>
    { s with mem := memOverlay [(dcwBase + i, replaceBit byte (7 - p % 8) b)] s.mem, bpPos := next }
  | none =>
    let bits := memOverlay [(p, b)] s.dcwBits
    let own := bitsIn i bits
    if own.length = 8 then
      { s with mem := memOverlay [(dcwBase + i, byteOfBits (own.map (·.2)))] s.mem,
               dcwBits := bitsOutside i bits, bpPos := next }
    else { s with dcwBits := bits, bpPos := next }

/-- `put(val, nb)`: append the low `nb` bits of `val` at BP_POS (R130). -/
def State.put (s : State) (val nb : Nat) : State := (bitsOf nb val).foldl State.putBit s

/-- `while BP_POS mod 8 ≠ 0: put(0, 1)`, at most `fuel` times (R135). -/
def State.padToByte : Nat → State → State
  | 0, s => s
  | fuel + 1, s => if s.bpPos.toNat % 8 ≠ 0 then State.padToByte fuel (s.put 0 1) else s

/-- The pad codeword number `i` (R136). -/
def padByte (i : Nat) : Nat := if i % 2 = 0 then 0xEC else 0x11

/-- `while BP_POS < cap: put` the pad codeword number `i`, at most `fuel` times (R135, R136). -/
def State.putPads (cap : Nat) : Nat → Nat → State → State
  | 0, _, s => s
  | fuel + 1, i, s => if s.bpPos.toNat < cap then State.putPads cap fuel (i + 1) (s.put (padByte i) 8) else s

/-- The stream of `payload` at version `v` written into DCW from BP_POS 0 (R135). -/
def State.putStream (s : State) (v : Nat) (payload : List Byte) : State :=
  let cap := 8 * ndata v
  let s := ({ s with bpPos := 0 }).put 0b0100 4
  let s := s.put payload.length (cci v)
  let s := payload.foldl (fun s b => s.put b.toNat 8) s
  let s := s.put 0 (min 4 (cap - s.bpPos.toNat))
  let s := State.padToByte 8 s
  State.putPads cap (ndata v) 0 s

/-- BP_CLEAR (R131). -/
def bpClearBody : Body := fun s => .ok { s with bpPos := 0 }

/-- BP_PUT (R132). -/
def bpPutBody : Body := fun s =>
  let nb := s.bpNbits.toNat
  if nb = 0 ∨ nb > 16 then raise .badNbits s
  else if s.bpPos.toNat + nb > Config.dcwBits then raise .bpOverflow s
  else .ok (s.put s.bpVal nb)

/-- SELECT_VERSION (R123). -/
def selectVersionBody : Body := fun s =>
  match selectVersion s.len with
  | none => raise .capacity s
  | some v => .ok { s with version := BitVec.ofNat 8 v }

/-- ENCODE_STREAM (R135). -/
def encodeStreamBody : Body := fun s =>
  s.withVersion fun v =>
    if fits v s.len then s.load (addrRange payloadBase s.len) fun payload => .ok (s.putStream v payload)
    else raise .capacity s

/-- The core step of BP_CLEAR. -/
def execBpClear (s : State) : Host.Outcome State Fault Refusal := finish (bpClearBody s)

/-- The core step of BP_PUT. -/
def execBpPut (s : State) : Host.Outcome State Fault Refusal := finish (bpPutBody s)

/-- The core step of SELECT_VERSION. -/
def execSelectVersion (s : State) : Host.Outcome State Fault Refusal := finish (selectVersionBody s)

/-- The core step of ENCODE_STREAM. -/
def execEncodeStream (s : State) : Host.Outcome State Fault Refusal := finish (encodeStreamBody s)

end Sys2Proof.Machine
end

