-- ==== Sys2Proof/Machine/Flags.lean ====
section
/-! DEFINITION. The STATUS register (R25-R30): its byte and the one write that changes it. -/

namespace Sys2Proof.Machine

/-- STATUS.BUSY: a command is pending (R26). -/
def State.busy (s : State) : Bool := s.pending.isSome

/-- The STATUS byte: BUSY, DONE, ERR and WIGN in bits 0 to 3, bits 7:4 zero (R25, R30). -/
def State.status (s : State) : Byte :=
  0#4 ++ BitVec.ofBool s.wign ++ BitVec.ofBool s.err ++ BitVec.ofBool s.done ++ BitVec.ofBool s.busy

/-- A host write of `v` to STATUS while idle: a 1 in bit 3 clears WIGN, every other bit is ignored (R29). -/
def State.writeStatus (s : State) (v : Byte) : State := if v.getLsbD 3 then { s with wign := false } else s

/-- A host write ignored because a command is pending (R79). -/
def State.ignoreWrite (s : State) : State := { s with wign := true }

end Sys2Proof.Machine
end

