-- ==== Sys2Proof/Machine/Matrix.lean ====
section
/-! DEFINITION. The module matrix and its builder (44_matrix): cells, the structural patterns, MATRIX_INIT. A pattern
gives, for each cell it touches, the value `setF` writes there; painting a pattern is running its `setF` calls. -/

namespace Sys2Proof.Machine

/-- The two fields of a MATRIX cell (R57). -/
structure ModuleCell where
  dark : Bool
  rsv : Bool
  deriving DecidableEq, Repr

/-- The byte of a cell: DARK in bit 0, RSV in bit 1, bits 7:2 zero (R57). -/
def ModuleCell.toByte (m : ModuleCell) : Byte := 0#6 ++ BitVec.ofBool m.rsv ++ BitVec.ofBool m.dark

/-- The cell a byte holds; bits 7:2 are reserved (R57). -/
def ModuleCell.ofByte (b : Byte) : ModuleCell := ⟨b.getLsbD 0, b.getLsbD 1⟩

/-- The cells of a matrix while a command works on them, by row and column. -/
abbrev Grid := Nat → Nat → ModuleCell

/-- A structural pattern: the value `setF` writes at each cell it touches (R220). -/
abbrev Pattern := Nat → Nat → Option Bool

/-- Run the `setF` calls of a pattern (R220). -/
def paint (g : Grid) (p : Pattern) : Grid := fun r c =>
  match p r c with
  | some b => ⟨b, true⟩
  | none => g r c

/-- `|a − b|`. -/
def dist (a b : Nat) : Nat := (a - b) + (b - a)

/-- The finder with top-left corner `(r0, c0)` and its separator, clipped to the symbol (R223). -/
def finderPattern (n r0 c0 : Nat) : Pattern := fun r c =>
  if r < n ∧ c < n then
    match max (dist r (r0 + 3)) (dist c (c0 + 3)) with
    | 0 | 1 => some true
    | 2 => some false
    | 3 => some true
    | 4 => some false
    | _ => none
  else none

/-- The alignment pattern centred on `(cr, cc)` (R225). -/
def alignPattern (cr cc : Nat) : Pattern := fun r c =>
  match max (dist r cr) (dist c cc) with
  | 0 => some true
  | 1 => some false
  | 2 => some true
  | _ => none

/-- Some cell of the 5 × 5 square centred on `(cr, cc)` is reserved (R226). -/
def squareReserved (g : Grid) (cr cc : Nat) : Bool :=
  (List.range 5).any fun i => (List.range 5).any fun j => (g (cr - 2 + i) (cc - 2 + j)).rsv

/-- The grid with the alignment patterns centred on `centres` painted, in order. -/
def alignGrid (g : Grid) (centres : List (Nat × Nat)) : Grid :=
  centres.foldl (fun g centre => paint g (alignPattern centre.1 centre.2)) g

/-- The candidate centres in ROM order, row by row (R226). -/
def alignCandidates (v : Nat) : List (Nat × Nat) :=
  (alignCentres v).flatMap fun cr => (alignCentres v).map fun cc => (cr, cc)

/-- The centres placed over the finders `g`, in ROM order: a candidate is skipped when a cell of its square is already
reserved (R226). -/
def placedCentres (g : Grid) (candidates : List (Nat × Nat)) : List (Nat × Nat) :=
  candidates.foldl (fun placed centre =>
    if squareReserved (alignGrid g placed) centre.1 centre.2 then placed else placed ++ [centre]) []

/-- The timing patterns on row 6 and column 6, over the cells `g` has not reserved (R227). -/
def timingPattern (n : Nat) (g : Grid) : Pattern := fun r c =>
  if r < n ∧ c < n ∧ (g r c).rsv = false then
    if r = 6 then some (c % 2 == 0) else if c = 6 then some (r % 2 == 0) else none
  else none

/-- The dark module (R228). -/
def darkModule (n : Nat) : Pattern := fun r c => if r = n - 8 ∧ c = 8 then some true else none

/-- The 30 reserved format cells (R229). -/
def isFormatCell (n r c : Nat) : Bool :=
  (r == 8 && [0, 1, 2, 3, 4, 5, 7, 8].contains c) || (c == 8 && [0, 1, 2, 3, 4, 5, 7].contains r) ||
  (r == 8 && (n - 8 ≤ c && c < n)) || (c == 8 && (n - 7 ≤ r && r < n))

/-- The format-information reservation, light (R229). -/
def formatReserve (n : Nat) : Pattern := fun r c => if isFormatCell n r c then some false else none

/-- The version-information reservation of versions 7 to 10, light (R230). -/
def versionReserve (v n : Nat) : Pattern := fun r c =>
  if v ≥ 7 ∧ ((r ≤ 5 ∧ n - 11 ≤ c ∧ c ≤ n - 9) ∨ (n - 11 ≤ r ∧ r ≤ n - 9 ∧ c ≤ 5)) then some false else none

/-- The cleared matrix (R221). -/
def clearGrid : Grid := fun _ _ => ⟨false, false⟩

/-- The three finders with their separators (R222, R223). -/
def finderGrid (n : Nat) : Grid :=
  paint (paint (paint clearGrid (finderPattern n 0 0)) (finderPattern n 0 (n - 7))) (finderPattern n (n - 7) 0)

/-- The structural matrix of version `v` with the alignment patterns centred on `centres`, in the order of R221. -/
def structGridWith (v : Nat) (centres : List (Nat × Nat)) : Grid :=
  let n := side v
  let g := alignGrid (finderGrid n) centres
  let g := paint g (timingPattern n g)
  let g := paint g (darkModule n)
  let g := paint g (formatReserve n)
  paint g (versionReserve v n)

/-- The alignment centres version `v` places (R226). -/
def alignPlaced (v : Nat) : List (Nat × Nat) := placedCentres (finderGrid (side v)) (alignCandidates v)

/-- The structural matrix of version `v` (R221). -/
def structGrid (v : Nat) : Grid := structGridWith v (alignPlaced v)

/-- All 4096 cells of a grid as memory (R57). -/
def gridCells (g : Grid) : Memory :=
  (List.range 4096).map fun i => (matrixBase + i, (g (i / 64) (i % 64)).toByte)

/-- The 4096 bytes MATRIX_INIT writes at version `v` (R221). -/
def structCells (v : Nat) : Memory :=
  let centres := alignPlaced v
  gridCells (structGridWith v centres)

/-- MATRIX_INIT (R221). -/
def matrixInitBody : Body := fun s => s.withVersion fun v => .ok (s.store (structCells v))

/-- The core step of MATRIX_INIT. -/
def execMatrixInit (s : State) : Host.Outcome State Fault Refusal := finish (matrixInitBody s)

end Sys2Proof.Machine
end

