-- ==== Sys2Proof/Machine/Bus.lean ====
section
/-! DEFINITION. The host bus (20_memory): what each read and write does, idle and pending, and the reset input (R340). -/

namespace Sys2Proof.Machine

/-- The byte at RAM address `a`, or the fault of reading an unwritten one (R60). -/
def State.readRam (s : State) (a : Nat) : Except Fault Byte :=
  match memRead s.mem a with
  | some b => .ok b
  | none => .error (.unwrittenRead a)

/-- A host read while idle (R78). Bits 7:2 of a MATRIX cell read 0 (R57); a reserved address reads 0 (R86). -/
def State.readIdle (s : State) (addr : BusAddr) : Except Fault Byte :=
  match locate addr with
  | .reg r => .ok (s.readReg s.status r)
  | .ramRw a | .ramRo a => s.readRam a
  | .cell a => (s.readRam a).map fun b => (ModuleCell.ofByte b).toByte
  | .reserved => .ok 0x00

/-- The registers whose true value a host read returns at all times (R80). -/
def readsTrueWhilePending : Loc → Bool
  | .reg .id0 | .reg .id1 | .reg .rev | .reg .cmd | .reg .status | .reg .errcode => true
  | _ => false

/-- Record that a transaction was made. -/
def State.log (s : State) (t : Txn) : State := { s with trace := t :: s.trace }

/-- A host read (R78, R80): while a command is pending every address but the six of R80 gives the next free byte. -/
def hostRead (addr : BusAddr) (s : State) : Host.Outcome State Fault Refusal :=
  if s.busy && !readsTrueWhilePending (locate addr) then
    .next { s.log (.r addr (Config.pendingRead s.draws)) with draws := s.draws + 1 }
  else
    match s.readIdle addr with
    | .ok b => .next (s.log (.r addr b))
    | .error f => .fault f

/-- Store a host byte in an RW buffer; a DCW byte written whole keeps no separate bits (R60, R75). -/
def State.hostStore (s : State) (a : Nat) (v : Byte) : State :=
  { s with mem := memOverlay [(a, v)] s.mem, dcwBits := s.dcwBits.filter fun e => dcwBase + e.1 / 8 != a }

/-- A host write to a register while idle (R75): RW registers take the byte, CMD accepts a command, STATUS may clear
WIGN, and a write to a read-only register has no effect. -/
def State.writeReg (s : State) (v : Byte) : RegName → State
  | .cmd => s.accept v
  | .status => s.writeStatus v
  | .opa => { s with opa := v }
  | .opb => { s with opb := v }
  | .k => { s with k := v }
  | .plen => { s with plen := v }
  | .version => { s with version := v }
  | .lenLo => { s with lenLo := v }
  | .lenHi => { s with lenHi := v }
  | .bpNbits => { s with bpNbits := v }
  | .bpValLo => { s with bpValLo := v }
  | .bpValHi => { s with bpValHi := v }
  | .id0 | .id1 | .rev | .errcode | .stage | .res
  | .size | .nblk | .ecpb | .ndataLo | .ndataHi | .ntotalLo | .ntotalHi | .bpPosLo | .bpPosHi => s

/-- A host write while idle (R75). -/
def State.writeIdle (s : State) (addr : BusAddr) (v : Byte) : State :=
  match locate addr with
  | .reg r => s.writeReg v r
  | .ramRw a => s.hostStore a v
  | .ramRo _ | .cell _ | .reserved => s

/-- A host write (R75, R79). -/
def hostWrite (addr : BusAddr) (v : Byte) (s : State) : State :=
  (if s.busy then s.ignoreWrite else s.writeIdle addr v).log (.w addr v)

/-- A host access; one of a width other than one byte is refused (R72). -/
def hostAccess (a : Access) (s : State) : Host.Outcome State Fault Refusal :=
  match a with
  | .read width addr => if width = 1 then hostRead addr s else .refused (.accessWidth width)
  | .write width addr v => if width = 1 then .next (hostWrite addr v s) else .refused (.accessWidth width)

/-- The reset input (R340): every piece of the machine's state takes its reset value. The environment's own fields stay. -/
def State.resetInput (s : State) : State :=
  { State.reset with events := s.events, trace := s.trace, draws := s.draws }

end Sys2Proof.Machine
end

