-- ==== Sys2Proof/Machine/Format.lean ====
section
/-! DEFINITION. The format-information encoder (46_format): WRITE_FORMAT. -/

namespace Sys2Proof.Machine

/-- The cell of copy 1 that holds bit `i` of the format word (R291). -/
def formatCell1 (i : Nat) : Nat × Nat :=
  if i ≤ 5 then (i, 8)
  else if i = 6 then (7, 8)
  else if i = 7 then (8, 8)
  else if i = 8 then (8, 7)
  else (8, 14 - i)

/-- The cell of copy 2 that holds bit `i` of the format word (R291). -/
def formatCell2 (n i : Nat) : Nat × Nat := if i ≤ 7 then (8, n - 1 - i) else (n - 15 + i, 8)

/-- The 30 cells of R291 with the bit each holds, copy 1 then copy 2. -/
def formatCells (n : Nat) : List (Nat × (Nat × Nat)) :=
  ((List.range 15).map fun i => (i, formatCell1 i)) ++ ((List.range 15).map fun i => (i, formatCell2 n i))

/-- The writes of WRITE_FORMAT: DARK is the format bit, RSV is 1 (R292). -/
def formatWrites (n : Nat) : Memory :=
  (formatCells n).map fun e => (cellAddr e.2.1 e.2.2, (ModuleCell.mk (formatWord.getLsbD e.1) true).toByte)

/-- WRITE_FORMAT (R292). -/
def writeFormatBody : Body := fun s =>
  s.withVersion fun v => .ok { s with mem := memWriteAll (formatWrites (side v)) s.mem }

/-- The core step of WRITE_FORMAT. -/
def execWriteFormat (s : State) : Host.Outcome State Fault Refusal := finish (writeFormatBody s)

end Sys2Proof.Machine
end

