-- ==== Sys2Proof/Machine/Placement.lean ====
section
/-! DEFINITION. Data placement and masking (45_placement_mask): the zig-zag order, PLACE_DATA and APPLY_MASK. -/

namespace Sys2Proof.Machine

/-- The cells of the `n × n` symbol, row by row. -/
def symbolCells (n : Nat) : List (Nat × Nat) := (List.range n).flatMap fun r => (List.range n).map fun c => (r, c)

/-- The addresses of the symbol's cells, rising. -/
def symbolAddrs (n : Nat) : List Nat := (symbolCells n).map fun p => cellAddr p.1 p.2

/-- Read every MATRIX cell of the symbol, row by row, and go on with the cells (R355). -/
def State.loadSymbol (s : State) (n : Nat) (k : List ModuleCell → Except Stop State) : Except Stop State :=
  s.load (symbolAddrs n) fun bytes => k (bytes.map ModuleCell.ofByte)

/-- The grid of the symbol's cells given row by row. -/
def gridOf (n : Nat) (cells : List ModuleCell) : Grid := fun r c => cells.getD (n * r + c) ⟨false, false⟩

/-- The column pairs from `right` leftwards with their direction, upward first; column 6 is skipped (R262). -/
def columnPairs : Nat → Nat → Bool → List (Nat × Bool)
  | 0, _, _ => []
  | fuel + 1, right, upward =>
    if right ≥ 1 then
      let right := if right = 6 then 5 else right
      (right, upward) :: columnPairs fuel (right - 2) (!upward)
    else []

/-- The cells of one column pair in traversal order, the right column first (R262). -/
def pairCells (n : Nat) (pair : Nat × Bool) : List (Nat × Nat) :=
  (List.range n).flatMap fun k =>
    let r := if pair.2 then n - 1 - k else k
    [(r, pair.1), (r, pair.1 - 1)]

/-- The zig-zag traversal: the free cells, in order (R262). -/
def zigzag (n : Nat) (g : Grid) : List (Nat × Nat) :=
  ((columnPairs n (n - 1) true).flatMap (pairCells n)).filter fun p => !(g p.1 p.2).rsv

/-- The codeword bits, each codeword most significant bit first (R261). -/
def streamBits (codewords : List Byte) : List Bool := codewords.flatMap fun b => bitsOf 8 b.toNat

/-- The DARK values PLACE_DATA writes, cell by cell: the stream bits, then 0 in the remainder cells (R260, R263). -/
def placements (free : List (Nat × Nat)) (bits : List Bool) : Memory :=
  (free.zip (bits ++ List.replicate free.length false)).map fun e =>
    (cellAddr e.1.1 e.1.2, (ModuleCell.mk e.2 false).toByte)

/-- PLACE_DATA (R260). It reads all of `ICW[0..NTOTAL−1]`, also where the free cells take fewer bits (R264). -/
def placeDataBody : Body := fun s =>
  s.withVersion fun v => s.loadSymbol (side v) fun cells =>
    let free := zigzag (side v) (gridOf (side v) cells)
    s.load (addrRange icwBase (ntotal v)) fun codewords =>
      .ok { s with mem := memWriteAll (placements free (streamBits codewords)) s.mem }

/-- The mask function (R271). -/
def mask0 (r c : Nat) : Bool := (r + c) % 2 == 0

/-- The cells APPLY_MASK flips, with their new bytes (R270). -/
def maskedCells (n : Nat) (cells : List ModuleCell) : Memory :=
  ((symbolCells n).zip cells).filterMap fun e =>
    if !e.2.rsv && mask0 e.1.1 e.1.2 then some (cellAddr e.1.1 e.1.2, (ModuleCell.mk (!e.2.dark) false).toByte)
    else none

/-- APPLY_MASK (R270). -/
def applyMaskBody : Body := fun s =>
  s.withVersion fun v => s.loadSymbol (side v) fun cells => .ok (s.store (maskedCells (side v) cells))

/-- The core step of PLACE_DATA. -/
def execPlaceData (s : State) : Host.Outcome State Fault Refusal := finish (placeDataBody s)

/-- The core step of APPLY_MASK. -/
def execApplyMask (s : State) : Host.Outcome State Fault Refusal := finish (applyMaskBody s)

end Sys2Proof.Machine
end

