-- ==== Sys2Proof/Machine/Galois.lean ====
section
/-! DEFINITION. GF(256) arithmetic and the polynomial evaluator (42_gf_poly): GF_ADD, GF_MUL, GF_INV, GF_EXP, GF_LOG
and POLY_EVAL. -/

namespace Sys2Proof.Machine

/-- Addition in GF(256) is bitwise exclusive or (R152). -/
def gfadd (a b : Byte) : Byte := a ^^^ b

/-- Multiplication in GF(256) (R153). -/
def gfmul (a b : Byte) : Byte := if a = 0 ∨ b = 0 then 0 else expAt ((logAt a + logAt b) % 255)

/-- Inversion of a nonzero byte (R154). -/
def gfinv (a : Byte) : Byte := expAt (255 - logAt a)

/-- Polynomial evaluation by Horner's rule, highest degree first (R162). -/
def polyeval (p : List Byte) (x : Byte) : Byte := p.foldl (fun acc c => gfadd (gfmul acc x) c) 0x00

/-- GF_ADD (R156). -/
def gfAddBody : Body := fun s => .ok (s.setRes (gfadd s.opa s.opb))

/-- GF_MUL (R157). -/
def gfMulBody : Body := fun s => .ok (s.setRes (gfmul s.opa s.opb))

/-- GF_INV (R158). -/
def gfInvBody : Body := fun s => s.withNonzeroOpa fun a => .ok (s.setRes (gfinv a))

/-- GF_EXP (R159). -/
def gfExpBody : Body := fun s => .ok (s.setRes (expAt s.opa.toNat))

/-- GF_LOG (R160). -/
def gfLogBody : Body := fun s => s.withNonzeroOpa fun a => .ok (s.setRes (BitVec.ofNat 8 (logAt a)))

/-- POLY_EVAL (R161). -/
def polyEvalBody : Body := fun s => s.withPoly fun p => .ok (s.setRes (polyeval p s.opa))

/-- The core step of GF_ADD. -/
def execGfAdd (s : State) : Host.Outcome State Fault Refusal := finish (gfAddBody s)

/-- The core step of GF_MUL. -/
def execGfMul (s : State) : Host.Outcome State Fault Refusal := finish (gfMulBody s)

/-- The core step of GF_INV. -/
def execGfInv (s : State) : Host.Outcome State Fault Refusal := finish (gfInvBody s)

/-- The core step of GF_EXP. -/
def execGfExp (s : State) : Host.Outcome State Fault Refusal := finish (gfExpBody s)

/-- The core step of GF_LOG. -/
def execGfLog (s : State) : Host.Outcome State Fault Refusal := finish (gfLogBody s)

/-- The core step of POLY_EVAL. -/
def execPolyEval (s : State) : Host.Outcome State Fault Refusal := finish (polyEvalBody s)

end Sys2Proof.Machine
end

