-- ==== Sys2Proof/Machine/ReedSolomon.lean ====
section
/-! DEFINITION. Reed–Solomon (43_reed_solomon): the generator polynomial, the division register, the syndromes, the
block partition and the interleaver; RS_GENPOLY, RS_ENCODE, RS_SYNDROME, RS_BLOCKS and INTERLEAVE. Polynomials are
coefficient lists, highest degree first (R12). -/

namespace Sys2Proof.Machine

/-- Coefficientwise addition of two lists of one length. -/
def polyAdd (p q : List Byte) : List Byte := List.zipWith gfadd p q

/-- Every coefficient times `f`. -/
def polyScale (p : List Byte) (f : Byte) : List Byte := p.map (gfmul · f)

/-- Multiply `g` by `(x + e)`: `h[0] = g[0]`, `h[j] = g[j] ⊕ g[j−1]⊗e`, `h[d+1] = g[d]⊗e` (R180). -/
def mulRoot (g : List Byte) (e : Byte) : List Byte := polyAdd (g ++ [0x00]) (0x00 :: polyScale g e)

/-- The generator polynomial of degree `k` (R180). -/
def genpoly (k : Nat) : List Byte := (List.range k).foldl (fun g i => mulRoot g (expAt i)) [0x01]

/-- One step of the division register (R181): shift by one, then add `f` times the generator's lower coefficients. -/
def rsStep (g r : List Byte) (d : Byte) : List Byte :=
  let f := gfadd d (r.headD 0x00)
  polyAdd (r.tail ++ [0x00]) (polyScale g.tail f)

/-- The EC codewords of data block `d` for degree `k` (R181). -/
def rsrem (d : List Byte) (k : Nat) : List Byte := d.foldl (rsStep (genpoly k)) (List.replicate k 0x00)

/-- The syndromes of codeword sequence `c` for degree `k` (R182). -/
def syndromes (c : List Byte) (k : Nat) : List Byte := (List.range k).map fun i => polyeval c (expAt i)

/-- `len_b`: the short blocks come first (R190). -/
def blockLen (v b : Nat) : Nat :=
  ndata v / nblk v + if nblk v - ndata v % nblk v ≤ b then 1 else 0

/-- `start_b` (R190). -/
def blockStart (v b : Nat) : Nat := ((List.range b).map (blockLen v)).sum

/-- Cut the data codewords of version `v` into its blocks (R190). -/
def splitBlocks (v : Nat) (data : List Byte) : List (List Byte) :=
  (List.range (nblk v)).map fun b => (data.drop (blockStart v b)).take (blockLen v b)

/-- Column-wise interleaving: position `i` of every block that has one, for `i` below `len` (R195). -/
def columnwise (len : Nat) (blocks : List (List Byte)) : List Byte :=
  (List.range len).flatMap fun i => blocks.filterMap fun block => block[i]?

/-- `max_b len_b` (R195). -/
def maxBlockLen (v : Nat) : Nat := ((List.range (nblk v)).map (blockLen v)).foldl max 0

/-- The addresses of the ECW bytes of version `v`, block by block (R191). -/
def ecwAddrs (v : Nat) : List Nat :=
  (List.range (nblk v)).flatMap fun b => (List.range (ecpb v)).map fun j => ecwAddr b j

/-- Cut the EC bytes of version `v`, block by block, into its blocks. -/
def splitEc (v : Nat) (ec : List Byte) : List (List Byte) :=
  (List.range (nblk v)).map fun b => (ec.drop (ecpb v * b)).take (ecpb v)

/-- The interleaved stream of version `v`: the data codewords, then the EC codewords (R195). -/
def interleaved (v : Nat) (data ec : List Byte) : List Byte :=
  columnwise (maxBlockLen v) (splitBlocks v data) ++ columnwise (ecpb v) (splitEc v ec)

/-- RS_GENPOLY (R183). -/
def rsGenpolyBody : Body := fun s => s.withK fun k => .ok (s.store (cellsAt genBase (genpoly k)))

/-- RS_ENCODE (R184). -/
def rsEncodeBody : Body := fun s =>
  s.withK fun k => s.withPoly fun d =>
    .ok ((s.store (cellsAt genBase (genpoly k))).store (cellsAt remBase (rsrem d k)))

/-- RS_SYNDROME (R186). -/
def rsSyndromeBody : Body := fun s =>
  s.withK fun k => s.withPoly fun c =>
    let syn := syndromes c k
    .ok ((s.store (cellsAt synBase syn)).setRes (if syn.all (· == 0x00) then 0x00 else 0x01))

/-- RS_BLOCKS (R191). -/
def rsBlocksBody : Body := fun s =>
  s.withVersion fun v => s.load (addrRange dcwBase (ndata v)) fun data =>
    let ec := (splitBlocks v data).flatMap fun block => rsrem block (ecpb v)
    .ok ((s.store (cellsAt genBase (genpoly (ecpb v)))).store ((ecwAddrs v).zip ec))

/-- INTERLEAVE (R196). -/
def interleaveBody : Body := fun s =>
  s.withVersion fun v => s.load (addrRange dcwBase (ndata v)) fun data => s.load (ecwAddrs v) fun ec =>
    .ok (s.store (cellsAt icwBase (interleaved v data ec)))

/-- The core step of RS_GENPOLY. -/
def execRsGenpoly (s : State) : Host.Outcome State Fault Refusal := finish (rsGenpolyBody s)

/-- The core step of RS_ENCODE. -/
def execRsEncode (s : State) : Host.Outcome State Fault Refusal := finish (rsEncodeBody s)

/-- The core step of RS_SYNDROME. -/
def execRsSyndrome (s : State) : Host.Outcome State Fault Refusal := finish (rsSyndromeBody s)

/-- The core step of RS_BLOCKS. -/
def execRsBlocks (s : State) : Host.Outcome State Fault Refusal := finish (rsBlocksBody s)

/-- The core step of INTERLEAVE. -/
def execInterleave (s : State) : Host.Outcome State Fault Refusal := finish (interleaveBody s)

end Sys2Proof.Machine
end

