-- ==== Sys2Proof/Machine/Pipeline.lean ====
section
/-! DEFINITION. Control and pipeline commands (40_control): NOP and GENERATE. -/

namespace Sys2Proof.Machine

/-- NOP (R110). -/
def nopBody : Body := fun s => .ok s

/-- `STAGE <- k` (R32). -/
def State.setStage (s : State) (k : Byte) : State := { s with stage := k }

/-- Run a stage and then `STAGE <- k` (R111). -/
def stageThen (stage : Body) (k : Byte) : Body := stage.andThen fun s => .ok (s.setStage k)

/-- Stages 2 to 8 of GENERATE, in order (R111). -/
def laterStages : Body :=
  (stageThen encodeStreamBody 2).andThen <|
  (stageThen rsBlocksBody 3).andThen <|
  (stageThen interleaveBody 4).andThen <|
  (stageThen matrixInitBody 5).andThen <|
  (stageThen placeDataBody 6).andThen <|
  (stageThen applyMaskBody 7).andThen <|
  stageThen writeFormatBody 8

/-- GENERATE (R111). The capacity check comes after `STAGE <- 0`, the one write a raise leaves behind (R311). -/
def generateBody : Body := fun s =>
  let s := s.setStage 0
  match selectVersion s.len with
  | none => raise .capacity s
  | some v => laterStages ({ s with version := BitVec.ofNat 8 v }.setStage 1)

/-- The core step of NOP. -/
def execNop (s : State) : Host.Outcome State Fault Refusal := finish (nopBody s)

/-- The core step of GENERATE. -/
def execGenerate (s : State) : Host.Outcome State Fault Refusal := finish (generateBody s)

end Sys2Proof.Machine
end

