-- ==== Sys2Proof/Machine/Dispatch.lean ====
section
/-! DEFINITION. One arm per command: the core step of each (R77). -/

namespace Sys2Proof.Machine

def exec (i : Instr) (s : State) : Host.Outcome State Fault Refusal :=
  match i with
  | .nop => Sys2Proof.Machine.execNop s
  | .gfAdd => Sys2Proof.Machine.execGfAdd s
  | .gfMul => Sys2Proof.Machine.execGfMul s
  | .gfInv => Sys2Proof.Machine.execGfInv s
  | .gfExp => Sys2Proof.Machine.execGfExp s
  | .gfLog => Sys2Proof.Machine.execGfLog s
  | .polyEval => Sys2Proof.Machine.execPolyEval s
  | .rsGenpoly => Sys2Proof.Machine.execRsGenpoly s
  | .rsEncode => Sys2Proof.Machine.execRsEncode s
  | .rsSyndrome => Sys2Proof.Machine.execRsSyndrome s
  | .bpClear => Sys2Proof.Machine.execBpClear s
  | .bpPut => Sys2Proof.Machine.execBpPut s
  | .selectVersion => Sys2Proof.Machine.execSelectVersion s
  | .encodeStream => Sys2Proof.Machine.execEncodeStream s
  | .rsBlocks => Sys2Proof.Machine.execRsBlocks s
  | .interleave => Sys2Proof.Machine.execInterleave s
  | .matrixInit => Sys2Proof.Machine.execMatrixInit s
  | .placeData => Sys2Proof.Machine.execPlaceData s
  | .applyMask => Sys2Proof.Machine.execApplyMask s
  | .writeFormat => Sys2Proof.Machine.execWriteFormat s
  | .generate => Sys2Proof.Machine.execGenerate s

end Sys2Proof.Machine
end

