-- ==== Sys2Proof/Machine/CoreStep.lean ====
section
/-! DEFINITION. The core agent's step (R77) and what the next event of the environment does (R82). -/

namespace Sys2Proof.Machine

/-- The core step of pending command byte `c`: the command's rule, or ILLEGAL_CMD for a code outside R93 (R96, R312). -/
def runCommand (c : Byte) (s : State) : Host.Outcome State Fault Refusal :=
  match decodeByte c with
  | .ok i => exec i s
  | .error _ => .next (s.completeError .illegalCmd)

/-- The core agent's turn: the one enabled step of a pending command, or none when idle (R77, R324). -/
def coreTurn (s : State) : Host.Outcome State Fault Refusal :=
  match s.pending with
  | some c => runCommand c s
  | none => .next s

/-- Take one event of the environment from the state that no longer lists it. -/
def takeEvent (e : Event) (s : State) : Host.Outcome State Fault Refusal :=
  match e with
  | .host a => hostAccess a s
  | .core => coreTurn s
  | .reset => .next s.resetInput

/-- One step of the total order of R82: the next event, or, when the host has no access left, the core agent's turn, so
that a pending command is always taken after finitely many host accesses (R356). -/
def nextStep (s : State) : Host.Outcome State Fault Refusal :=
  match s.events with
  | e :: rest => takeEvent e { s with events := rest }
  | [] => coreTurn s

/-- The command byte `w` accepted and its core step next: what a host write to CMD and the scheduler's choice bring
about (R76, R356). -/
def State.issueNext (s : State) (c : Byte) : State := { s.accept c with events := .core :: s.events }

end Sys2Proof.Machine
end

