-- ==== Sys2Proof/Machine/Step.lean ====
section
/-! DEFINITION. One step of the machine, and how the host places one command before it. -/

namespace Sys2Proof.Machine

/-- One step: next state, fault or refusal. -/
def step (s : State) : Host.Outcome State Fault Refusal := nextStep s

/-- QR-CORE fetches nothing (R24, R84): the command byte is put where its core step takes it, accepted as R76 says and
next in the order of events. -/
def State.withFetchWord (s : State) (_nbits w : Nat) : State := s.issueNext (BitVec.ofNat 8 w)

end Sys2Proof.Machine
end

