-- ==== Sys2Proof/Machine/HostNotation.lean ====
section
/-! DEFINITION. The host assembly notation (R97, R98): what address a name stands for and what events a line expands to.
The number of polls a `wait` makes before the core step is the scheduler's choice (R99, R356), so it is an argument. -/

namespace Sys2Proof.Machine

/-- The bus address of a register (R71). -/
def regAddr : RegName → BusAddr
  | .id0 => 0x0000 | .id1 => 0x0001 | .rev => 0x0002 | .cmd => 0x0003 | .status => 0x0004 | .errcode => 0x0005
  | .stage => 0x0006 | .opa => 0x0008 | .opb => 0x0009 | .res => 0x000A | .k => 0x000B | .plen => 0x000C
  | .version => 0x000D | .lenLo => 0x000E | .lenHi => 0x000F | .size => 0x0010 | .nblk => 0x0011 | .ecpb => 0x0012
  | .ndataLo => 0x0013 | .ndataHi => 0x0014 | .ntotalLo => 0x0015 | .ntotalHi => 0x0016 | .bpNbits => 0x0017
  | .bpValLo => 0x0018 | .bpValHi => 0x0019 | .bpPosLo => 0x001A | .bpPosHi => 0x001B

/-- The base address of a buffer (R71). -/
def bufBase : BufName → Nat
  | .payload => payloadBase | .dcw => dcwBase | .poly => polyBase | .gen => genBase | .rem => remBase
  | .syn => synBase | .icw => icwBase | .ecw => ecwBase | .matrix => matrixBase

/-- The address a target names (R97). -/
def targetAddr : Target → BusAddr
  | .reg r => regAddr r
  | .buf b i => BitVec.ofNat 16 (bufBase b + i)
  | .addr a => a

/-- `MemRead(addr, 1)` as an event. -/
def rdEvent (t : Target) : Event := .host (.read 1 (targetAddr t))

/-- `MemWrite(addr, 1, v)` as an event. -/
def wrEvent (t : Target) (v : Byte) : Event := .host (.write 1 (targetAddr t) v)

/-- The low and high half of a 16-bit register (R98). -/
def pairHalves : PairReg → RegName × RegName
  | .len => (.lenLo, .lenHi)
  | .bpVal => (.bpValLo, .bpValHi)

/-- `wait` when `polls` reads of STATUS come before the core step: those reads, the step, the read that sees BUSY = 0. -/
def waitEvents (polls : Nat) : List Event := List.replicate polls (rdEvent (.reg .status)) ++ [.core, rdEvent (.reg .status)]

/-- The events of one host line (R97, R98). -/
def lineEvents (polls : Nat) : HostLine → List Event
  | .wr t v => [wrEvent t v]
  | .rd t => [rdEvent t]
  | .expect t _ => [rdEvent t]
  | .cmd i => [wrEvent (.reg .cmd) (encodeByte i)]
  | .wait => waitEvents polls
  | .run i => wrEvent (.reg .cmd) (encodeByte i) :: waitEvents polls
  | .wr16 r v =>
    [wrEvent (.reg (pairHalves r).1) (v.extractLsb' 0 8), wrEvent (.reg (pairHalves r).2) (v.extractLsb' 8 8)]
  | .wrbuf b i bytes => bytes.mapIdx fun j v => wrEvent (.buf b (i + j)) v
  | .expectbuf b i bytes => bytes.mapIdx fun j _ => rdEvent (.buf b (i + j))
  | .ok => [rdEvent (.reg .status)]
  | .fail _ => [rdEvent (.reg .status), rdEvent (.reg .errcode)]

/-- The claims of one host line: the read transactions that must stand in the trace, in order (R97, R98). -/
def lineClaims : HostLine → List Txn
  | .expect t v => [.r (targetAddr t) v]
  | .expectbuf b i bytes => bytes.mapIdx fun j v => .r (targetAddr (.buf b (i + j))) v
  | .ok => [.r (regAddr .status) 0x02]
  | .fail code => [.r (regAddr .status) 0x04, .r (regAddr .errcode) code]
  | .wr _ _ | .rd _ | .cmd _ | .wait | .run _ | .wr16 _ _ | .wrbuf _ _ _ => []

end Sys2Proof.Machine
end

