-- ==== Sys2Proof/Safety.lean ====
section
/-! DEFINITION. The terms claims are stated in: what is written, what a byte or a bit of DCW reads as, what a command
leaves alone, the invariant of the machine, and what counts as a safe run. -/

namespace Sys2Proof.Machine

/-- No command is pending (R26, R324). -/
def State.Idle (s : State) : Prop := s.pending = none

/-- The byte at RAM address `a`: the model's read of one byte. None is an unwritten byte (R60). -/
def State.byteAt (s : State) (a : Nat) : Option Byte := memRead s.mem a

/-- The `n` bytes from `base` are all written. -/
def State.Written (s : State) (base n : Nat) : Prop := ∀ i < n, (s.byteAt (base + i)).isSome

/-- The bytes from `base` are exactly `bytes`. -/
def State.Holds (s : State) (base : Nat) (bytes : List Byte) : Prop :=
  ∀ i (h : i < bytes.length), s.byteAt (base + i) = some bytes[i]

/-- Every cell of the `n × n` symbol is written. -/
def State.SymbolWritten (s : State) (n : Nat) : Prop := ∀ r < n, ∀ c < n, (s.byteAt (cellAddr r c)).isSome

/-- The cell at `(r, c)`; light and free where the byte is unwritten. -/
def State.cellAt (s : State) (r c : Nat) : ModuleCell := ModuleCell.ofByte ((s.byteAt (cellAddr r c)).getD 0x00)

/-- Every byte of RAM outside `p` reads in `t` as it reads in `s`. -/
def SameBytesOutside (p : Nat → Prop) (s t : State) : Prop := ∀ a, ¬ p a → t.byteAt a = s.byteAt a

/-- Stream bit `p` of DCW as far as it is written: a bit of a written byte, or a bit put on its own (R130). -/
def State.dcwBit (s : State) (p : Nat) : Option Bool :=
  match s.byteAt (dcwBase + p / 8) with
  | some b => some (b.getLsbD (7 - p % 8))
  | none => memRead s.dcwBits p

/-- The state a successful command leaves of `s` when `t` gives what it wrote (R310). -/
def State.Done (t : State) : Prop := t.done = true ∧ t.err = false ∧ t.errcode = 0x00 ∧ t.pending = none

/-- What a failing command leaves of `s` (R310, R311). -/
def State.failed (s : State) (code : Byte) : State :=
  { s with done := false, err := true, errcode := code, pending := none }

/-- `s` and `t` are the same machine: they differ at most in what the environment keeps. -/
def SameMachine (s t : State) : Prop := t = { s with events := t.events, trace := t.trace, draws := t.draws }

/-- The first failing check of a command, as the code it raises, by the orders of R313 with the causes of R312; none when
every check passes. The capacities are the numbers of R122. -/
def firstFailingCheck (i : Instr) (s : State) : Option Byte :=
  let badLen := s.plen.toNat = 0
  let badK := s.k.toNat = 0 ∨ 64 < s.k.toNat
  let badVersion := s.ver = 0 ∨ 10 < s.ver
  let versionOnly := if badVersion then some 0x06#8 else none
  match i with
  | .nop | .gfAdd | .gfMul | .gfExp | .bpClear => none
  | .gfInv | .gfLog => if s.opa = 0x00 then some 0x02 else none
  | .polyEval => if badLen then some 0x03 else none
  | .rsGenpoly => if badK then some 0x04 else none
  | .rsEncode | .rsSyndrome => if badK then some 0x04 else if badLen then some 0x03 else none
  | .bpPut =>
    if s.bpNbits.toNat = 0 ∨ 16 < s.bpNbits.toNat then some 0x08
    else if 4096 < s.bpPos.toNat + s.bpNbits.toNat then some 0x07 else none
  | .selectVersion | .generate => if 271 < s.len then some 0x05 else none
  | .encodeStream =>
    if badVersion then some 0x06
    else if [17, 32, 53, 78, 106, 134, 154, 192, 230, 271].getD (s.ver - 1) 0 < s.len then some 0x05 else none
  | .rsBlocks | .interleave | .matrixInit | .placeData | .applyMask | .writeFormat => versionOnly

/-- The carry-less product of `a` and `b` reduced modulo `0x11D`, bit by bit: the field product with no table (R155). -/
def carrylessMul (a b : Byte) : Byte :=
  (List.range 8).foldl (fun acc i => if b.getLsbD (7 - i) then xtime acc ^^^ a else xtime acc) 0x00
where
  /-- Multiply by `x`: shift left, and reduce by `0x11D` when bit 8 comes out (R150). -/
  xtime (t : Byte) : Byte := if t.getLsbD 7 then (t <<< 1) ^^^ 0x1D else t <<< 1

/-- `x^e` in GF(256). -/
def gfpow (x : Byte) : Nat → Byte
  | 0 => 0x01
  | e + 1 => gfmul (gfpow x e) x

/-- `Σ_j p[j] ⊗ x^(N−1−j)` (R162). -/
def powerSum (x : Byte) : List Byte → Byte
  | [] => 0x00
  | c :: p => gfadd (gfmul c (gfpow x p.length)) (powerSum x p)

/-- The count field and the payload as bytes: the `S` of R137. -/
def countedPayload (v : Nat) (payload : List Byte) : List Byte :=
  if v ≤ 9 then loByte payload.length :: payload else hiByte payload.length :: loByte payload.length :: payload

/-- Data codeword `k` of the stream whose counted payload is `S` (R137). -/
def encodedByte (S : List Byte) (k : Nat) : Byte :=
  let m := S.length
  if k = 0 then 0x40 ||| (S.getD 0 0 >>> 4)
  else if k < m then ((S.getD (k - 1) 0 &&& 0x0F) <<< 4) ||| (S.getD k 0 >>> 4)
  else if k = m then (S.getD (m - 1) 0 &&& 0x0F) <<< 4
  else if (k - m - 1) % 2 = 0 then 0xEC else 0x11

/-- A finder or separator cell at distance `d` from the finder's centre (R223). -/
def ringByte (d : Nat) : Byte := if d ≤ 1 ∨ d = 3 then 0x03 else 0x02

/-- The byte of cell `(r, c)` of the structural matrix of version `v`, read off R222-R230 region by region. -/
def structByte (v r c : Nat) : Byte :=
  let n := 4 * v + 17
  let centres := (alignCentres v).flatMap fun cr => (alignCentres v).map fun cc => (cr, cc)
  let placed := centres.filter fun p => !(p == (6, 6) || p == (6, n - 7) || p == (n - 7, 6))
  if n ≤ r ∨ n ≤ c then 0x00
  else if r < 8 ∧ c < 8 then ringByte (max (dist r 3) (dist c 3))
  else if r < 8 ∧ n - 8 ≤ c then ringByte (max (dist r 3) (dist c (n - 4)))
  else if n - 8 ≤ r ∧ c < 8 then ringByte (max (dist r (n - 4)) (dist c 3))
  else
    match placed.find? fun p => dist r p.1 ≤ 2 && dist c p.2 ≤ 2 with
    | some p => if max (dist r p.1) (dist c p.2) = 1 then 0x02 else 0x03
    | none =>
      if r = 6 then (if c % 2 = 0 then 0x03 else 0x02)
      else if c = 6 then (if r % 2 = 0 then 0x03 else 0x02)
      else if r = n - 8 ∧ c = 8 then 0x03
      else if (r = 8 ∧ (c ≤ 8 ∨ n - 8 ≤ c)) ∨ (c = 8 ∧ (r ≤ 8 ∨ n - 7 ≤ r)) then 0x02
      else if 7 ≤ v ∧ ((r ≤ 5 ∧ n - 11 ≤ c ∧ c ≤ n - 9) ∨ (n - 11 ≤ r ∧ r ≤ n - 9 ∧ c ≤ 5)) then 0x02
      else 0x00

/-- The column pair a column of an `n × n` symbol belongs to, counted from the right, column 6 left out (R262). -/
def pairIndex (n c : Nat) : Nat := if 6 < c then (n - 1 - c) / 2 else (n - 2 - c) / 2

/-- Where `(r, c)` stands in the zig-zag order: by column pair, then by row in the pair's direction (upward in even
pairs), then the right column before the left (R262). -/
def zigzagRank (n : Nat) (p : Nat × Nat) : Nat :=
  let i := pairIndex n p.2
  let row := if i % 2 = 0 then n - 1 - p.1 else p.1
  let left := if 6 < p.2 then p.2 % 2 else (p.2 + 1) % 2
  2 * n * i + 2 * row + left

/-- Stream bit `i` of a codeword list: bit `7 − (i mod 8)` of codeword `i div 8` (R261). -/
def streamBit (codewords : List Byte) (i : Nat) : Bool := (codewords.getD (i / 8) 0).getLsbD (7 - i % 8)

/-- Issue a command to the idle machine and take its core step: acceptance, then the command's rule (R76, R77). -/
def issue (i : Instr) (s : State) : Host.Outcome State Fault Refusal := exec i (s.accept (encodeByte i))

/-- Issue commands one after another, with no host write between them; the first stop ends the run (R114). -/
def issueAll : List Instr → State → Host.Outcome State Fault Refusal
  | [], s => .next s
  | i :: is, s =>
    match issue i s with
    | .next t => issueAll is t
    | .fault f => .fault f
    | .refused r => .refused r

/-- The eight stages of the pipeline, in order (R114). -/
def pipelineStages : List Instr :=
  [.selectVersion, .encodeStream, .rsBlocks, .interleave, .matrixInit, .placeData, .applyMask, .writeFormat]

/-- The bytes GENERATE writes when version `v` is selected (R111). -/
def GenerateWrites (v : Nat) (a : Nat) : Prop :=
  (dcwBase ≤ a ∧ a < dcwBase + ndata v) ∨ (genBase ≤ a ∧ a ≤ genBase + ecpb v) ∨
  (∃ b < nblk v, ∃ j < ecpb v, a = ecwAddr b j) ∨ (icwBase ≤ a ∧ a < icwBase + ntotal v) ∨
  (matrixBase ≤ a ∧ a < matrixBase + 4096)

/-- The invariant every step keeps.
* memory is canonical and lists RAM addresses only;
* a MATRIX cell holds only its DARK and RSV bits (R57);
* the separate DCW bits are canonical, lie in DCW, belong to bytes not written whole and are fewer than 8 a byte (R130);
* BP_POS is at most 4096 (R43), STAGE and ERRCODE at most 8 (R32, R31);
* DONE and ERR are never both set (R28), ERRCODE is nonzero exactly when ERR is set (R310);
* while a command is pending both are clear, ERRCODE is zero and CMD reads the pending byte (R76). -/
structure State.Inv (s : State) : Prop where
  memWf : s.mem.wf = true
  cellBits : ∀ a b, s.byteAt a = some b → matrixBase ≤ a → b.toNat < 4
  bitsRise : risingFrom 0 s.dcwBits = true
  bitsInDcw : ∀ e ∈ s.dcwBits, e.1 < Config.dcwBits
  bitsApart : ∀ i, (s.byteAt (dcwBase + i)).isSome → bitsIn i s.dcwBits = []
  bitsFew : ∀ i, (bitsIn i s.dcwBits).length < 8
  posRange : s.bpPos.toNat ≤ Config.dcwBits
  stageRange : s.stage.toNat ≤ 8
  errcodeRange : s.errcode.toNat ≤ 8
  notBoth : ¬(s.done = true ∧ s.err = true)
  errCoded : s.err = true ↔ s.errcode ≠ 0x00
  pendingClear : ∀ c, s.pending = some c → s.done = false ∧ s.err = false ∧ s.lastCmd = c

/-- The machine takes `n` steps from `s` and stops at none of them. -/
def SafeRun (n : Nat) (s : State) : Prop := ∃ t, Sys2Proof.core.run n s = .next t

end Sys2Proof.Machine
end

