-- ==== Sys2Proof/Certificates/Slice0/Obligations.lean ====
section
/-! DEFINITION. The statements for the provers, in the order of OBLIGATIONS.json. Each docstring names the rule of spec/ the
statement formalises. A successful command's effect is written as a next state: the named fields and bytes change, every
other field stands in the record update and every other byte is in the frame clause. -/

open Sys2Proof Sys2Proof.Machine

/-! ### Encoding and the step -/

/-- R94: a command byte names a command exactly when it is that command's code, codes are not shared, and decoding the
encoded command gives it back with the rest of the bytes untouched. -/
def Obligations.DecodeIsExactMatch : Prop :=
  (∀ (c : Byte) (i : Instr), decodeByte c = .ok i ↔ c = encodeByte i) ∧
  (∀ i j : Instr, encodeByte i = encodeByte j → i = j) ∧
  (∀ (i : Instr) (rest : List Byte), i.wellFormed = true → decode (encode i ++ rest) = .ok (i, rest))

/-- The words of the command map, bit by bit from the opcode table's encodings (R93), decode to their commands. -/
def Obligations.DecodeOfTableWords : Prop :=
  decodeByte 0b00000000#8 = .ok .nop ∧ decodeByte 0b00010000#8 = .ok .gfAdd ∧ decodeByte 0b00010001#8 = .ok .gfMul ∧
  decodeByte 0b00010010#8 = .ok .gfInv ∧ decodeByte 0b00010011#8 = .ok .gfExp ∧ decodeByte 0b00010100#8 = .ok .gfLog ∧
  decodeByte 0b00010101#8 = .ok .polyEval ∧ decodeByte 0b00100000#8 = .ok .rsGenpoly ∧
  decodeByte 0b00100001#8 = .ok .rsEncode ∧ decodeByte 0b00100010#8 = .ok .rsSyndrome ∧
  decodeByte 0b00110000#8 = .ok .bpClear ∧ decodeByte 0b00110001#8 = .ok .bpPut ∧
  decodeByte 0b00110010#8 = .ok .selectVersion ∧ decodeByte 0b00110011#8 = .ok .encodeStream ∧
  decodeByte 0b01000000#8 = .ok .rsBlocks ∧ decodeByte 0b01000001#8 = .ok .interleave ∧
  decodeByte 0b01010000#8 = .ok .matrixInit ∧ decodeByte 0b01010001#8 = .ok .placeData ∧
  decodeByte 0b01010010#8 = .ok .applyMask ∧ decodeByte 0b01100000#8 = .ok .writeFormat ∧
  decodeByte 0b01110000#8 = .ok .generate

/-- R96: the listed codes and no others name no command; one is accepted like any command, and its core step changes only
the completion state, with ILLEGAL_CMD. -/
def Obligations.IllegalCodeCompletesWithError : Prop :=
  ∀ (c : Byte) (s : State),
    (((0x01 ≤ c.toNat ∧ c.toNat ≤ 0x0F) ∨ (0x16 ≤ c.toNat ∧ c.toNat ≤ 0x1F) ∨ (0x23 ≤ c.toNat ∧ c.toNat ≤ 0x2F) ∨
      (0x34 ≤ c.toNat ∧ c.toNat ≤ 0x3F) ∨ (0x42 ≤ c.toNat ∧ c.toNat ≤ 0x4F) ∨ (0x53 ≤ c.toNat ∧ c.toNat ≤ 0x5F) ∨
      (0x61 ≤ c.toNat ∧ c.toNat ≤ 0x6F) ∨ (0x71 ≤ c.toNat ∧ c.toNat ≤ 0xFF)) ↔ ∀ i, decodeByte c ≠ .ok i) ∧
    ((∀ i, decodeByte c ≠ .ok i) →
      (s.pending = none → hostWrite 0x0003 c s =
        { s with lastCmd := c, done := false, err := false, errcode := 0x00, pending := some c,
                 trace := .w 0x0003 c :: s.trace }) ∧
      runCommand c s = .next { s with done := false, err := true, errcode := 0x01, pending := none })

/-- R77: when the pending byte names command `i` and the core step is next in the order of events, or the host has no
access left, a step of the machine is the command's step; `step` adds nothing but taking the event off the list. -/
def Obligations.StepRunsPendingCommand : Prop :=
  ∀ (s : State) (c : Byte) (i : Instr), s.pending = some c → decodeByte c = .ok i →
    (s.events = [] → step s = exec i s) ∧
    (∀ rest, s.events = .core :: rest → step s = exec i { s with events := rest })

/-- The model's placing of a command (log entry 5): after `withFetchWord` the very next step is the placed command's step,
at the state in which R76 accepted its byte. -/
def Obligations.PlacedCommandIsNextStep : Prop :=
  ∀ (s : State) (w : Nat) (i : Instr), decodeTableWord 8 w = some i →
    step (s.withFetchWord 8 w) =
      exec i { s with lastCmd := encodeByte i, done := false, err := false, errcode := 0x00,
                      pending := some (encodeByte i) }

/-- R324, R77: an idle machine changes no state on its own; without a host access its step is the state it was in, and a
core step offered to it only leaves the list of events. -/
def Obligations.IdleMachineStandsStill : Prop :=
  ∀ s : State, s.pending = none →
    (s.events = [] → step s = .next s) ∧
    (∀ rest, s.events = .core :: rest → step s = .next { s with events := rest })

/-! ### Reset -/

/-- R61: what the host finds after reset at every register address, the pending slot, and RAM with no value anywhere. -/
def Obligations.ResetValues : Prop :=
  State.reset.pending = none ∧ (∀ a, State.reset.byteAt a = none) ∧ State.reset.dcwBits = [] ∧
  State.reset.readIdle 0x0000 = .ok 0x51 ∧ State.reset.readIdle 0x0001 = .ok 0x52 ∧
  State.reset.readIdle 0x0002 = .ok 0x01 ∧
  (∀ a : BusAddr, 0x0003 ≤ a.toNat → a.toNat < 0x0200 → State.reset.readIdle a = .ok 0x00) ∧
  (∀ a : BusAddr, 0x0200 ≤ a.toNat → a.toNat < 0x0A80 → State.reset.readIdle a = .error (.unwrittenRead a.toNat)) ∧
  (∀ a : BusAddr, 0x1000 ≤ a.toNat → a.toNat < 0x2000 → State.reset.readIdle a = .error (.unwrittenRead a.toNat))

/-- R340: the reset input puts every piece of the machine's state into its reset value, whatever was pending. The three
fields that are the model's own (events, trace, draws: log entries 1 and 2) belong to the environment and stay. -/
def Obligations.ResetInputResetsEverything : Prop :=
  ∀ (s : State) (rest : List Event), s.events = .reset :: rest →
    step s = .next { State.reset with events := rest, trace := s.trace, draws := s.draws }

/-! ### The host bus -/

/-- R75: what a host write does while no command is pending, for every address of the window. -/
def Obligations.IdleWriteEffects : Prop :=
  ∀ (s : State) (a : BusAddr) (v : Byte) (rest : List Event), s.mem.wf = true → s.pending = none →
    s.events = .host (.write 1 a v) :: rest →
    ∃ t, step s = .next t ∧
      let base := { s with events := rest, trace := .w a v :: s.trace }
      (a = 0x0008 → t = { base with opa := v }) ∧ (a = 0x0009 → t = { base with opb := v }) ∧
      (a = 0x000B → t = { base with k := v }) ∧ (a = 0x000C → t = { base with plen := v }) ∧
      (a = 0x000D → t = { base with version := v }) ∧ (a = 0x000E → t = { base with lenLo := v }) ∧
      (a = 0x000F → t = { base with lenHi := v }) ∧ (a = 0x0017 → t = { base with bpNbits := v }) ∧
      (a = 0x0018 → t = { base with bpValLo := v }) ∧ (a = 0x0019 → t = { base with bpValHi := v }) ∧
      ((0x0200 ≤ a.toNat ∧ a.toNat < 0x0700) ∨ (0x0800 ≤ a.toNat ∧ a.toNat < 0x0A80) →
        t = { base with mem := t.mem, dcwBits := t.dcwBits } ∧ t.byteAt a.toNat = some v ∧
        (∀ b, b ≠ a.toNat → t.byteAt b = s.byteAt b) ∧
        (∀ p, dcwBase + p / 8 ≠ a.toNat → memRead t.dcwBits p = memRead s.dcwBits p)) ∧
      (a = 0x0003 →
        t = { base with lastCmd := v, done := false, err := false, errcode := 0x00, pending := some v }) ∧
      (a = 0x0004 → t = { base with wign := s.wign && !v.getLsbD 3 }) ∧
      (a.toNat < 0x0003 ∨ (0x0005 ≤ a.toNat ∧ a.toNat < 0x0008) ∨ a = 0x000A ∨
        (0x0010 ≤ a.toNat ∧ a.toNat < 0x0017) ∨ (0x001A ≤ a.toNat ∧ a.toNat < 0x0200) ∨
        (0x0700 ≤ a.toNat ∧ a.toNat < 0x0800) ∨ 0x0A80 ≤ a.toNat → t = base)

/-- R76: accepting a command, with every byte value, changes LASTCMD, DONE, ERR, ERRCODE and the pending slot and nothing
else. -/
def Obligations.AcceptingACommand : Prop :=
  ∀ (s : State) (v : Byte) (rest : List Event), s.pending = none → s.events = .host (.write 1 0x0003 v) :: rest →
    step s = .next { s with lastCmd := v, done := false, err := false, errcode := 0x00, pending := some v,
                            events := rest, trace := .w 0x0003 v :: s.trace }

/-- R79: a host write while a command is pending, to any address, changes no byte, accepts nothing and sets WIGN. -/
def Obligations.PendingWriteIsIgnored : Prop :=
  ∀ (s : State) (c : Byte) (a : BusAddr) (v : Byte) (rest : List Event), s.pending = some c →
    s.events = .host (.write 1 a v) :: rest →
    step s = .next { s with wign := true, events := rest, trace := .w a v :: s.trace }

/-- R78: what a host read returns while no command is pending, for every address of the window; an unwritten byte is the
fault R60 asks for. The read changes nothing but the record of transactions. -/
def Obligations.IdleReadValues : Prop :=
  ∀ (s : State) (a : BusAddr) (rest : List Event), s.pending = none → s.events = .host (.read 1 a) :: rest →
    let answers := fun b : Byte => step s = .next { s with events := rest, trace := .r a b :: s.trace }
    (a = 0x0000 → answers 0x51) ∧ (a = 0x0001 → answers 0x52) ∧ (a = 0x0002 → answers 0x01) ∧
    (a = 0x0003 → answers s.lastCmd) ∧ (a = 0x0004 → answers s.status) ∧ (a = 0x0005 → answers s.errcode) ∧
    (a = 0x0006 → answers s.stage) ∧ (a = 0x0008 → answers s.opa) ∧ (a = 0x0009 → answers s.opb) ∧
    (a = 0x000A → answers s.res) ∧ (a = 0x000B → answers s.k) ∧ (a = 0x000C → answers s.plen) ∧
    (a = 0x000D → answers s.version) ∧ (a = 0x000E → answers s.lenLo) ∧ (a = 0x000F → answers s.lenHi) ∧
    (a = 0x0010 → answers s.sizeReadout) ∧ (a = 0x0011 → answers (loByte (nblk s.ver))) ∧
    (a = 0x0012 → answers (loByte (ecpb s.ver))) ∧ (a = 0x0013 → answers (loByte (ndata s.ver))) ∧
    (a = 0x0014 → answers (hiByte (ndata s.ver))) ∧ (a = 0x0015 → answers (loByte (ntotal s.ver))) ∧
    (a = 0x0016 → answers (hiByte (ntotal s.ver))) ∧ (a = 0x0017 → answers s.bpNbits) ∧
    (a = 0x0018 → answers s.bpValLo) ∧ (a = 0x0019 → answers s.bpValHi) ∧
    (a = 0x001A → answers (s.bpPos.extractLsb' 0 8)) ∧
    (a = 0x001B → answers ((s.bpPos.extractLsb' 8 5).zeroExtend 8)) ∧
    ((0x0200 ≤ a.toNat ∧ a.toNat < 0x0A80) →
      (∀ b, s.byteAt a.toNat = some b → answers b) ∧
      (s.byteAt a.toNat = none → step s = .fault (.unwrittenRead a.toNat))) ∧
    ((0x1000 ≤ a.toNat ∧ a.toNat < 0x2000) →
      (∀ b, s.byteAt a.toNat = some b → answers (b &&& 0x03)) ∧
      (s.byteAt a.toNat = none → step s = .fault (.unwrittenRead a.toNat))) ∧
    (a = 0x0007 ∨ (0x001C ≤ a.toNat ∧ a.toNat < 0x0200) ∨ (0x0A80 ≤ a.toNat ∧ a.toNat < 0x1000) ∨
      0x2000 ≤ a.toNat → answers 0x00)

/-- R80: while a command is pending ID0, ID1, REV, CMD, STATUS and ERRCODE read true; a read of any other address returns
a free byte, whatever that address holds, and changes no state of the machine (the count of draws is the model's own). -/
def Obligations.PendingReadValues : Prop :=
  ∀ (s : State) (c : Byte) (a : BusAddr) (rest : List Event), s.pending = some c →
    s.events = .host (.read 1 a) :: rest →
    let answers := fun b : Byte => step s = .next { s with events := rest, trace := .r a b :: s.trace }
    (a = 0x0000 → answers 0x51) ∧ (a = 0x0001 → answers 0x52) ∧ (a = 0x0002 → answers 0x01) ∧
    (a = 0x0003 → answers s.lastCmd) ∧ (a = 0x0004 → answers s.status) ∧ (a = 0x0005 → answers s.errcode) ∧
    (0x0006 ≤ a.toNat →
      step s = .next { s with events := rest, trace := .r a (Config.pendingRead s.draws) :: s.trace,
                              draws := s.draws + 1 })

/-- R81, R84: a read never changes the machine, and while a command is pending no host access changes anything but WIGN:
what the command reads at its core step is what stood at its acceptance. -/
def Obligations.HostAccessesLeaveOperandsAlone : Prop :=
  (∀ (s t : State) (w : Nat) (a : BusAddr) (rest : List Event), s.events = .host (.read w a) :: rest →
    step s = .next t → SameMachine s t) ∧
  (∀ (s t : State) (c : Byte) (x : Access) (rest : List Event), s.pending = some c → s.events = .host x :: rest →
    step s = .next t → SameMachine { s with wign := t.wign } t)

/-- R72: an access of a width other than one byte is refused by name, a one-byte write never is, and a one-byte read is
answered or faults on an unwritten byte. -/
def Obligations.OtherWidthsRefused : Prop :=
  (∀ (s : State) (w : Nat) (a : BusAddr) (v : Byte) (rest : List Event), w ≠ 1 →
    (s.events = .host (.read w a) :: rest → step s = .refused (.accessWidth w)) ∧
    (s.events = .host (.write w a v) :: rest → step s = .refused (.accessWidth w))) ∧
  (∀ (s : State) (a : BusAddr) (v : Byte) (rest : List Event),
    (s.events = .host (.write 1 a v) :: rest → ∃ t, step s = .next t) ∧
    (s.events = .host (.read 1 a) :: rest → (∃ t, step s = .next t) ∨ step s = .fault (.unwrittenRead a.toNat)))

/-- R355, R60: each of these reads an unwritten byte, so the step faults at one (PLACE_DATA at an unwritten cell of the
symbol, or at an unwritten byte of `ICW[0..NTOTAL−1]`, R260), and WRITE_FORMAT, which reads no cell, never faults. -/
def Obligations.UnwrittenInputsFault : Prop :=
  ∀ s : State, s.mem.wf = true →
    let faults := fun i : Instr => ∃ a, exec i s = .fault (.unwrittenRead a) ∧ s.byteAt a = none
    (1 ≤ s.ver → s.ver ≤ 10 → ¬ s.SymbolWritten (side s.ver) → faults .placeData ∧ faults .applyMask) ∧
    (1 ≤ s.ver → s.ver ≤ 10 → ¬ s.Written icwBase (ntotal s.ver) → faults .placeData) ∧
    (1 ≤ s.ver → s.ver ≤ 10 → (∃ b < nblk s.ver, ∃ j < ecpb s.ver, s.byteAt (ecwAddr b j) = none) →
      faults .interleave) ∧
    (1 ≤ s.ver → s.ver ≤ 10 → ¬ s.Written dcwBase (ndata s.ver) → faults .rsBlocks ∧ faults .interleave) ∧
    (s.plen ≠ 0x00 → ¬ s.Written polyBase s.plen.toNat →
      faults .polyEval ∧ (1 ≤ s.k.toNat → s.k.toNat ≤ 64 → faults .rsEncode ∧ faults .rsSyndrome)) ∧
    (s.len ≤ 271 → ¬ s.Written payloadBase s.len →
      faults .generate ∧ (1 ≤ s.ver → s.ver ≤ 10 → s.len ≤ maxLen s.ver → faults .encodeStream)) ∧
    (∀ f, exec .writeFormat s ≠ .fault f)

/-! ### Status and errors -/

/-- R25, R26: the STATUS byte, field by field; BUSY is 1 exactly when the pending slot holds a command. -/
def Obligations.StatusByteFields : Prop :=
  ∀ s : State,
    (s.status.getLsbD 0 = true ↔ s.pending ≠ none) ∧ s.status.getLsbD 1 = s.done ∧ s.status.getLsbD 2 = s.err ∧
    s.status.getLsbD 3 = s.wign ∧ (∀ i, 4 ≤ i → s.status.getLsbD i = false)

/-- R30: reserved bits read 0 and a write to them has no effect: STATUS 7:4, BP_POS_HI 7:5 and MATRIX cell bits 7:2. -/
def Obligations.ReservedBitsReadZero : Prop :=
  ∀ (s : State) (b : Byte),
    (s.readIdle 0x0004 = .ok b → ∀ i, 4 ≤ i → b.getLsbD i = false) ∧
    (s.readIdle 0x001B = .ok b → ∀ i, 5 ≤ i → b.getLsbD i = false) ∧
    (∀ a : BusAddr, 0x1000 ≤ a.toNat → a.toNat < 0x2000 → s.readIdle a = .ok b → ∀ i, 2 ≤ i → b.getLsbD i = false) ∧
    (s.pending = none → b.getLsbD 3 = false → hostWrite 0x0004 b s = { s with trace := .w 0x0004 b :: s.trace }) ∧
    (s.pending = none → hostWrite 0x001B b s = { s with trace := .w 0x001B b :: s.trace }) ∧
    (∀ a : BusAddr, 0x1000 ≤ a.toNat → a.toNat < 0x2000 → s.pending = none →
      hostWrite a b s = { s with trace := .w a b :: s.trace })

/-- R29: WIGN is set by every host write ignored because a command is pending, cleared by a write of 1 to its bit while
idle and by nothing else a write does; the other bits written to STATUS are ignored, and acceptance leaves WIGN. -/
def Obligations.WignSetAndCleared : Prop :=
  ∀ (s : State) (v : Byte),
    (∀ a, s.pending ≠ none → (hostWrite a v s).wign = true) ∧
    (s.pending = none → v.getLsbD 3 = true →
      hostWrite 0x0004 v s = { s with wign := false, trace := .w 0x0004 v :: s.trace }) ∧
    (s.pending = none → v.getLsbD 3 = false → hostWrite 0x0004 v s = { s with trace := .w 0x0004 v :: s.trace }) ∧
    (∀ a, s.pending = none → a ≠ 0x0004 → (hostWrite a v s).wign = s.wign) ∧
    (s.accept v).wign = s.wign

/-- R310: every core step ends in exactly one of two ways; WIGN and LASTCMD stay, and between acceptance and completion
DONE, ERR and ERRCODE are clear and BUSY is set. -/
def Obligations.CompletionRule : Prop :=
  (∀ (s t : State) (c : Byte), runCommand c s = .next t →
    t.pending = none ∧ t.wign = s.wign ∧ t.lastCmd = s.lastCmd ∧
    ((t.done = true ∧ t.err = false ∧ t.errcode = 0x00) ∨
     (t.done = false ∧ t.err = true ∧ 0x01 ≤ t.errcode.toNat ∧ t.errcode.toNat ≤ 0x08))) ∧
  (∀ (s : State) (c : Byte), s.pending = none →
    let t := hostWrite 0x0003 c s
    t.done = false ∧ t.err = false ∧ t.errcode = 0x00 ∧ t.busy = true)

/-- R311: a command that raises leaves every register, buffer and cell as it was at acceptance, apart from GENERATE's
`STAGE <- 0` and the completion state. -/
def Obligations.RaiseLeavesStateAsItWas : Prop :=
  ∀ (s t : State) (i : Instr), exec i s = .next t → t.err = true →
    t = { s with done := false, err := true, errcode := t.errcode, pending := none,
                 stage := if i = .generate then 0x00 else s.stage }

/-- R313 with the causes of R312: a command reports the first failing check, in its order, and no error when every check
passes; a code that names no command reports ILLEGAL_CMD. -/
def Obligations.FirstFailingCheckIsReported : Prop :=
  ∀ (s : State) (i : Instr),
    (∀ c, (∀ j, decodeByte c ≠ .ok j) →
      runCommand c s = .next { s with done := false, err := true, errcode := 0x01, pending := none }) ∧
    (∀ c, firstFailingCheck i s = some c →
      exec i s = .next { s with done := false, err := true, errcode := c, pending := none,
                                stage := if i = .generate then 0x00 else s.stage }) ∧
    (firstFailingCheck i s = none → ∀ t, exec i s = .next t → t.err = false ∧ t.errcode = 0x00)

/-! ### Control and GF(256) -/

/-- R110: NOP changes the completion state and nothing else. -/
def Obligations.NopChangesOnlyCompletion : Prop :=
  ∀ s : State, exec .nop s = .next { s with done := true, err := false, errcode := 0x00, pending := none }

/-- R156: GF_ADD writes the exclusive or of its operands to RES, and nothing else. -/
def Obligations.GfAddResult : Prop :=
  ∀ s : State, exec .gfAdd s =
    .next { s with res := s.opa ^^^ s.opb, done := true, err := false, errcode := 0x00, pending := none }

/-- R157, R153: GF_MUL writes the table product of its operands to RES, 0 when one is 0, and nothing else. -/
def Obligations.GfMulResult : Prop :=
  ∀ s : State, exec .gfMul s =
    .next { s with res := if s.opa = 0x00 ∨ s.opb = 0x00 then 0x00 else expAt ((logAt s.opa + logAt s.opb) % 255),
                   done := true, err := false, errcode := 0x00, pending := none }

/-- R155: the laws of the arithmetic, the last of which ties the table product to the carry-less product modulo `0x11D`. -/
def Obligations.GfArithmeticLaws : Prop :=
  ∀ a b c : Byte,
    gfmul a b = gfmul b a ∧ gfmul (gfmul a b) c = gfmul a (gfmul b c) ∧
    gfmul a (b ^^^ c) = gfmul a b ^^^ gfmul a c ∧ gfmul a 0x01 = a ∧ gfmul a 0x00 = 0x00 ∧
    (a ≠ 0x00 → gfmul a (gfinv a) = 0x01) ∧ gfmul a b = carrylessMul a b

/-- R158: GF_INV writes the inverse of OPA to RES, the byte whose product with OPA is 1, and nothing else; OPA = 0 is
GF_ZERO with RES unchanged. -/
def Obligations.GfInvResult : Prop :=
  ∀ s : State,
    (s.opa ≠ 0x00 → ∃ r, gfmul s.opa r = 0x01 ∧ r = expAt (255 - logAt s.opa) ∧
      exec .gfInv s = .next { s with res := r, done := true, err := false, errcode := 0x00, pending := none }) ∧
    (s.opa = 0x00 →
      exec .gfInv s = .next { s with done := false, err := true, errcode := 0x02, pending := none })

/-- R159, R150: GF_EXP writes EXP[OPA] to RES, where EXP is the sequence of R150. -/
def Obligations.GfExpResult : Prop :=
  (expAt 0 = 0x01 ∧ ∀ i, i < 255 → expAt (i + 1) =
    if (expAt i).getLsbD 7 then (expAt i <<< 1) ^^^ 0x1D else expAt i <<< 1) ∧
  ∀ s : State, exec .gfExp s =
    .next { s with res := expAt s.opa.toNat, done := true, err := false, errcode := 0x00, pending := none }

/-- R160, R151: GF_LOG writes LOG[OPA] to RES, the one exponent of 0 to 254 whose antilog is OPA; OPA = 0 is GF_ZERO. -/
def Obligations.GfLogResult : Prop :=
  ∀ s : State,
    (s.opa ≠ 0x00 → ∃ l : Byte, l.toNat ≤ 254 ∧ expAt l.toNat = s.opa ∧
      (∀ i, i ≤ 254 → expAt i = s.opa → i = l.toNat) ∧
      exec .gfLog s = .next { s with res := l, done := true, err := false, errcode := 0x00, pending := none }) ∧
    (s.opa = 0x00 →
      exec .gfLog s = .next { s with done := false, err := true, errcode := 0x02, pending := none })

/-- R161: POLY_EVAL writes the value at OPA of the polynomial in POLY[0..PLEN−1] to RES, and nothing else; PLEN = 0 is
BAD_LEN with RES unchanged. -/
def Obligations.PolyEvalResult : Prop :=
  ∀ s : State, s.mem.wf = true →
    (∀ p : List Byte, p.length = s.plen.toNat → s.plen ≠ 0x00 → s.Holds polyBase p →
      exec .polyEval s =
        .next { s with res := polyeval p s.opa, done := true, err := false, errcode := 0x00, pending := none }) ∧
    (s.plen = 0x00 →
      exec .polyEval s = .next { s with done := false, err := true, errcode := 0x03, pending := none })

/-- R162: Horner's rule gives `Σ_j p[j] ⊗ x^(N−1−j)`; at 0 the constant term, at 1 the exclusive or of the
coefficients. -/
def Obligations.HornerIsThePowerSum : Prop :=
  ∀ (p : List Byte) (x : Byte),
    polyeval p x = powerSum x p ∧ polyeval p 0x00 = p.getLastD 0x00 ∧
    polyeval p 0x01 = p.foldl (fun acc c => acc ^^^ c) 0x00

/-! ### Reed–Solomon -/

/-- R183: RS_GENPOLY writes the generator polynomial of degree K to GEN[0..K], and nothing else; an illegal K is BAD_K. -/
def Obligations.RsGenpolyResult : Prop :=
  ∀ s : State, s.mem.wf = true →
    (1 ≤ s.k.toNat → s.k.toNat ≤ 64 →
      ∃ t, exec .rsGenpoly s = .next t ∧
        t = { s with mem := t.mem, done := true, err := false, errcode := 0x00, pending := none } ∧
        (genpoly s.k.toNat).length = s.k.toNat + 1 ∧ t.Holds genBase (genpoly s.k.toNat) ∧
        SameBytesOutside (fun a => genBase ≤ a ∧ a ≤ genBase + s.k.toNat) s t) ∧
    (s.k.toNat = 0 ∨ 64 < s.k.toNat →
      exec .rsGenpoly s = .next { s with done := false, err := true, errcode := 0x04, pending := none })

/-- R180: the generator polynomial of degree k has k + 1 coefficients, the first 1 and the last `α^(0+1+...+(k−1))`, which
is not 0, and every `α^i` with i below k is a root of it. -/
def Obligations.GenpolyRootsAndEnds : Prop :=
  ∀ k : Nat, 1 ≤ k → k ≤ 64 →
    (genpoly k).length = k + 1 ∧ (genpoly k).head? = some 0x01 ∧
    (genpoly k).getLast? = some (expAt (k * (k - 1) / 2 % 255)) ∧ expAt (k * (k - 1) / 2 % 255) ≠ 0x00 ∧
    ∀ i, i < k → polyeval (genpoly k) (expAt i) = 0x00

/-- R184: RS_ENCODE writes the generator polynomial to GEN[0..K] and the remainder of the data block in POLY to
REM[0..K−1], and nothing else; BAD_K comes before BAD_LEN, and on either nothing is written. The remainder is linear in the
data block. -/
def Obligations.RsEncodeResult : Prop :=
  (∀ (d e : List Byte) (k : Nat), d.length = e.length →
    rsrem (List.zipWith (fun a b => a ^^^ b) d e) k = List.zipWith (fun a b => a ^^^ b) (rsrem d k) (rsrem e k)) ∧
  ∀ s : State, s.mem.wf = true →
    (∀ d : List Byte, 1 ≤ s.k.toNat → s.k.toNat ≤ 64 → d.length = s.plen.toNat → s.plen ≠ 0x00 → s.Holds polyBase d →
      ∃ t, exec .rsEncode s = .next t ∧
        t = { s with mem := t.mem, done := true, err := false, errcode := 0x00, pending := none } ∧
        t.Holds genBase (genpoly s.k.toNat) ∧
        (rsrem d s.k.toNat).length = s.k.toNat ∧ t.Holds remBase (rsrem d s.k.toNat) ∧
        SameBytesOutside (fun a => (genBase ≤ a ∧ a ≤ genBase + s.k.toNat) ∨
          (remBase ≤ a ∧ a < remBase + s.k.toNat)) s t) ∧
    (s.k.toNat = 0 ∨ 64 < s.k.toNat →
      exec .rsEncode s = .next { s with done := false, err := true, errcode := 0x04, pending := none }) ∧
    (1 ≤ s.k.toNat → s.k.toNat ≤ 64 → s.plen = 0x00 →
      exec .rsEncode s = .next { s with done := false, err := true, errcode := 0x03, pending := none })

/-- R187: for every degree and every data block, the data followed by its EC codewords has every syndrome 0. -/
def Obligations.ReedSolomonValidity : Prop :=
  ∀ (d : List Byte) (k : Nat), 1 ≤ k →
    ∀ i, i < k → polyeval (d ++ rsrem d k) (expAt i) = 0x00

/-- R186: RS_SYNDROME writes the value of the codeword sequence at each `α^i` to SYN[i] and to RES whether one is not 0,
completes with DONE either way, and writes nothing else; BAD_K comes before BAD_LEN. -/
def Obligations.RsSyndromeResult : Prop :=
  ∀ s : State, s.mem.wf = true →
    (∀ c : List Byte, 1 ≤ s.k.toNat → s.k.toNat ≤ 64 → c.length = s.plen.toNat → s.plen ≠ 0x00 → s.Holds polyBase c →
      ∃ t, exec .rsSyndrome s = .next t ∧
        t = { s with mem := t.mem, res := t.res, done := true, err := false, errcode := 0x00, pending := none } ∧
        (∀ i, i < s.k.toNat → t.byteAt (synBase + i) = some (polyeval c (expAt i))) ∧
        ((∀ i, i < s.k.toNat → polyeval c (expAt i) = 0x00) → t.res = 0x00) ∧
        ((∃ i, i < s.k.toNat ∧ polyeval c (expAt i) ≠ 0x00) → t.res = 0x01) ∧
        SameBytesOutside (fun a => synBase ≤ a ∧ a < synBase + s.k.toNat) s t) ∧
    (s.k.toNat = 0 ∨ 64 < s.k.toNat →
      exec .rsSyndrome s = .next { s with done := false, err := true, errcode := 0x04, pending := none }) ∧
    (1 ≤ s.k.toNat → s.k.toNat ≤ 64 → s.plen = 0x00 →
      exec .rsSyndrome s = .next { s with done := false, err := true, errcode := 0x03, pending := none })

/-- R190: the blocks of a version are contiguous from 0, cover its data codewords, differ in length by at most one, and the
short ones come first; version 10 is cut into 68, 68, 69 and 69. -/
def Obligations.BlocksPartitionTheData : Prop :=
  (∀ v, 1 ≤ v → v ≤ 10 →
    blockStart v 0 = 0 ∧ blockStart v (nblk v) = ndata v ∧
    (∀ b, b < nblk v → blockStart v (b + 1) = blockStart v b + blockLen v b) ∧
    (∀ b, b < nblk v → blockLen v b = ndata v / nblk v + if nblk v - ndata v % nblk v ≤ b then 1 else 0) ∧
    (∀ D : List Byte, D.length = ndata v →
      (splitBlocks v D).length = nblk v ∧ (splitBlocks v D).flatten = D ∧
      ∀ b, b < nblk v → (splitBlocks v D)[b]? = some ((D.drop (blockStart v b)).take (blockLen v b)))) ∧
  (List.range 4).map (blockLen 10) = [68, 68, 69, 69] ∧
  (∀ v, 1 ≤ v → v ≤ 9 → ∀ b, b < nblk v → blockLen v b = ndata v / nblk v)

/-- R191: RS_BLOCKS writes the generator polynomial to GEN and, for each block of the data codewords, its EC codewords to
the block's ECW bytes, and nothing else; an illegal VERSION is BAD_VERSION with nothing written. -/
def Obligations.RsBlocksResult : Prop :=
  ∀ s : State, s.mem.wf = true →
    (∀ D : List Byte, 1 ≤ s.ver → s.ver ≤ 10 → D.length = ndata s.ver → s.Holds dcwBase D →
      ∃ t, exec .rsBlocks s = .next t ∧
        t = { s with mem := t.mem, done := true, err := false, errcode := 0x00, pending := none } ∧
        t.Holds genBase (genpoly (ecpb s.ver)) ∧
        (∀ b, b < nblk s.ver → ∀ j, j < ecpb s.ver →
          t.byteAt (ecwBase + 32 * b + j) =
            (rsrem ((D.drop (blockStart s.ver b)).take (blockLen s.ver b)) (ecpb s.ver))[j]?) ∧
        SameBytesOutside (fun a => (genBase ≤ a ∧ a ≤ genBase + ecpb s.ver) ∨
          ∃ b < nblk s.ver, ∃ j < ecpb s.ver, a = ecwBase + 32 * b + j) s t) ∧
    (s.ver = 0 ∨ 10 < s.ver →
      exec .rsBlocks s = .next { s with done := false, err := true, errcode := 0x06, pending := none })

/-- R196, R195: INTERLEAVE writes the data codewords column by column over the blocks, a short block skipped at the
position it lacks, then the EC codewords the same way, to ICW[0..NTOTAL−1], and nothing else. -/
def Obligations.InterleaveResult : Prop :=
  ∀ s : State, s.mem.wf = true →
    (1 ≤ s.ver → s.ver ≤ 10 → s.Written dcwBase (ndata s.ver) →
      (∀ b, b < nblk s.ver → ∀ j, j < ecpb s.ver → (s.byteAt (ecwBase + 32 * b + j)).isSome) →
      ∃ t, exec .interleave s = .next t ∧
        t = { s with mem := t.mem, done := true, err := false, errcode := 0x00, pending := none } ∧
        (∀ b, b < nblk s.ver → ∀ i, i < blockLen s.ver b →
          t.byteAt (icwBase + (if i < ndata s.ver / nblk s.ver then i * nblk s.ver + b
            else ndata s.ver / nblk s.ver * nblk s.ver + (b - (nblk s.ver - ndata s.ver % nblk s.ver)))) =
            s.byteAt (dcwBase + blockStart s.ver b + i)) ∧
        (∀ b, b < nblk s.ver → ∀ j, j < ecpb s.ver →
          t.byteAt (icwBase + ndata s.ver + j * nblk s.ver + b) = s.byteAt (ecwBase + 32 * b + j)) ∧
        SameBytesOutside (fun a => icwBase ≤ a ∧ a < icwBase + ntotal s.ver) s t) ∧
    (s.ver = 0 ∨ 10 < s.ver →
      exec .interleave s = .next { s with done := false, err := true, errcode := 0x06, pending := none })

/-! ### Bit stream -/

/-- R131: BP_CLEAR sets BP_POS to 0 and changes nothing else; DCW is not cleared. -/
def Obligations.BpClearResult : Prop :=
  ∀ s : State, exec .bpClear s =
    .next { s with bpPos := 0, done := true, err := false, errcode := 0x00, pending := none }

/-- R132, R130: BP_PUT writes the low BP_NBITS bits of BP_VAL, most significant first, at BP_POS, advances BP_POS and
changes no other bit of DCW and nothing else. A DCW byte is written exactly when all its bits are, whichever BP_PUTs put
them: that the bits of several add up is the model's reading of R130 (log entry 6, DEDUCED). BAD_NBITS comes before
BP_OVERFLOW, and on either nothing is written. -/
def Obligations.BpPutResult : Prop :=
  ∀ s : State, s.Inv →
    let nb := s.bpNbits.toNat
    let pos := s.bpPos.toNat
    (1 ≤ nb → nb ≤ 16 → pos + nb ≤ 4096 →
      ∃ t, exec .bpPut s = .next t ∧
        t = { s with mem := t.mem, dcwBits := t.dcwBits, bpPos := BitVec.ofNat 13 (pos + nb),
                     done := true, err := false, errcode := 0x00, pending := none } ∧
        (∀ p, p < 4096 → t.dcwBit p =
          if pos ≤ p ∧ p < pos + nb then some (s.bpVal.testBit (nb - 1 - (p - pos))) else s.dcwBit p) ∧
        (∀ i, i < 512 → ((t.byteAt (dcwBase + i)).isSome ↔ ∀ q, q < 8 → (t.dcwBit (8 * i + q)).isSome)) ∧
        (∀ p, p / 8 < pos / 8 ∨ (pos + nb - 1) / 8 < p / 8 → memRead t.dcwBits p = memRead s.dcwBits p) ∧
        SameBytesOutside (fun a => ∃ p, pos ≤ p ∧ p < pos + nb ∧ a = dcwBase + p / 8) s t) ∧
    (nb = 0 ∨ 16 < nb →
      exec .bpPut s = .next { s with done := false, err := true, errcode := 0x08, pending := none }) ∧
    (1 ≤ nb → nb ≤ 16 → 4096 < pos + nb →
      exec .bpPut s = .next { s with done := false, err := true, errcode := 0x07, pending := none })

/-- R123: SELECT_VERSION writes the least version whose capacity holds LEN bytes (and the full terminator) to VERSION, and
nothing else; more than 271 bytes is CAPACITY with VERSION unchanged. -/
def Obligations.SelectVersionResult : Prop :=
  ∀ s : State,
    (s.len ≤ 271 → ∃ v, 1 ≤ v ∧ v ≤ 10 ∧ 4 + cci v + 8 * s.len + 4 ≤ 8 * ndata v ∧
      (∀ w, 1 ≤ w → w < v → ¬ 4 + cci w + 8 * s.len + 4 ≤ 8 * ndata w) ∧
      exec .selectVersion s =
        .next { s with version := BitVec.ofNat 8 v, done := true, err := false, errcode := 0x00, pending := none }) ∧
    (271 < s.len →
      exec .selectVersion s = .next { s with done := false, err := true, errcode := 0x05, pending := none })

/-- R124: the selected version fits, the version below it does not, and a longer payload never selects a smaller version. -/
def Obligations.SelectionMinimalAndMonotone : Prop :=
  ∀ (L M v w : Nat), selectVersion L = some v → selectVersion M = some w →
    8 * ndata (v - 1) < 4 + cci (v - 1) + 8 * L + 4 ∧ 4 + cci v + 8 * L + 4 ≤ 8 * ndata v ∧ (L ≤ M → v ≤ w)

/-- R135, R137: ENCODE_STREAM fills DCW[0..NDATA−1] with the closed form of R137 (mode indicator, count, payload,
terminator, pad codewords), leaves BP_POS at 8·NDATA, and changes nothing else; BAD_VERSION comes before CAPACITY, and on
either nothing is written. -/
def Obligations.EncodeStreamResult : Prop :=
  ∀ s : State, s.Inv →
    (∀ P : List Byte, 1 ≤ s.ver → s.ver ≤ 10 → s.len ≤ maxLen s.ver → P.length = s.len → s.Holds payloadBase P →
      ∃ t, exec .encodeStream s = .next t ∧
        t = { s with mem := t.mem, dcwBits := t.dcwBits, bpPos := BitVec.ofNat 13 (8 * ndata s.ver),
                     done := true, err := false, errcode := 0x00, pending := none } ∧
        (∀ k, k < ndata s.ver → t.byteAt (dcwBase + k) = some (encodedByte (countedPayload s.ver P) k)) ∧
        (∀ p, 8 * ndata s.ver ≤ p → memRead t.dcwBits p = memRead s.dcwBits p) ∧
        SameBytesOutside (fun a => dcwBase ≤ a ∧ a < dcwBase + ndata s.ver) s t) ∧
    (s.ver = 0 ∨ 10 < s.ver →
      exec .encodeStream s = .next { s with done := false, err := true, errcode := 0x06, pending := none }) ∧
    (1 ≤ s.ver → s.ver ≤ 10 → maxLen s.ver < s.len →
      exec .encodeStream s = .next { s with done := false, err := true, errcode := 0x05, pending := none })

/-! ### The module matrix -/

/-- R221 with the regions of R222-R230: MATRIX_INIT sets all 4096 cells, each to the byte its region gives it, and
changes nothing else; an illegal VERSION is BAD_VERSION with MATRIX unchanged. -/
def Obligations.MatrixInitResult : Prop :=
  ∀ s : State, s.mem.wf = true →
    (1 ≤ s.ver → s.ver ≤ 10 →
      ∃ t, exec .matrixInit s = .next t ∧
        t = { s with mem := t.mem, done := true, err := false, errcode := 0x00, pending := none } ∧
        (∀ r, r < 64 → ∀ c, c < 64 → t.byteAt (matrixBase + 64 * r + c) = some (structByte s.ver r c)) ∧
        SameBytesOutside (fun a => matrixBase ≤ a ∧ a < matrixBase + 4096) s t) ∧
    (s.ver = 0 ∨ 10 < s.ver →
      exec .matrixInit s = .next { s with done := false, err := true, errcode := 0x06, pending := none })

/-- R231: the reserved and free cells of each version's structural matrix, counted. -/
def Obligations.StructureCellCounts : Prop :=
  ∀ row ∈ [(1, 233, 208), (2, 266, 359), (3, 274, 567), (4, 282, 807), (5, 290, 1079), (6, 298, 1383), (7, 457, 1568),
      (8, 465, 1936), (9, 473, 2336), (10, 481, 2768)],
    ((symbolCells (side row.1)).filter fun p => (structGrid row.1 p.1 p.2).rsv).length = row.2.1 ∧
    ((symbolCells (side row.1)).filter fun p => !(structGrid row.1 p.1 p.2).rsv).length = row.2.2

/-- R262: the zig-zag order visits exactly the free cells of the symbol outside column 6, each once, in the order of
column pair, row in the pair's direction, right column first. -/
def Obligations.ZigzagVisitsFreeCellsInOrder : Prop :=
  ∀ (v : Nat) (g : Grid), 1 ≤ v → v ≤ 10 →
    (∀ r c, (r, c) ∈ zigzag (side v) g ↔ r < side v ∧ c < side v ∧ c ≠ 6 ∧ (g r c).rsv = false) ∧
    (zigzag (side v) g).Pairwise fun p q => zigzagRank (side v) p < zigzagRank (side v) q

/-- R260, R261: PLACE_DATA reads `ICW[0..NTOTAL−1]`, writes stream bit i to DARK of the i-th free cell in zig-zag order and 0
to the cells past the last bit, and changes nothing else: no RSV bit, no reserved cell, no cell outside the symbol. Bits past
the last free cell are not placed. An unwritten byte of that ICW range is an unwritten read, however many free cells there
are. -/
def Obligations.PlaceDataResult : Prop :=
  ∀ s : State, s.mem.wf = true →
    let free := zigzag (side s.ver) s.cellAt
    (∀ W : List Byte, 1 ≤ s.ver → s.ver ≤ 10 → s.SymbolWritten (side s.ver) → W.length = ntotal s.ver →
      s.Holds icwBase W →
      ∃ t, exec .placeData s = .next t ∧
        t = { s with mem := t.mem, done := true, err := false, errcode := 0x00, pending := none } ∧
        (∀ i (h : i < free.length), t.byteAt (cellAddr free[i].1 free[i].2) =
          some (if i < 8 * ntotal s.ver ∧ streamBit W i then 0x01 else 0x00)) ∧
        SameBytesOutside (fun a => ∃ p ∈ free, a = cellAddr p.1 p.2) s t) ∧
    (1 ≤ s.ver → s.ver ≤ 10 → ¬ s.Written icwBase (ntotal s.ver) →
      ∃ a, exec .placeData s = .fault (.unwrittenRead a) ∧ s.byteAt a = none) ∧
    (s.ver = 0 ∨ 10 < s.ver →
      exec .placeData s = .next { s with done := false, err := true, errcode := 0x06, pending := none })

/-- R270, R271: APPLY_MASK flips DARK of every free cell of the symbol with `r + c` even, and changes nothing else. -/
def Obligations.ApplyMaskResult : Prop :=
  ∀ s : State, s.mem.wf = true →
    (1 ≤ s.ver → s.ver ≤ 10 → s.SymbolWritten (side s.ver) →
      ∃ t, exec .applyMask s = .next t ∧
        t = { s with mem := t.mem, done := true, err := false, errcode := 0x00, pending := none } ∧
        (∀ r, r < side s.ver → ∀ c, c < side s.ver → (s.cellAt r c).rsv = false → (r + c) % 2 = 0 →
          t.byteAt (cellAddr r c) = some (if (s.cellAt r c).dark then 0x00 else 0x01)) ∧
        SameBytesOutside (fun a => ∃ r < side s.ver, ∃ c < side s.ver, (s.cellAt r c).rsv = false ∧ (r + c) % 2 = 0 ∧
          a = cellAddr r c) s t) ∧
    (s.ver = 0 ∨ 10 < s.ver →
      exec .applyMask s = .next { s with done := false, err := true, errcode := 0x06, pending := none })

/-- R272: two APPLY_MASKs leave MATRIX as it was, and where the 30 format cells are reserved APPLY_MASK and WRITE_FORMAT
commute. -/
def Obligations.MaskIsAnInvolution : Prop :=
  ∀ s : State, s.Inv → 1 ≤ s.ver → s.ver ≤ 10 → s.SymbolWritten (side s.ver) →
    (∃ t u, exec .applyMask s = .next t ∧ exec .applyMask t = .next u ∧ u.mem = s.mem) ∧
    ((∀ e ∈ formatCells (side s.ver), (s.cellAt e.2.1 e.2.2).rsv = true) →
      ∃ t u t' u', exec .applyMask s = .next t ∧ exec .writeFormat t = .next u ∧
        exec .writeFormat s = .next t' ∧ exec .applyMask t' = .next u' ∧ u = u')

/-- R292, R291, R293: WRITE_FORMAT writes the 15 bits of `0x77C4`, reserved, to both copies' cells, so each copy holds the
whole word, and changes nothing else. -/
def Obligations.WriteFormatResult : Prop :=
  ∀ s : State, s.mem.wf = true →
    let n := side s.ver
    let copy1 := fun i : Nat => if i ≤ 5 then (i, 8) else if i = 6 then (7, 8) else if i = 7 then (8, 8)
      else if i = 8 then (8, 7) else (8, 14 - i)
    let copy2 := fun i : Nat => if i ≤ 7 then (8, n - 1 - i) else (n - 15 + i, 8)
    let bitByte := fun i : Nat => if (0x77C4).testBit i then (0x03 : Byte) else 0x02
    (1 ≤ s.ver → s.ver ≤ 10 →
      ∃ t, exec .writeFormat s = .next t ∧
        t = { s with mem := t.mem, done := true, err := false, errcode := 0x00, pending := none } ∧
        (∀ i, i < 15 → t.byteAt (cellAddr (copy1 i).1 (copy1 i).2) = some (bitByte i) ∧
          t.byteAt (cellAddr (copy2 i).1 (copy2 i).2) = some (bitByte i)) ∧
        SameBytesOutside (fun a => ∃ i < 15, a = cellAddr (copy1 i).1 (copy1 i).2 ∨
          a = cellAddr (copy2 i).1 (copy2 i).2) s t) ∧
    (s.ver = 0 ∨ 10 < s.ver →
      exec .writeFormat s = .next { s with done := false, err := true, errcode := 0x06, pending := none })

/-- R229, R291: the cells the format strips reserve are exactly the 30 cells WRITE_FORMAT writes, and none twice. -/
def Obligations.FormatCellsAreTheReservedOnes : Prop :=
  ∀ v, 1 ≤ v → v ≤ 10 →
    (∀ r c, isFormatCell (side v) r c = true ↔ ∃ i, (i, (r, c)) ∈ formatCells (side v)) ∧
    ((formatCells (side v)).map (·.2)).Nodup ∧ (formatCells (side v)).length = 30

/-! ### The pipeline -/

/-- R111, R112: GENERATE completes for every payload of at most 271 written bytes, with STAGE 8 and the selected VERSION,
writing only what R111 lists, each place as the eight stages run one after another leave it; a longer payload is CAPACITY,
with STAGE 0 and nothing else written. -/
def Obligations.GenerateCompletes : Prop :=
  ∀ s : State, s.Inv →
    (s.len ≤ 271 → s.Written payloadBase s.len →
      ∃ t v, exec .generate s = .next t ∧ selectVersion s.len = some v ∧
        t = { s with version := BitVec.ofNat 8 v, stage := 0x08, bpPos := BitVec.ofNat 13 (8 * ndata v),
                     mem := t.mem, dcwBits := t.dcwBits,
                     done := true, err := false, errcode := 0x00, pending := none } ∧
        (∀ a, GenerateWrites v a → (t.byteAt a).isSome) ∧ SameBytesOutside (GenerateWrites v) s t ∧
        (∀ p, 8 * ndata v ≤ p → memRead t.dcwBits p = memRead s.dcwBits p) ∧
        ∃ u, issueAll pipelineStages s = .next u ∧ t = { u with stage := 0x08, lastCmd := s.lastCmd }) ∧
    (271 < s.len →
      exec .generate s =
        .next { s with stage := 0x00, done := false, err := true, errcode := 0x05, pending := none })

/-- R113: GENERATE is a function of LEN and the payload: two states that agree on them end with the same VERSION, STAGE,
BP_POS and the same byte at every address GENERATE writes, MATRIX, ICW and DCW among them. -/
def Obligations.GenerateDependsOnThePayloadAlone : Prop :=
  ∀ s₁ s₂ : State, s₁.Inv → s₂.Inv → s₁.len = s₂.len → s₁.len ≤ 271 →
    s₁.Written payloadBase s₁.len →
    (∀ i, i < s₁.len → s₁.byteAt (payloadBase + i) = s₂.byteAt (payloadBase + i)) →
    ∃ t₁ t₂ v, exec .generate s₁ = .next t₁ ∧ exec .generate s₂ = .next t₂ ∧ selectVersion s₁.len = some v ∧
      t₁.version = t₂.version ∧ t₁.stage = t₂.stage ∧ t₁.bpPos = t₂.bpPos ∧
      ∀ a, GenerateWrites v a → t₁.byteAt a = t₂.byteAt a

/-- R114: GENERATE and the same eight stages issued one by one end in the same state, but for STAGE and LASTCMD. That both
stop at the same unwritten payload byte when one is met rests on R60 and on which address the model names (log entry 4,
DESIGN CHOICE). -/
def Obligations.GenerateEqualsTheEightStages : Prop :=
  ∀ s : State, s.len ≤ 271 →
    issue .generate s =
      match issueAll pipelineStages s with
      | .next t => .next { t with stage := 0x08, lastCmd := 0x70 }
      | .fault f => .fault f
      | .refused r => .refused r

/-! ### The whole machine -/

/-- R63, R48: which registers and buffers a command may change: every other register and every byte of every other buffer
is as it was, for every command and every next state it answers. -/
def Obligations.OnlyListedCommandsWriteEachPlace : Prop :=
  ∀ (s t : State) (i : Instr), s.mem.wf = true → exec i s = .next t →
    t.opa = s.opa ∧ t.opb = s.opb ∧ t.k = s.k ∧ t.plen = s.plen ∧ t.lenLo = s.lenLo ∧ t.lenHi = s.lenHi ∧
    t.bpNbits = s.bpNbits ∧ t.bpValLo = s.bpValLo ∧ t.bpValHi = s.bpValHi ∧ t.lastCmd = s.lastCmd ∧ t.wign = s.wign ∧
    (i ∉ [Instr.gfAdd, .gfMul, .gfInv, .gfExp, .gfLog, .polyEval, .rsSyndrome] → t.res = s.res) ∧
    (i ∉ [Instr.selectVersion, .generate] → t.version = s.version) ∧
    (i ∉ [Instr.bpClear, .bpPut, .encodeStream, .generate] → t.bpPos = s.bpPos) ∧
    (i ≠ .generate → t.stage = s.stage) ∧
    (∀ a, 0x0200 ≤ a → a < 0x0400 → t.byteAt a = s.byteAt a) ∧
    (i ∉ [Instr.bpPut, .encodeStream, .generate] →
      t.dcwBits = s.dcwBits ∧ ∀ a, 0x0400 ≤ a → a < 0x0600 → t.byteAt a = s.byteAt a) ∧
    (∀ a, 0x0600 ≤ a → a < 0x0700 → t.byteAt a = s.byteAt a) ∧
    (i ∉ [Instr.rsGenpoly, .rsEncode, .rsBlocks, .generate] →
      ∀ a, 0x0700 ≤ a → a < 0x0780 → t.byteAt a = s.byteAt a) ∧
    (i ≠ .rsEncode → ∀ a, 0x0780 ≤ a → a < 0x07C0 → t.byteAt a = s.byteAt a) ∧
    (i ≠ .rsSyndrome → ∀ a, 0x07C0 ≤ a → a < 0x0800 → t.byteAt a = s.byteAt a) ∧
    (i ∉ [Instr.interleave, .generate] → ∀ a, 0x0800 ≤ a → a < 0x0A00 → t.byteAt a = s.byteAt a) ∧
    (i ∉ [Instr.rsBlocks, .generate] → ∀ a, 0x0A00 ≤ a → a < 0x0A80 → t.byteAt a = s.byteAt a) ∧
    (i ∉ [Instr.matrixInit, .placeData, .applyMask, .writeFormat, .generate] →
      ∀ a, 0x1000 ≤ a → a < 0x2000 → t.byteAt a = s.byteAt a)

/-- R40, R45: the profile readouts of each version, and 0 for a VERSION outside 1 to 10. -/
def Obligations.ProfileReadouts : Prop :=
  ∀ s : State,
    let reads := fun size nb ec nd nt : Nat =>
      s.readIdle 0x0010 = .ok (BitVec.ofNat 8 size) ∧ s.readIdle 0x0011 = .ok (BitVec.ofNat 8 nb) ∧
      s.readIdle 0x0012 = .ok (BitVec.ofNat 8 ec) ∧ s.readIdle 0x0013 = .ok (BitVec.ofNat 8 (nd % 256)) ∧
      s.readIdle 0x0014 = .ok (BitVec.ofNat 8 (nd / 256)) ∧ s.readIdle 0x0015 = .ok (BitVec.ofNat 8 (nt % 256)) ∧
      s.readIdle 0x0016 = .ok (BitVec.ofNat 8 (nt / 256))
    (s.version = 1 → reads 21 1 7 19 26) ∧ (s.version = 2 → reads 25 1 10 34 44) ∧
    (s.version = 3 → reads 29 1 15 55 70) ∧ (s.version = 4 → reads 33 1 20 80 100) ∧
    (s.version = 5 → reads 37 1 26 108 134) ∧ (s.version = 6 → reads 41 2 18 136 172) ∧
    (s.version = 7 → reads 45 2 20 156 196) ∧ (s.version = 8 → reads 49 2 24 194 242) ∧
    (s.version = 9 → reads 53 2 30 232 292) ∧ (s.version = 10 → reads 57 4 18 274 346) ∧
    (s.version.toNat = 0 ∨ 10 < s.version.toNat → reads 0 0 0 0 0)

/-- R356, R80, R79: while a command is pending, host accesses, however many, only pass by: after them the command is still
pending with its operands unchanged, and the next step takes it. -/
def Obligations.PendingCommandIsTakenAfterHostAccesses : Prop :=
  ∀ (s : State) (c : Byte), s.pending = some c → (∀ e ∈ s.events, ∃ x : Access, x.width = 1 ∧ e = .host x) →
    ∃ u, Sys2Proof.core.run s.events.length s = .next u ∧ u.events = [] ∧ SameMachine { s with wign := u.wign } u ∧
      step u = runCommand c u

/-- The state after reset meets the invariant. -/
def Obligations.ResetMeetsTheInvariant : Prop := State.reset.Inv

/-- Every step keeps the invariant: memory canonical and inside RAM, MATRIX cells and status registers within their legal
values (R28, R31, R32, R43, R57), partly written DCW bytes apart from written ones (R130), and a pending command with a
clear completion state (R76, R310). -/
def Obligations.StepKeepsTheInvariant : Prop :=
  ∀ s t : State, s.Inv → step s = .next t → t.Inv
end

