-- ==== Sys2Proof/Laws/Memory.lean ====
section
/-! SUPPORT. What the memory operations of Machine/Ops.lean do: one lemma for what a read finds after each write, one for
the canonical form each keeps, and extensionality (memories that read alike are equal data). -/

namespace Sys2Proof.Laws

open Sys2Proof.Machine

variable {α : Type}

@[simp] theorem memRead_nil (a : Nat) : memRead ([] : List (Nat × α)) a = none := rfl

theorem memRead_cons (k : Nat) (b : α) (m : List (Nat × α)) (a : Nat) :
    memRead ((k, b) :: m) a = if k = a then some b else memRead m a := rfl

@[simp] theorem risingFrom_nil (lo : Nat) : risingFrom lo ([] : List (Nat × α)) = true := rfl

@[simp] theorem risingFrom_cons (lo k : Nat) (b : α) (m : List (Nat × α)) :
    risingFrom lo ((k, b) :: m) = true ↔ lo ≤ k ∧ risingFrom (k + 1) m = true := by
  simp [risingFrom]

theorem risingFrom_mono {lo lo' : Nat} {m : List (Nat × α)} (h : risingFrom lo m = true) (hle : lo' ≤ lo) :
    risingFrom lo' m = true := by
  cases m with
  | nil => rfl
  | cons e m => obtain ⟨k, b⟩ := e; simp only [risingFrom_cons] at h ⊢; exact ⟨by omega, h.2⟩

theorem memRead_below {lo a : Nat} {m : List (Nat × α)} (h : risingFrom lo m = true) (ha : a < lo) :
    memRead m a = none := by
  induction m generalizing lo with
  | nil => rfl
  | cons e m ih =>
    obtain ⟨k, b⟩ := e
    rw [risingFrom_cons] at h
    rw [memRead_cons, if_neg (by omega), ih h.2 (by omega)]

theorem memRead_append (m n : List (Nat × α)) (a : Nat) :
    memRead (m ++ n) a = (memRead m a).or (memRead n a) := by
  induction m with
  | nil => simp
  | cons e m ih =>
    obtain ⟨k, b⟩ := e
    simp only [List.cons_append, memRead_cons, ih]
    split <;> simp

theorem memRead_takeWhile_lt {lo : Nat} {m : List (Nat × α)} (h : risingFrom lo m = true) (t a : Nat) :
    memRead (m.takeWhile fun e => e.1 < t) a = if a < t then memRead m a else none := by
  induction m generalizing lo with
  | nil => simp
  | cons e m ih =>
    obtain ⟨k, b⟩ := e
    rw [risingFrom_cons] at h
    simp only [List.takeWhile_cons, decide_eq_true_eq]
    by_cases hk : k < t
    · simp only [hk, if_true, memRead_cons, ih h.2]
      by_cases hka : k = a
      · subst hka; simp [hk]
      · simp [hka]
    · simp only [hk, if_false, memRead_nil, memRead_cons]
      by_cases ha : a < t
      · rw [if_pos ha, if_neg (by omega), memRead_below h.2 (by omega)]
      · rw [if_neg ha]

theorem memRead_dropWhile_le {lo : Nat} {m : List (Nat × α)} (h : risingFrom lo m = true) (t a : Nat) :
    memRead (m.dropWhile fun e => e.1 ≤ t) a = if t < a then memRead m a else none := by
  induction m generalizing lo with
  | nil => simp
  | cons e m ih =>
    obtain ⟨k, b⟩ := e
    rw [risingFrom_cons] at h
    simp only [List.dropWhile_cons, decide_eq_true_eq]
    by_cases hk : k ≤ t
    · simp only [hk, if_true, memRead_cons, ih h.2]
      by_cases ha : t < a
      · rw [if_pos ha, if_pos ha, if_neg (by omega)]
      · rw [if_neg ha, if_neg ha]
    · simp only [hk, if_false, memRead_cons]
      by_cases ha : t < a
      · rw [if_pos ha]
      · rw [if_neg ha, if_neg (by omega), memRead_below h.2 (by omega)]

theorem risingFrom_dropWhile {lo : Nat} {m : List (Nat × α)} (h : risingFrom lo m = true) (p : Nat × α → Bool) :
    risingFrom lo (m.dropWhile p) = true := by
  induction m generalizing lo with
  | nil => rfl
  | cons e m ih =>
    obtain ⟨k, b⟩ := e
    rw [risingFrom_cons] at h
    rw [List.dropWhile_cons]
    split
    · exact risingFrom_mono (ih h.2) (by omega)
    · exact (risingFrom_cons ..).2 h

theorem risingFrom_dropWhile_le {lo : Nat} {m : List (Nat × α)} (h : risingFrom lo m = true) (t : Nat) :
    risingFrom (t + 1) (m.dropWhile fun e => e.1 ≤ t) = true := by
  induction m generalizing lo with
  | nil => rfl
  | cons e m ih =>
    obtain ⟨k, b⟩ := e
    rw [risingFrom_cons] at h
    simp only [List.dropWhile_cons, decide_eq_true_eq]
    split
    · exact ih h.2
    · exact (risingFrom_cons ..).2 ⟨by omega, h.2⟩

theorem risingFrom_takeWhile_append {lo t : Nat} {m n : List (Nat × α)} (h : risingFrom lo m = true) (hlo : lo ≤ t)
    (hn : risingFrom t n = true) : risingFrom lo ((m.takeWhile fun e => e.1 < t) ++ n) = true := by
  induction m generalizing lo with
  | nil => exact risingFrom_mono hn hlo
  | cons e m ih =>
    obtain ⟨k, b⟩ := e
    rw [risingFrom_cons] at h
    simp only [List.takeWhile_cons, decide_eq_true_eq]
    split
    · rw [List.cons_append, risingFrom_cons]
      exact ⟨h.1, ih h.2 (by omega)⟩
    · exact risingFrom_mono hn hlo

/-- The canonical form after an overlay. -/
theorem risingFrom_memOverlay {lo : Nat} {cells m : List (Nat × α)} (hc : risingFrom lo cells = true)
    (hm : risingFrom lo m = true) : risingFrom lo (memOverlay cells m) = true := by
  induction cells generalizing lo m with
  | nil => exact hm
  | cons e cells ih =>
    obtain ⟨k, b⟩ := e
    rw [risingFrom_cons] at hc
    refine risingFrom_takeWhile_append hm hc.1 ((risingFrom_cons ..).2 ⟨le_refl k, ?_⟩)
    exact ih hc.2 (risingFrom_dropWhile_le hm k)

/-- What a read finds after an overlay: the new entry if there is one, else the old. -/
theorem memRead_memOverlay {lo lo' : Nat} {cells m : List (Nat × α)} (hc : risingFrom lo cells = true)
    (hm : risingFrom lo' m = true) (a : Nat) :
    memRead (memOverlay cells m) a = (memRead cells a).or (memRead m a) := by
  induction cells generalizing lo lo' m with
  | nil => simp [memOverlay]
  | cons e cells ih =>
    obtain ⟨k, b⟩ := e
    rw [risingFrom_cons] at hc
    simp only [memOverlay, memRead_append, memRead_takeWhile_lt hm, memRead_cons]
    rw [ih hc.2 (risingFrom_dropWhile_le hm k), memRead_dropWhile_le hm]
    by_cases hka : k = a
    · subst hka; simp
    · by_cases hlt : a < k
      · simp [hka, hlt, memRead_below hc.2 (show a < k + 1 by omega), show ¬ k < a by omega]
      · simp [hka, hlt, show k < a by omega]

/-- Equal memories are equal data: two canonical lists that read alike at every key are one list. -/
theorem mem_ext {lo lo' : Nat} {m n : List (Nat × α)} (hm : risingFrom lo m = true) (hn : risingFrom lo' n = true)
    (h : ∀ a, memRead m a = memRead n a) : m = n := by
  induction m generalizing lo lo' n with
  | nil =>
    cases n with
    | nil => rfl
    | cons e n => obtain ⟨k, b⟩ := e; have := h k; simp [memRead_cons] at this
  | cons e m ih =>
    obtain ⟨k, b⟩ := e
    cases n with
    | nil => have := h k; simp [memRead_cons] at this
    | cons e' n =>
      obtain ⟨k', b'⟩ := e'
      rw [risingFrom_cons] at hm hn
      have h1 := h k
      have h2 := h k'
      simp only [memRead_cons, if_true] at h1 h2
      have hk : k = k' := by
        by_contra hne
        rw [if_neg (Ne.symm hne)] at h1
        rw [if_neg hne] at h2
        by_cases hlt : k < k'
        · rw [memRead_below hn.2 (show k < k' + 1 by omega)] at h1; simp at h1
        · rw [memRead_below hm.2 (show k' < k + 1 by omega)] at h2; simp at h2
      subst hk
      simp only [if_true, Option.some.injEq] at h1
      subst h1
      congr 1
      refine ih hm.2 hn.2 fun a => ?_
      by_cases ha : a < k + 1
      · rw [memRead_below hm.2 ha, memRead_below hn.2 ha]
      · have := h a
        simpa only [memRead_cons, if_neg (show ¬ k = a by omega)] using this

theorem memRead_filter (p : Nat → Bool) (m : List (Nat × α)) (a : Nat) :
    memRead (m.filter fun e => p e.1) a = if p a then memRead m a else none := by
  induction m with
  | nil => simp
  | cons e m ih =>
    obtain ⟨k, b⟩ := e
    by_cases hk : p k <;> simp only [List.filter_cons, hk, if_true, if_false, memRead_cons, ih, Bool.false_eq_true]
    · by_cases hka : k = a
      · subst hka; simp [hk]
      · simp [hka]
    · by_cases hka : k = a
      · subst hka; simp [hk]
      · simp [hka]

theorem risingFrom_filter {lo : Nat} {m : List (Nat × α)} (h : risingFrom lo m = true) (p : Nat × α → Bool) :
    risingFrom lo (m.filter p) = true := by
  induction m generalizing lo with
  | nil => rfl
  | cons e m ih =>
    obtain ⟨k, b⟩ := e
    rw [risingFrom_cons] at h
    rw [List.filter_cons]
    split
    · exact (risingFrom_cons ..).2 ⟨h.1, ih h.2⟩
    · exact risingFrom_mono (ih h.2) (by omega)

/-! ### Reading several bytes -/

/-- The addresses rise strictly, from `lo` up. -/
def addrsRise : Nat → List Nat → Prop
  | _, [] => True
  | lo, a :: as => lo ≤ a ∧ addrsRise (a + 1) as

theorem addrsRise_le {lo x : Nat} {addrs : List Nat} (h : addrsRise lo addrs) (hx : x ∈ addrs) : lo ≤ x := by
  induction addrs generalizing lo with
  | nil => simp at hx
  | cons a addrs ih =>
    rcases List.mem_cons.1 hx with rfl | hx
    · exact h.1
    · have := ih h.2 hx
      have := h.1
      omega

theorem memRead_dropWhile_lt {lo : Nat} {m : List (Nat × α)} (h : risingFrom lo m = true) (t a : Nat) (ha : t ≤ a) :
    memRead (m.dropWhile fun e => e.1 < t) a = memRead m a := by
  induction m generalizing lo with
  | nil => simp
  | cons e m ih =>
    obtain ⟨k, b⟩ := e
    rw [risingFrom_cons] at h
    simp only [List.dropWhile_cons, decide_eq_true_eq]
    by_cases hk : k < t
    · rw [if_pos hk, ih h.2, memRead_cons, if_neg (by omega)]
    · rw [if_neg hk]

theorem risingFrom_dropWhile_lt {lo : Nat} {m : List (Nat × α)} (h : risingFrom lo m = true) (t : Nat) :
    risingFrom t (m.dropWhile fun e => e.1 < t) = true := by
  induction m generalizing lo with
  | nil => rfl
  | cons e m ih =>
    obtain ⟨k, b⟩ := e
    rw [risingFrom_cons] at h
    simp only [List.dropWhile_cons, decide_eq_true_eq]
    split
    · exact ih h.2
    · exact (risingFrom_cons ..).2 ⟨by omega, h.2⟩

/-- What a gather answers: the bytes at the addresses, when every one of them is written. -/
theorem memGather_ok_iff {lo lo' : Nat} {addrs : List Nat} {m : List (Nat × α)} (ha : addrsRise lo addrs)
    (hm : risingFrom lo' m = true) (bytes : List α) :
    memGather addrs m = .ok bytes ↔ addrs.map (memRead m) = bytes.map some := by
  induction addrs generalizing lo lo' m bytes with
  | nil => cases bytes <;> simp [memGather]
  | cons a addrs ih =>
    obtain ⟨_, ha⟩ := ha
    have hr := memRead_dropWhile_lt hm a a le_rfl
    have hd := risingFrom_dropWhile_lt hm a
    simp only [memGather]
    cases hmd : m.dropWhile (fun e => decide (e.1 < a)) with
    | nil =>
      rw [hmd] at hr
      cases bytes <;> simp [← hr]
    | cons e rest =>
      obtain ⟨k, b⟩ := e
      rw [hmd] at hr hd
      rw [risingFrom_cons] at hd
      rw [memRead_cons] at hr
      by_cases hk : k = a
      · subst hk
        simp only [if_true] at hr ⊢
        have htail : ∀ x ∈ addrs, memRead rest x = memRead m x := by
          intro x hx
          have hxk : k < x := addrsRise_le ha hx
          rw [← memRead_dropWhile_lt hm k x (by omega), hmd, memRead_cons, if_neg (by omega)]
        have hmap : addrs.map (memRead m) = addrs.map (memRead rest) :=
          List.map_congr_left fun x hx => (htail x hx).symm
        cases bytes with
        | nil => cases memGather addrs rest <;> simp [Except.map]
        | cons b' bytes =>
          rw [List.map_cons, List.map_cons, ← hr, hmap]
          have := ih ha hd.2 bytes
          cases hg : memGather addrs rest with
          | ok bs =>
            rw [hg] at this
            simp only [Except.ok.injEq] at this
            simp only [Except.map, Except.ok.injEq, List.cons.injEq, Option.some.injEq]
            exact and_congr_right fun _ => this
          | error e =>
            rw [hg] at this
            simp only [reduceCtorEq, false_iff] at this
            simp [Except.map, this]
      · simp only [if_neg hk] at hr ⊢
        rw [memRead_below hd.2 (by omega)] at hr
        cases bytes <;> simp [← hr]

end Sys2Proof.Laws
end

