-- ==== Sys2Proof/Laws/State.lean ====
section
/-! SUPPORT. One lemma per field per state update, true by rfl: what each named update leaves in every field of the state. -/

namespace Sys2Proof.Laws

open Sys2Proof.Machine

/-! ### `State.completeDone` -/

@[simp] theorem completeDone_lastCmd (s : State) : s.completeDone.lastCmd = s.lastCmd := rfl
@[simp] theorem completeDone_done (s : State) : s.completeDone.done = true := rfl
@[simp] theorem completeDone_err (s : State) : s.completeDone.err = false := rfl
@[simp] theorem completeDone_wign (s : State) : s.completeDone.wign = s.wign := rfl
@[simp] theorem completeDone_errcode (s : State) : s.completeDone.errcode = 0x00 := rfl
@[simp] theorem completeDone_stage (s : State) : s.completeDone.stage = s.stage := rfl
@[simp] theorem completeDone_opa (s : State) : s.completeDone.opa = s.opa := rfl
@[simp] theorem completeDone_opb (s : State) : s.completeDone.opb = s.opb := rfl
@[simp] theorem completeDone_res (s : State) : s.completeDone.res = s.res := rfl
@[simp] theorem completeDone_k (s : State) : s.completeDone.k = s.k := rfl
@[simp] theorem completeDone_plen (s : State) : s.completeDone.plen = s.plen := rfl
@[simp] theorem completeDone_version (s : State) : s.completeDone.version = s.version := rfl
@[simp] theorem completeDone_lenLo (s : State) : s.completeDone.lenLo = s.lenLo := rfl
@[simp] theorem completeDone_lenHi (s : State) : s.completeDone.lenHi = s.lenHi := rfl
@[simp] theorem completeDone_bpNbits (s : State) : s.completeDone.bpNbits = s.bpNbits := rfl
@[simp] theorem completeDone_bpValLo (s : State) : s.completeDone.bpValLo = s.bpValLo := rfl
@[simp] theorem completeDone_bpValHi (s : State) : s.completeDone.bpValHi = s.bpValHi := rfl
@[simp] theorem completeDone_bpPos (s : State) : s.completeDone.bpPos = s.bpPos := rfl
@[simp] theorem completeDone_pending (s : State) : s.completeDone.pending = none := rfl
@[simp] theorem completeDone_mem (s : State) : s.completeDone.mem = s.mem := rfl
@[simp] theorem completeDone_dcwBits (s : State) : s.completeDone.dcwBits = s.dcwBits := rfl
@[simp] theorem completeDone_events (s : State) : s.completeDone.events = s.events := rfl
@[simp] theorem completeDone_trace (s : State) : s.completeDone.trace = s.trace := rfl
@[simp] theorem completeDone_draws (s : State) : s.completeDone.draws = s.draws := rfl

/-! ### `State.completeError` -/

@[simp] theorem completeError_lastCmd (s : State) (e : ErrCode) : (s.completeError e).lastCmd = s.lastCmd := rfl
@[simp] theorem completeError_done (s : State) (e : ErrCode) : (s.completeError e).done = false := rfl
@[simp] theorem completeError_err (s : State) (e : ErrCode) : (s.completeError e).err = true := rfl
@[simp] theorem completeError_wign (s : State) (e : ErrCode) : (s.completeError e).wign = s.wign := rfl
@[simp] theorem completeError_errcode (s : State) (e : ErrCode) : (s.completeError e).errcode = e.code := rfl
@[simp] theorem completeError_stage (s : State) (e : ErrCode) : (s.completeError e).stage = s.stage := rfl
@[simp] theorem completeError_opa (s : State) (e : ErrCode) : (s.completeError e).opa = s.opa := rfl
@[simp] theorem completeError_opb (s : State) (e : ErrCode) : (s.completeError e).opb = s.opb := rfl
@[simp] theorem completeError_res (s : State) (e : ErrCode) : (s.completeError e).res = s.res := rfl
@[simp] theorem completeError_k (s : State) (e : ErrCode) : (s.completeError e).k = s.k := rfl
@[simp] theorem completeError_plen (s : State) (e : ErrCode) : (s.completeError e).plen = s.plen := rfl
@[simp] theorem completeError_version (s : State) (e : ErrCode) : (s.completeError e).version = s.version := rfl
@[simp] theorem completeError_lenLo (s : State) (e : ErrCode) : (s.completeError e).lenLo = s.lenLo := rfl
@[simp] theorem completeError_lenHi (s : State) (e : ErrCode) : (s.completeError e).lenHi = s.lenHi := rfl
@[simp] theorem completeError_bpNbits (s : State) (e : ErrCode) : (s.completeError e).bpNbits = s.bpNbits := rfl
@[simp] theorem completeError_bpValLo (s : State) (e : ErrCode) : (s.completeError e).bpValLo = s.bpValLo := rfl
@[simp] theorem completeError_bpValHi (s : State) (e : ErrCode) : (s.completeError e).bpValHi = s.bpValHi := rfl
@[simp] theorem completeError_bpPos (s : State) (e : ErrCode) : (s.completeError e).bpPos = s.bpPos := rfl
@[simp] theorem completeError_pending (s : State) (e : ErrCode) : (s.completeError e).pending = none := rfl
@[simp] theorem completeError_mem (s : State) (e : ErrCode) : (s.completeError e).mem = s.mem := rfl
@[simp] theorem completeError_dcwBits (s : State) (e : ErrCode) : (s.completeError e).dcwBits = s.dcwBits := rfl
@[simp] theorem completeError_events (s : State) (e : ErrCode) : (s.completeError e).events = s.events := rfl
@[simp] theorem completeError_trace (s : State) (e : ErrCode) : (s.completeError e).trace = s.trace := rfl
@[simp] theorem completeError_draws (s : State) (e : ErrCode) : (s.completeError e).draws = s.draws := rfl

/-! ### `State.accept` -/

@[simp] theorem accept_lastCmd (s : State) (v : Byte) : (s.accept v).lastCmd = v := rfl
@[simp] theorem accept_done (s : State) (v : Byte) : (s.accept v).done = false := rfl
@[simp] theorem accept_err (s : State) (v : Byte) : (s.accept v).err = false := rfl
@[simp] theorem accept_wign (s : State) (v : Byte) : (s.accept v).wign = s.wign := rfl
@[simp] theorem accept_errcode (s : State) (v : Byte) : (s.accept v).errcode = 0x00 := rfl
@[simp] theorem accept_stage (s : State) (v : Byte) : (s.accept v).stage = s.stage := rfl
@[simp] theorem accept_opa (s : State) (v : Byte) : (s.accept v).opa = s.opa := rfl
@[simp] theorem accept_opb (s : State) (v : Byte) : (s.accept v).opb = s.opb := rfl
@[simp] theorem accept_res (s : State) (v : Byte) : (s.accept v).res = s.res := rfl
@[simp] theorem accept_k (s : State) (v : Byte) : (s.accept v).k = s.k := rfl
@[simp] theorem accept_plen (s : State) (v : Byte) : (s.accept v).plen = s.plen := rfl
@[simp] theorem accept_version (s : State) (v : Byte) : (s.accept v).version = s.version := rfl
@[simp] theorem accept_lenLo (s : State) (v : Byte) : (s.accept v).lenLo = s.lenLo := rfl
@[simp] theorem accept_lenHi (s : State) (v : Byte) : (s.accept v).lenHi = s.lenHi := rfl
@[simp] theorem accept_bpNbits (s : State) (v : Byte) : (s.accept v).bpNbits = s.bpNbits := rfl
@[simp] theorem accept_bpValLo (s : State) (v : Byte) : (s.accept v).bpValLo = s.bpValLo := rfl
@[simp] theorem accept_bpValHi (s : State) (v : Byte) : (s.accept v).bpValHi = s.bpValHi := rfl
@[simp] theorem accept_bpPos (s : State) (v : Byte) : (s.accept v).bpPos = s.bpPos := rfl
@[simp] theorem accept_pending (s : State) (v : Byte) : (s.accept v).pending = some v := rfl
@[simp] theorem accept_mem (s : State) (v : Byte) : (s.accept v).mem = s.mem := rfl
@[simp] theorem accept_dcwBits (s : State) (v : Byte) : (s.accept v).dcwBits = s.dcwBits := rfl
@[simp] theorem accept_events (s : State) (v : Byte) : (s.accept v).events = s.events := rfl
@[simp] theorem accept_trace (s : State) (v : Byte) : (s.accept v).trace = s.trace := rfl
@[simp] theorem accept_draws (s : State) (v : Byte) : (s.accept v).draws = s.draws := rfl

/-! ### `State.store` -/

@[simp] theorem store_lastCmd (s : State) (cells : Memory) : (s.store cells).lastCmd = s.lastCmd := rfl
@[simp] theorem store_done (s : State) (cells : Memory) : (s.store cells).done = s.done := rfl
@[simp] theorem store_err (s : State) (cells : Memory) : (s.store cells).err = s.err := rfl
@[simp] theorem store_wign (s : State) (cells : Memory) : (s.store cells).wign = s.wign := rfl
@[simp] theorem store_errcode (s : State) (cells : Memory) : (s.store cells).errcode = s.errcode := rfl
@[simp] theorem store_stage (s : State) (cells : Memory) : (s.store cells).stage = s.stage := rfl
@[simp] theorem store_opa (s : State) (cells : Memory) : (s.store cells).opa = s.opa := rfl
@[simp] theorem store_opb (s : State) (cells : Memory) : (s.store cells).opb = s.opb := rfl
@[simp] theorem store_res (s : State) (cells : Memory) : (s.store cells).res = s.res := rfl
@[simp] theorem store_k (s : State) (cells : Memory) : (s.store cells).k = s.k := rfl
@[simp] theorem store_plen (s : State) (cells : Memory) : (s.store cells).plen = s.plen := rfl
@[simp] theorem store_version (s : State) (cells : Memory) : (s.store cells).version = s.version := rfl
@[simp] theorem store_lenLo (s : State) (cells : Memory) : (s.store cells).lenLo = s.lenLo := rfl
@[simp] theorem store_lenHi (s : State) (cells : Memory) : (s.store cells).lenHi = s.lenHi := rfl
@[simp] theorem store_bpNbits (s : State) (cells : Memory) : (s.store cells).bpNbits = s.bpNbits := rfl
@[simp] theorem store_bpValLo (s : State) (cells : Memory) : (s.store cells).bpValLo = s.bpValLo := rfl
@[simp] theorem store_bpValHi (s : State) (cells : Memory) : (s.store cells).bpValHi = s.bpValHi := rfl
@[simp] theorem store_bpPos (s : State) (cells : Memory) : (s.store cells).bpPos = s.bpPos := rfl
@[simp] theorem store_pending (s : State) (cells : Memory) : (s.store cells).pending = s.pending := rfl
@[simp] theorem store_mem (s : State) (cells : Memory) : (s.store cells).mem = memOverlay cells s.mem := rfl
@[simp] theorem store_dcwBits (s : State) (cells : Memory) : (s.store cells).dcwBits = s.dcwBits := rfl
@[simp] theorem store_events (s : State) (cells : Memory) : (s.store cells).events = s.events := rfl
@[simp] theorem store_trace (s : State) (cells : Memory) : (s.store cells).trace = s.trace := rfl
@[simp] theorem store_draws (s : State) (cells : Memory) : (s.store cells).draws = s.draws := rfl

/-! ### `State.hostStore` -/

@[simp] theorem hostStore_lastCmd (s : State) (a : Nat) (v : Byte) : (s.hostStore a v).lastCmd = s.lastCmd := rfl
@[simp] theorem hostStore_done (s : State) (a : Nat) (v : Byte) : (s.hostStore a v).done = s.done := rfl
@[simp] theorem hostStore_err (s : State) (a : Nat) (v : Byte) : (s.hostStore a v).err = s.err := rfl
@[simp] theorem hostStore_wign (s : State) (a : Nat) (v : Byte) : (s.hostStore a v).wign = s.wign := rfl
@[simp] theorem hostStore_errcode (s : State) (a : Nat) (v : Byte) : (s.hostStore a v).errcode = s.errcode := rfl
@[simp] theorem hostStore_stage (s : State) (a : Nat) (v : Byte) : (s.hostStore a v).stage = s.stage := rfl
@[simp] theorem hostStore_opa (s : State) (a : Nat) (v : Byte) : (s.hostStore a v).opa = s.opa := rfl
@[simp] theorem hostStore_opb (s : State) (a : Nat) (v : Byte) : (s.hostStore a v).opb = s.opb := rfl
@[simp] theorem hostStore_res (s : State) (a : Nat) (v : Byte) : (s.hostStore a v).res = s.res := rfl
@[simp] theorem hostStore_k (s : State) (a : Nat) (v : Byte) : (s.hostStore a v).k = s.k := rfl
@[simp] theorem hostStore_plen (s : State) (a : Nat) (v : Byte) : (s.hostStore a v).plen = s.plen := rfl
@[simp] theorem hostStore_version (s : State) (a : Nat) (v : Byte) : (s.hostStore a v).version = s.version := rfl
@[simp] theorem hostStore_lenLo (s : State) (a : Nat) (v : Byte) : (s.hostStore a v).lenLo = s.lenLo := rfl
@[simp] theorem hostStore_lenHi (s : State) (a : Nat) (v : Byte) : (s.hostStore a v).lenHi = s.lenHi := rfl
@[simp] theorem hostStore_bpNbits (s : State) (a : Nat) (v : Byte) : (s.hostStore a v).bpNbits = s.bpNbits := rfl
@[simp] theorem hostStore_bpValLo (s : State) (a : Nat) (v : Byte) : (s.hostStore a v).bpValLo = s.bpValLo := rfl
@[simp] theorem hostStore_bpValHi (s : State) (a : Nat) (v : Byte) : (s.hostStore a v).bpValHi = s.bpValHi := rfl
@[simp] theorem hostStore_bpPos (s : State) (a : Nat) (v : Byte) : (s.hostStore a v).bpPos = s.bpPos := rfl
@[simp] theorem hostStore_pending (s : State) (a : Nat) (v : Byte) : (s.hostStore a v).pending = s.pending := rfl
@[simp] theorem hostStore_mem (s : State) (a : Nat) (v : Byte) : (s.hostStore a v).mem = memOverlay [(a, v)] s.mem := rfl
@[simp] theorem hostStore_dcwBits (s : State) (a : Nat) (v : Byte) : (s.hostStore a v).dcwBits = s.dcwBits.filter fun e => dcwBase + e.1 / 8 != a := rfl
@[simp] theorem hostStore_events (s : State) (a : Nat) (v : Byte) : (s.hostStore a v).events = s.events := rfl
@[simp] theorem hostStore_trace (s : State) (a : Nat) (v : Byte) : (s.hostStore a v).trace = s.trace := rfl
@[simp] theorem hostStore_draws (s : State) (a : Nat) (v : Byte) : (s.hostStore a v).draws = s.draws := rfl

/-! ### `State.setRes` -/

@[simp] theorem setRes_lastCmd (s : State) (v : Byte) : (s.setRes v).lastCmd = s.lastCmd := rfl
@[simp] theorem setRes_done (s : State) (v : Byte) : (s.setRes v).done = s.done := rfl
@[simp] theorem setRes_err (s : State) (v : Byte) : (s.setRes v).err = s.err := rfl
@[simp] theorem setRes_wign (s : State) (v : Byte) : (s.setRes v).wign = s.wign := rfl
@[simp] theorem setRes_errcode (s : State) (v : Byte) : (s.setRes v).errcode = s.errcode := rfl
@[simp] theorem setRes_stage (s : State) (v : Byte) : (s.setRes v).stage = s.stage := rfl
@[simp] theorem setRes_opa (s : State) (v : Byte) : (s.setRes v).opa = s.opa := rfl
@[simp] theorem setRes_opb (s : State) (v : Byte) : (s.setRes v).opb = s.opb := rfl
@[simp] theorem setRes_res (s : State) (v : Byte) : (s.setRes v).res = v := rfl
@[simp] theorem setRes_k (s : State) (v : Byte) : (s.setRes v).k = s.k := rfl
@[simp] theorem setRes_plen (s : State) (v : Byte) : (s.setRes v).plen = s.plen := rfl
@[simp] theorem setRes_version (s : State) (v : Byte) : (s.setRes v).version = s.version := rfl
@[simp] theorem setRes_lenLo (s : State) (v : Byte) : (s.setRes v).lenLo = s.lenLo := rfl
@[simp] theorem setRes_lenHi (s : State) (v : Byte) : (s.setRes v).lenHi = s.lenHi := rfl
@[simp] theorem setRes_bpNbits (s : State) (v : Byte) : (s.setRes v).bpNbits = s.bpNbits := rfl
@[simp] theorem setRes_bpValLo (s : State) (v : Byte) : (s.setRes v).bpValLo = s.bpValLo := rfl
@[simp] theorem setRes_bpValHi (s : State) (v : Byte) : (s.setRes v).bpValHi = s.bpValHi := rfl
@[simp] theorem setRes_bpPos (s : State) (v : Byte) : (s.setRes v).bpPos = s.bpPos := rfl
@[simp] theorem setRes_pending (s : State) (v : Byte) : (s.setRes v).pending = s.pending := rfl
@[simp] theorem setRes_mem (s : State) (v : Byte) : (s.setRes v).mem = s.mem := rfl
@[simp] theorem setRes_dcwBits (s : State) (v : Byte) : (s.setRes v).dcwBits = s.dcwBits := rfl
@[simp] theorem setRes_events (s : State) (v : Byte) : (s.setRes v).events = s.events := rfl
@[simp] theorem setRes_trace (s : State) (v : Byte) : (s.setRes v).trace = s.trace := rfl
@[simp] theorem setRes_draws (s : State) (v : Byte) : (s.setRes v).draws = s.draws := rfl

/-! ### `State.setStage` -/

@[simp] theorem setStage_lastCmd (s : State) (v : Byte) : (s.setStage v).lastCmd = s.lastCmd := rfl
@[simp] theorem setStage_done (s : State) (v : Byte) : (s.setStage v).done = s.done := rfl
@[simp] theorem setStage_err (s : State) (v : Byte) : (s.setStage v).err = s.err := rfl
@[simp] theorem setStage_wign (s : State) (v : Byte) : (s.setStage v).wign = s.wign := rfl
@[simp] theorem setStage_errcode (s : State) (v : Byte) : (s.setStage v).errcode = s.errcode := rfl
@[simp] theorem setStage_stage (s : State) (v : Byte) : (s.setStage v).stage = v := rfl
@[simp] theorem setStage_opa (s : State) (v : Byte) : (s.setStage v).opa = s.opa := rfl
@[simp] theorem setStage_opb (s : State) (v : Byte) : (s.setStage v).opb = s.opb := rfl
@[simp] theorem setStage_res (s : State) (v : Byte) : (s.setStage v).res = s.res := rfl
@[simp] theorem setStage_k (s : State) (v : Byte) : (s.setStage v).k = s.k := rfl
@[simp] theorem setStage_plen (s : State) (v : Byte) : (s.setStage v).plen = s.plen := rfl
@[simp] theorem setStage_version (s : State) (v : Byte) : (s.setStage v).version = s.version := rfl
@[simp] theorem setStage_lenLo (s : State) (v : Byte) : (s.setStage v).lenLo = s.lenLo := rfl
@[simp] theorem setStage_lenHi (s : State) (v : Byte) : (s.setStage v).lenHi = s.lenHi := rfl
@[simp] theorem setStage_bpNbits (s : State) (v : Byte) : (s.setStage v).bpNbits = s.bpNbits := rfl
@[simp] theorem setStage_bpValLo (s : State) (v : Byte) : (s.setStage v).bpValLo = s.bpValLo := rfl
@[simp] theorem setStage_bpValHi (s : State) (v : Byte) : (s.setStage v).bpValHi = s.bpValHi := rfl
@[simp] theorem setStage_bpPos (s : State) (v : Byte) : (s.setStage v).bpPos = s.bpPos := rfl
@[simp] theorem setStage_pending (s : State) (v : Byte) : (s.setStage v).pending = s.pending := rfl
@[simp] theorem setStage_mem (s : State) (v : Byte) : (s.setStage v).mem = s.mem := rfl
@[simp] theorem setStage_dcwBits (s : State) (v : Byte) : (s.setStage v).dcwBits = s.dcwBits := rfl
@[simp] theorem setStage_events (s : State) (v : Byte) : (s.setStage v).events = s.events := rfl
@[simp] theorem setStage_trace (s : State) (v : Byte) : (s.setStage v).trace = s.trace := rfl
@[simp] theorem setStage_draws (s : State) (v : Byte) : (s.setStage v).draws = s.draws := rfl

/-! ### `State.ignoreWrite` -/

@[simp] theorem ignoreWrite_lastCmd (s : State) : s.ignoreWrite.lastCmd = s.lastCmd := rfl
@[simp] theorem ignoreWrite_done (s : State) : s.ignoreWrite.done = s.done := rfl
@[simp] theorem ignoreWrite_err (s : State) : s.ignoreWrite.err = s.err := rfl
@[simp] theorem ignoreWrite_wign (s : State) : s.ignoreWrite.wign = true := rfl
@[simp] theorem ignoreWrite_errcode (s : State) : s.ignoreWrite.errcode = s.errcode := rfl
@[simp] theorem ignoreWrite_stage (s : State) : s.ignoreWrite.stage = s.stage := rfl
@[simp] theorem ignoreWrite_opa (s : State) : s.ignoreWrite.opa = s.opa := rfl
@[simp] theorem ignoreWrite_opb (s : State) : s.ignoreWrite.opb = s.opb := rfl
@[simp] theorem ignoreWrite_res (s : State) : s.ignoreWrite.res = s.res := rfl
@[simp] theorem ignoreWrite_k (s : State) : s.ignoreWrite.k = s.k := rfl
@[simp] theorem ignoreWrite_plen (s : State) : s.ignoreWrite.plen = s.plen := rfl
@[simp] theorem ignoreWrite_version (s : State) : s.ignoreWrite.version = s.version := rfl
@[simp] theorem ignoreWrite_lenLo (s : State) : s.ignoreWrite.lenLo = s.lenLo := rfl
@[simp] theorem ignoreWrite_lenHi (s : State) : s.ignoreWrite.lenHi = s.lenHi := rfl
@[simp] theorem ignoreWrite_bpNbits (s : State) : s.ignoreWrite.bpNbits = s.bpNbits := rfl
@[simp] theorem ignoreWrite_bpValLo (s : State) : s.ignoreWrite.bpValLo = s.bpValLo := rfl
@[simp] theorem ignoreWrite_bpValHi (s : State) : s.ignoreWrite.bpValHi = s.bpValHi := rfl
@[simp] theorem ignoreWrite_bpPos (s : State) : s.ignoreWrite.bpPos = s.bpPos := rfl
@[simp] theorem ignoreWrite_pending (s : State) : s.ignoreWrite.pending = s.pending := rfl
@[simp] theorem ignoreWrite_mem (s : State) : s.ignoreWrite.mem = s.mem := rfl
@[simp] theorem ignoreWrite_dcwBits (s : State) : s.ignoreWrite.dcwBits = s.dcwBits := rfl
@[simp] theorem ignoreWrite_events (s : State) : s.ignoreWrite.events = s.events := rfl
@[simp] theorem ignoreWrite_trace (s : State) : s.ignoreWrite.trace = s.trace := rfl
@[simp] theorem ignoreWrite_draws (s : State) : s.ignoreWrite.draws = s.draws := rfl

/-! ### `State.log` -/

@[simp] theorem log_lastCmd (s : State) (x : Txn) : (s.log x).lastCmd = s.lastCmd := rfl
@[simp] theorem log_done (s : State) (x : Txn) : (s.log x).done = s.done := rfl
@[simp] theorem log_err (s : State) (x : Txn) : (s.log x).err = s.err := rfl
@[simp] theorem log_wign (s : State) (x : Txn) : (s.log x).wign = s.wign := rfl
@[simp] theorem log_errcode (s : State) (x : Txn) : (s.log x).errcode = s.errcode := rfl
@[simp] theorem log_stage (s : State) (x : Txn) : (s.log x).stage = s.stage := rfl
@[simp] theorem log_opa (s : State) (x : Txn) : (s.log x).opa = s.opa := rfl
@[simp] theorem log_opb (s : State) (x : Txn) : (s.log x).opb = s.opb := rfl
@[simp] theorem log_res (s : State) (x : Txn) : (s.log x).res = s.res := rfl
@[simp] theorem log_k (s : State) (x : Txn) : (s.log x).k = s.k := rfl
@[simp] theorem log_plen (s : State) (x : Txn) : (s.log x).plen = s.plen := rfl
@[simp] theorem log_version (s : State) (x : Txn) : (s.log x).version = s.version := rfl
@[simp] theorem log_lenLo (s : State) (x : Txn) : (s.log x).lenLo = s.lenLo := rfl
@[simp] theorem log_lenHi (s : State) (x : Txn) : (s.log x).lenHi = s.lenHi := rfl
@[simp] theorem log_bpNbits (s : State) (x : Txn) : (s.log x).bpNbits = s.bpNbits := rfl
@[simp] theorem log_bpValLo (s : State) (x : Txn) : (s.log x).bpValLo = s.bpValLo := rfl
@[simp] theorem log_bpValHi (s : State) (x : Txn) : (s.log x).bpValHi = s.bpValHi := rfl
@[simp] theorem log_bpPos (s : State) (x : Txn) : (s.log x).bpPos = s.bpPos := rfl
@[simp] theorem log_pending (s : State) (x : Txn) : (s.log x).pending = s.pending := rfl
@[simp] theorem log_mem (s : State) (x : Txn) : (s.log x).mem = s.mem := rfl
@[simp] theorem log_dcwBits (s : State) (x : Txn) : (s.log x).dcwBits = s.dcwBits := rfl
@[simp] theorem log_events (s : State) (x : Txn) : (s.log x).events = s.events := rfl
@[simp] theorem log_trace (s : State) (x : Txn) : (s.log x).trace = x :: s.trace := rfl
@[simp] theorem log_draws (s : State) (x : Txn) : (s.log x).draws = s.draws := rfl

/-! ### `State.resetInput` -/

@[simp] theorem resetInput_lastCmd (s : State) : s.resetInput.lastCmd = State.reset.lastCmd := rfl
@[simp] theorem resetInput_done (s : State) : s.resetInput.done = State.reset.done := rfl
@[simp] theorem resetInput_err (s : State) : s.resetInput.err = State.reset.err := rfl
@[simp] theorem resetInput_wign (s : State) : s.resetInput.wign = State.reset.wign := rfl
@[simp] theorem resetInput_errcode (s : State) : s.resetInput.errcode = State.reset.errcode := rfl
@[simp] theorem resetInput_stage (s : State) : s.resetInput.stage = State.reset.stage := rfl
@[simp] theorem resetInput_opa (s : State) : s.resetInput.opa = State.reset.opa := rfl
@[simp] theorem resetInput_opb (s : State) : s.resetInput.opb = State.reset.opb := rfl
@[simp] theorem resetInput_res (s : State) : s.resetInput.res = State.reset.res := rfl
@[simp] theorem resetInput_k (s : State) : s.resetInput.k = State.reset.k := rfl
@[simp] theorem resetInput_plen (s : State) : s.resetInput.plen = State.reset.plen := rfl
@[simp] theorem resetInput_version (s : State) : s.resetInput.version = State.reset.version := rfl
@[simp] theorem resetInput_lenLo (s : State) : s.resetInput.lenLo = State.reset.lenLo := rfl
@[simp] theorem resetInput_lenHi (s : State) : s.resetInput.lenHi = State.reset.lenHi := rfl
@[simp] theorem resetInput_bpNbits (s : State) : s.resetInput.bpNbits = State.reset.bpNbits := rfl
@[simp] theorem resetInput_bpValLo (s : State) : s.resetInput.bpValLo = State.reset.bpValLo := rfl
@[simp] theorem resetInput_bpValHi (s : State) : s.resetInput.bpValHi = State.reset.bpValHi := rfl
@[simp] theorem resetInput_bpPos (s : State) : s.resetInput.bpPos = State.reset.bpPos := rfl
@[simp] theorem resetInput_pending (s : State) : s.resetInput.pending = State.reset.pending := rfl
@[simp] theorem resetInput_mem (s : State) : s.resetInput.mem = State.reset.mem := rfl
@[simp] theorem resetInput_dcwBits (s : State) : s.resetInput.dcwBits = State.reset.dcwBits := rfl
@[simp] theorem resetInput_events (s : State) : s.resetInput.events = s.events := rfl
@[simp] theorem resetInput_trace (s : State) : s.resetInput.trace = s.trace := rfl
@[simp] theorem resetInput_draws (s : State) : s.resetInput.draws = s.draws := rfl

/-! ### `State.failed` -/

@[simp] theorem failed_lastCmd (s : State) (c : Byte) : (s.failed c).lastCmd = s.lastCmd := rfl
@[simp] theorem failed_done (s : State) (c : Byte) : (s.failed c).done = false := rfl
@[simp] theorem failed_err (s : State) (c : Byte) : (s.failed c).err = true := rfl
@[simp] theorem failed_wign (s : State) (c : Byte) : (s.failed c).wign = s.wign := rfl
@[simp] theorem failed_errcode (s : State) (c : Byte) : (s.failed c).errcode = c := rfl
@[simp] theorem failed_stage (s : State) (c : Byte) : (s.failed c).stage = s.stage := rfl
@[simp] theorem failed_opa (s : State) (c : Byte) : (s.failed c).opa = s.opa := rfl
@[simp] theorem failed_opb (s : State) (c : Byte) : (s.failed c).opb = s.opb := rfl
@[simp] theorem failed_res (s : State) (c : Byte) : (s.failed c).res = s.res := rfl
@[simp] theorem failed_k (s : State) (c : Byte) : (s.failed c).k = s.k := rfl
@[simp] theorem failed_plen (s : State) (c : Byte) : (s.failed c).plen = s.plen := rfl
@[simp] theorem failed_version (s : State) (c : Byte) : (s.failed c).version = s.version := rfl
@[simp] theorem failed_lenLo (s : State) (c : Byte) : (s.failed c).lenLo = s.lenLo := rfl
@[simp] theorem failed_lenHi (s : State) (c : Byte) : (s.failed c).lenHi = s.lenHi := rfl
@[simp] theorem failed_bpNbits (s : State) (c : Byte) : (s.failed c).bpNbits = s.bpNbits := rfl
@[simp] theorem failed_bpValLo (s : State) (c : Byte) : (s.failed c).bpValLo = s.bpValLo := rfl
@[simp] theorem failed_bpValHi (s : State) (c : Byte) : (s.failed c).bpValHi = s.bpValHi := rfl
@[simp] theorem failed_bpPos (s : State) (c : Byte) : (s.failed c).bpPos = s.bpPos := rfl
@[simp] theorem failed_pending (s : State) (c : Byte) : (s.failed c).pending = none := rfl
@[simp] theorem failed_mem (s : State) (c : Byte) : (s.failed c).mem = s.mem := rfl
@[simp] theorem failed_dcwBits (s : State) (c : Byte) : (s.failed c).dcwBits = s.dcwBits := rfl
@[simp] theorem failed_events (s : State) (c : Byte) : (s.failed c).events = s.events := rfl
@[simp] theorem failed_trace (s : State) (c : Byte) : (s.failed c).trace = s.trace := rfl
@[simp] theorem failed_draws (s : State) (c : Byte) : (s.failed c).draws = s.draws := rfl

end Sys2Proof.Laws
end

