-- ==== Sys2Proof/Laws/Ops.lean ====
section
/-! SUPPORT. For each shared operation, once, everything it can do: completion, loads, the operand checks, sequencing; and
that every memory operation keeps the canonical form. -/

namespace Sys2Proof.Laws

open Sys2Proof.Machine

/-! ### Completion and sequencing -/

/-- A core step answers a next state exactly when its body ended by completing or by raising (R310). -/
theorem finish_next_iff (r : Except Stop State) (t : State) :
    finish r = .next t ↔
      (∃ u, r = .ok u ∧ t = u.completeDone) ∨ (∃ e u, r = .error (.raised e u) ∧ t = u.completeError e) := by
  rcases r with (⟨e, u⟩ | f) | u <;> simp [finish, eq_comm]

/-- A core step faults exactly when its body did. -/
theorem finish_fault_iff (r : Except Stop State) (f : Fault) : finish r = .fault f ↔ r = .error (.fault f) := by
  rcases r with (⟨e, u⟩ | g) | u <;> simp [finish]

/-- No core step is refused. -/
theorem finish_not_refused (r : Except Stop State) (x : Refusal) : finish r ≠ .refused x := by
  rcases r with (⟨e, u⟩ | g) | u <;> simp [finish]

theorem andThen_ok_iff (first second : Body) (s t : State) :
    first.andThen second s = .ok t ↔ ∃ u, first s = .ok u ∧ second u = .ok t := by
  unfold Body.andThen
  cases first s <;> simp

theorem andThen_error_iff (first second : Body) (s : State) (x : Stop) :
    first.andThen second s = .error x ↔ first s = .error x ∨ ∃ u, first s = .ok u ∧ second u = .error x := by
  unfold Body.andThen
  cases first s <;> simp

theorem completeError_eq_failed (s : State) (e : ErrCode) : s.completeError e = s.failed e.code := rfl

/-- An error code is one of 1 to 8 (R312). -/
theorem code_range (e : ErrCode) : 1 ≤ e.code.toNat ∧ e.code.toNat ≤ 8 := by cases e <;> decide

/-! ### Address lists -/

theorem addrsRise_mono {lo lo' : Nat} {as : List Nat} (h : addrsRise lo as) (hle : lo' ≤ lo) : addrsRise lo' as := by
  cases as with
  | nil => trivial
  | cons a as => exact ⟨Nat.le_trans hle h.1, h.2⟩

theorem addrRange_succ (base n : Nat) : addrRange base (n + 1) = base :: addrRange (base + 1) n := by
  simp only [addrRange, List.range_succ_eq_map, List.map_cons, List.map_map, Nat.add_zero]
  congr 1
  apply List.map_congr_left
  intro i _
  simp only [Function.comp_apply]
  omega

theorem addrsRise_addrRange (base n : Nat) : addrsRise base (addrRange base n) := by
  induction n generalizing base with
  | zero => trivial
  | succ n ih => rw [addrRange_succ]; exact ⟨le_rfl, ih (base + 1)⟩

theorem addrRange_length (base n : Nat) : (addrRange base n).length = n := by simp [addrRange]

/-! ### Consecutive cells -/

theorem risingFrom_cellsAt {α : Type} (base : Nat) (bytes : List α) : risingFrom base (cellsAt base bytes) = true := by
  induction bytes generalizing base with
  | nil => rfl
  | cons b bytes ih => rw [cellsAt, risingFrom_cons]; exact ⟨le_rfl, ih (base + 1)⟩

/-- What a read finds among consecutive cells. -/
theorem memRead_cellsAt {α : Type} (base : Nat) (bytes : List α) (a : Nat) :
    memRead (cellsAt base bytes) a = if base ≤ a then bytes[a - base]? else none := by
  induction bytes generalizing base with
  | nil => simp [cellsAt]
  | cons b bytes ih =>
    rw [cellsAt, memRead_cons, ih]
    by_cases h : base = a
    · subst h; simp
    · by_cases hlt : base ≤ a
      · rw [if_neg h, if_pos (by omega), if_pos hlt, show a - base = (a - (base + 1)) + 1 by omega, List.getElem?_cons_succ]
      · rw [if_neg h, if_neg (by omega), if_neg hlt]

theorem mem_cellsAt {α : Type} {base : Nat} {bytes : List α} {e : Nat × α} (h : e ∈ cellsAt base bytes) :
    base ≤ e.1 ∧ e.1 < base + bytes.length := by
  induction bytes generalizing base with
  | nil => simp [cellsAt] at h
  | cons b bytes ih =>
    rw [cellsAt, List.mem_cons] at h
    rcases h with rfl | h
    · simp
    · have := ih h; simp only [List.length_cons]; omega

/-! ### The canonical form -/

theorem isRam_iff (a : Nat) : isRam a = true ↔ (0x0200 ≤ a ∧ a < 0x0A80) ∨ (0x1000 ≤ a ∧ a < 0x2000) := by
  simp [isRam]


theorem wf_iff (m : Memory) : m.wf = true ↔ risingFrom 0 m = true ∧ ∀ e ∈ m, isRam e.1 = true := by
  simp [Memory.wf, List.all_eq_true]

theorem wf_rising {m : Memory} (h : m.wf = true) : risingFrom 0 m = true := ((wf_iff m).1 h).1

theorem reset_mem_wf : State.reset.mem.wf = true := rfl

theorem memRead_some_mem {α : Type} {m : List (Nat × α)} {a : Nat} {b : α} (h : memRead m a = some b) : (a, b) ∈ m := by
  induction m with
  | nil => simp at h
  | cons e m ih =>
    obtain ⟨k, x⟩ := e
    rw [memRead_cons] at h
    split at h
    · next hk => subst hk; simp at h; simp [h]
    · exact List.mem_cons_of_mem _ (ih h)

theorem memRead_of_mem {α : Type} {lo : Nat} {m : List (Nat × α)} (hm : risingFrom lo m = true) {a : Nat} {b : α}
    (h : (a, b) ∈ m) : memRead m a = some b := by
  induction m generalizing lo with
  | nil => simp at h
  | cons e m ih =>
    obtain ⟨k, x⟩ := e
    rw [risingFrom_cons] at hm
    rw [memRead_cons]
    rcases List.mem_cons.1 h with h | h
    · cases h; simp
    · have := ih hm.2 h
      rw [if_neg, this]
      rintro rfl
      rw [memRead_below hm.2 (by omega)] at this
      simp at this

/-- A written address is an address of RAM. -/
theorem wf_read_isRam {m : Memory} (h : m.wf = true) {a : Nat} {b : Byte} (hr : memRead m a = some b) :
    isRam a = true := ((wf_iff m).1 h).2 _ (memRead_some_mem hr)

/-- Canonical memories that read alike are equal. -/
theorem wf_ext {m n : Memory} (hm : m.wf = true) (hn : n.wf = true) (h : ∀ a, memRead m a = memRead n a) : m = n :=
  mem_ext (wf_rising hm) (wf_rising hn) h

/-- An overlay of canonical cells keeps the canonical form. -/
theorem wf_memOverlay {cells m : Memory} (hc : cells.wf = true) (hm : m.wf = true) : Memory.wf (memOverlay cells m) = true := by
  rw [wf_iff] at *
  have hr := risingFrom_memOverlay hc.1 hm.1
  refine ⟨hr, fun e he => ?_⟩
  obtain ⟨a, b⟩ := e
  have := memRead_of_mem hr he
  rw [memRead_memOverlay hc.1 hm.1] at this
  cases hca : memRead cells a with
  | some x => exact hc.2 (a, x) (memRead_some_mem hca)
  | none => rw [hca, Option.none_or] at this; exact hm.2 _ (memRead_some_mem this)

theorem wf_single {a : Nat} (b : Byte) (ha : isRam a = true) : Memory.wf [(a, b)] = true := by
  rw [wf_iff]; simp [ha, risingFrom]

theorem wf_cellsAt {base : Nat} {bytes : List Byte} (h : ∀ a, base ≤ a → a < base + bytes.length → isRam a = true) :
    Memory.wf (cellsAt base bytes) = true := by
  rw [wf_iff]
  refine ⟨risingFrom_mono (risingFrom_cellsAt base bytes) (Nat.zero_le _), fun e he => ?_⟩
  have := mem_cellsAt he
  exact h _ this.1 this.2

/-- The write set that program-order writes build. -/
theorem risingFrom_writeSet {α : Type} (writes : List (Nat × α)) {set : List (Nat × α)}
    (hs : risingFrom 0 set = true) :
    risingFrom 0 (writes.foldl (fun set w => memOverlay [w] set) set) = true := by
  induction writes generalizing set with
  | nil => exact hs
  | cons w writes ih => exact ih (risingFrom_memOverlay (by simp [risingFrom]) hs)

theorem memRead_writeSet {α : Type} (writes : List (Nat × α)) {set : List (Nat × α)} (hs : risingFrom 0 set = true)
    (a : Nat) :
    memRead (writes.foldl (fun set w => memOverlay [w] set) set) a = (memRead writes.reverse a).or (memRead set a) := by
  induction writes generalizing set with
  | nil => simp
  | cons w writes ih =>
    have hw : risingFrom 0 [w] = true := by simp [risingFrom]
    rw [List.foldl_cons, ih (risingFrom_memOverlay hw hs), memRead_memOverlay hw hs, List.reverse_cons, memRead_append,
      Option.or_assoc]

/-- What a read finds after writes in program order: the last write to that address, else what was there. -/
theorem memRead_memWriteAll {α : Type} (writes : List (Nat × α)) {m : List (Nat × α)} (hm : risingFrom 0 m = true)
    (a : Nat) : memRead (memWriteAll writes m) a = (memRead writes.reverse a).or (memRead m a) := by
  have h := risingFrom_writeSet writes (set := []) rfl
  rw [memWriteAll, memRead_memOverlay h hm, memRead_writeSet writes rfl]
  simp

theorem wf_memWriteAll {writes m : Memory} (hw : ∀ e ∈ writes, isRam e.1 = true) (hm : m.wf = true) :
    Memory.wf (memWriteAll writes m) = true := by
  have h := risingFrom_writeSet writes (set := []) rfl
  refine wf_memOverlay ((wf_iff _).2 ⟨h, fun e he => ?_⟩) hm
  obtain ⟨a, b⟩ := e
  have := memRead_of_mem h he
  rw [memRead_writeSet writes rfl, memRead_nil, Option.or_none] at this
  exact hw _ (List.mem_reverse.1 (memRead_some_mem this))

theorem wf_store {s : State} {cells : Memory} (hc : cells.wf = true) (hm : s.mem.wf = true) :
    (s.store cells).mem.wf = true := wf_memOverlay hc hm

theorem wf_hostStore {s : State} {a : Nat} (v : Byte) (ha : isRam a = true) (hm : s.mem.wf = true) :
    (s.hostStore a v).mem.wf = true := wf_memOverlay (wf_single v ha) hm

/-- What every RAM address reads as after a store. -/
theorem byteAt_store {s : State} {cells : Memory} (hc : risingFrom 0 cells = true) (hm : s.mem.wf = true) (a : Nat) :
    (s.store cells).byteAt a = (memRead cells a).or (s.byteAt a) :=
  memRead_memOverlay hc (wf_rising hm) a

/-! ### Loads and operand checks -/

/-- A load goes on with the bytes at its addresses, or faults at an unwritten one of them (R60). -/
theorem load_cases (s : State) (addrs : List Nat) (k : List Byte → Except Stop State) :
    (∃ bytes, memGather addrs s.mem = .ok bytes ∧ s.load addrs k = k bytes) ∨
      (∃ a, memGather addrs s.mem = .error a ∧ s.load addrs k = .error (.fault (.unwrittenRead a))) := by
  unfold State.load
  cases memGather addrs s.mem <;> simp

/-- A load from a canonical memory goes on with `bytes` when they stand at its rising addresses. -/
theorem load_of_reads {s : State} (hm : s.mem.wf = true) {lo : Nat} {addrs : List Nat} (ha : addrsRise lo addrs)
    {bytes : List Byte} (h : addrs.map s.byteAt = bytes.map some) (k : List Byte → Except Stop State) :
    s.load addrs k = k bytes := by
  unfold State.load
  rw [(memGather_ok_iff ha (wf_rising hm) bytes).2 h]

/-- The bytes a load goes on with are those at its addresses. -/
theorem load_reads {s : State} (hm : s.mem.wf = true) {lo : Nat} {addrs : List Nat} (ha : addrsRise lo addrs)
    {bytes : List Byte} (h : memGather addrs s.mem = .ok bytes) : addrs.map s.byteAt = bytes.map some :=
  (memGather_ok_iff ha (wf_rising hm) bytes).1 h

/-- The address a load faults at is unwritten and one of its addresses. -/
theorem memGather_error {α : Type} {lo lo' : Nat} {addrs : List Nat} {m : List (Nat × α)} (ha : addrsRise lo addrs)
    (hm : risingFrom lo' m = true) {a : Nat} (h : memGather addrs m = .error a) : a ∈ addrs ∧ memRead m a = none := by
  induction addrs generalizing lo lo' m with
  | nil => simp [memGather] at h
  | cons x addrs ih =>
    obtain ⟨_, ha⟩ := ha
    have hr := memRead_dropWhile_lt hm x x le_rfl
    have hd := risingFrom_dropWhile_lt hm x
    simp only [memGather] at h
    cases hmd : m.dropWhile (fun e => decide (e.1 < x)) with
    | nil =>
      rw [hmd] at h hr
      simp only [Except.error.injEq] at h
      subst h
      simp [← hr]
    | cons e rest =>
      obtain ⟨k, b⟩ := e
      rw [hmd] at h hr hd
      rw [risingFrom_cons] at hd
      by_cases hk : k = x
      · subst hk
        simp only [if_true] at h
        cases hg : memGather addrs rest with
        | ok bs => rw [hg] at h; simp [Except.map] at h
        | error y =>
          rw [hg] at h
          simp only [Except.map, Except.error.injEq] at h
          subst h
          have := ih ha hd.2 hg
          refine ⟨List.mem_cons_of_mem _ this.1, ?_⟩
          have hky := addrsRise_le ha this.1
          rw [← memRead_dropWhile_lt hm k y (by omega), hmd, memRead_cons, if_neg (by omega)]
          exact this.2
      · simp only [if_neg hk, Except.error.injEq] at h
        subst h
        refine ⟨List.mem_cons_self, ?_⟩
        rw [← hr, memRead_cons, if_neg hk, memRead_below hd.2 (by omega)]

theorem withVersion_valid {s : State} (h : validVersion s.ver = true) (k : Nat → Except Stop State) :
    s.withVersion k = k s.ver := by simp [State.withVersion, h]

theorem withVersion_invalid {s : State} (h : validVersion s.ver = false) (k : Nat → Except Stop State) :
    s.withVersion k = raise .badVersion s := by simp [State.withVersion, h]

theorem withK_valid {s : State} (h : 1 ≤ s.k.toNat ∧ s.k.toNat ≤ 64) (k : Nat → Except Stop State) :
    s.withK k = k s.k.toNat := by
  have : ¬(s.k.toNat = 0 ∨ s.k.toNat > Config.kMax) := by simp only [Config.kMax]; omega
  simp only [State.withK, if_neg this]

theorem withK_invalid {s : State} (h : s.k.toNat = 0 ∨ 64 < s.k.toNat) (k : Nat → Except Stop State) :
    s.withK k = raise .badK s := by
  have : s.k.toNat = 0 ∨ s.k.toNat > Config.kMax := h
  simp only [State.withK, if_pos this]

theorem withPoly_zero {s : State} (h : s.plen.toNat = 0) (k : List Byte → Except Stop State) :
    s.withPoly k = raise .badLen s := by simp only [State.withPoly, if_pos h]

theorem withPoly_pos {s : State} (h : s.plen.toNat ≠ 0) (k : List Byte → Except Stop State) :
    s.withPoly k = s.load (addrRange polyBase s.plen.toNat) k := by simp only [State.withPoly, if_neg h]

end Sys2Proof.Laws
end

