-- ==== Sys2Proof/Laws/BitStream.lean ====
section
/-! SUPPORT. The bit-packer (R130): what one `putBit` and one `put` change, what they leave alone, and that they keep the
canonical form. -/

namespace Sys2Proof.Laws

open Sys2Proof.Machine

/-- `t` differs from `s` at most in what the bit-packer writes: memory, the separate bits and BP_POS. -/
def OnlyPut (s t : State) : Prop := t = { s with mem := t.mem, dcwBits := t.dcwBits, bpPos := t.bpPos }

theorem OnlyPut.trans {s t u : State} (h1 : OnlyPut s t) (h2 : OnlyPut t u) : OnlyPut s u := by
  unfold OnlyPut at *
  rw [h2, h1]

/-- `putBit` changes memory, the separate bits and BP_POS, and no other field. -/
theorem putBit_fields (s : State) (b : Bool) :
    s.putBit b = { s with mem := (s.putBit b).mem, dcwBits := (s.putBit b).dcwBits, bpPos := s.bpPos + 1 } := by
  unfold State.putBit
  dsimp only
  split
  · rfl
  · split <;> rfl

@[simp] theorem putBit_bpPos (s : State) (b : Bool) : (s.putBit b).bpPos = s.bpPos + 1 := by
  rw [putBit_fields]

/-- The address of the DCW byte that holds stream bit `p` is an address of RAM. -/
theorem isRam_dcw {p : Nat} (h : p < 4096) : isRam (dcwBase + p / 8) = true := by
  rw [isRam_iff]; simp only [dcwBase]
  omega

/-- `putBit` writes no byte but the one that holds its bit. -/
theorem putBit_byteAt {s : State} (hm : s.mem.wf = true) (b : Bool) {a : Nat}
    (ha : a ≠ dcwBase + s.bpPos.toNat / 8) : (s.putBit b).byteAt a = s.byteAt a := by
  have key : ∀ x : Byte, memRead (memOverlay [(dcwBase + s.bpPos.toNat / 8, x)] s.mem) a = memRead s.mem a := by
    intro x
    rw [memRead_memOverlay (lo := 0) (by simp [risingFrom]) (wf_rising hm), memRead_cons, if_neg (Ne.symm ha)]
    simp
  unfold State.putBit State.byteAt
  dsimp only
  split
  · exact key _
  · split
    · exact key _
    · rfl

/-- `putBit` keeps the canonical form of memory. -/
theorem putBit_wf {s : State} (hm : s.mem.wf = true) (hp : s.bpPos.toNat < 4096) (b : Bool) :
    (s.putBit b).mem.wf = true := by
  unfold State.putBit
  dsimp only
  split
  · exact wf_memOverlay (wf_single _ (isRam_dcw hp)) hm
  · split
    · exact wf_memOverlay (wf_single _ (isRam_dcw hp)) hm
    · exact hm

/-- Below the end of DCW, `putBit` advances BP_POS by one, as a number. -/
theorem putBit_pos {s : State} (hp : s.bpPos.toNat < 4096) (b : Bool) :
    (s.putBit b).bpPos.toNat = s.bpPos.toNat + 1 := by
  rw [putBit_bpPos, BitVec.toNat_add]
  have : (1 : BitVec 13).toNat = 1 := rfl
  rw [this]
  omega

theorem putBit_onlyPut (s : State) (b : Bool) : OnlyPut s (s.putBit b) := by
  unfold OnlyPut
  rw [putBit_bpPos]
  exact putBit_fields s b

/-- A run of `putBit` changes nothing the bit-packer does not write. -/
theorem putBits_onlyPut (bits : List Bool) (s : State) : OnlyPut s (bits.foldl State.putBit s) := by
  induction bits generalizing s with
  | nil => rfl
  | cons b bits ih => exact (putBit_onlyPut s b).trans (ih _)

/-- What a run of `putBit` that stays inside DCW does: BP_POS advances by its length, memory stays canonical and no byte
changes but those that hold its bits. -/
theorem putBits_spec (bits : List Bool) {s : State} (hm : s.mem.wf = true) (hp : s.bpPos.toNat + bits.length ≤ 4096) :
    (bits.foldl State.putBit s).bpPos.toNat = s.bpPos.toNat + bits.length ∧
      (bits.foldl State.putBit s).mem.wf = true ∧
      ∀ a, (∀ p, s.bpPos.toNat ≤ p → p < s.bpPos.toNat + bits.length → a ≠ dcwBase + p / 8) →
        (bits.foldl State.putBit s).byteAt a = s.byteAt a := by
  induction bits generalizing s with
  | nil => exact ⟨rfl, hm, fun _ _ => rfl⟩
  | cons b bits ih =>
    rw [List.length_cons] at hp
    have hlt : s.bpPos.toNat < 4096 := by omega
    have hpos := putBit_pos hlt b
    obtain ⟨h1, h2, h3⟩ := ih (putBit_wf hm hlt b) (by omega)
    rw [List.foldl_cons, List.length_cons]
    refine ⟨by omega, h2, fun a ha => ?_⟩
    rw [h3 a fun p hp1 hp2 => ha p (by omega) (by omega), putBit_byteAt hm b (ha _ le_rfl (by omega))]

theorem bitsOf_length (nb val : Nat) : (bitsOf nb val).length = nb := by simp [bitsOf]

/-- `put` changes nothing the bit-packer does not write. -/
theorem put_onlyPut (s : State) (val nb : Nat) : OnlyPut s (s.put val nb) := putBits_onlyPut _ s

/-- What a `put` that stays inside DCW does (R130). -/
theorem put_spec {s : State} (hm : s.mem.wf = true) (val nb : Nat) (hp : s.bpPos.toNat + nb ≤ 4096) :
    (s.put val nb).bpPos.toNat = s.bpPos.toNat + nb ∧ (s.put val nb).mem.wf = true ∧
      ∀ a, (∀ p, s.bpPos.toNat ≤ p → p < s.bpPos.toNat + nb → a ≠ dcwBase + p / 8) →
        (s.put val nb).byteAt a = s.byteAt a := by
  have h := putBits_spec (bitsOf nb val) hm (by rw [bitsOf_length]; exact hp)
  rw [bitsOf_length] at h
  exact h

end Sys2Proof.Laws
end

