-- ==== Sys2Proof/Laws/Codewords.lean ====
section
/-! SUPPORT. Lengths and address lists of the codeword commands: how long the generator polynomial and the remainder are,
that the addresses a command reads rise, and where its cells lie. -/

namespace Sys2Proof.Laws

open Sys2Proof.Machine

theorem polyAdd_length (p q : List Byte) : (polyAdd p q).length = min p.length q.length := by simp [polyAdd]

theorem polyScale_length (p : List Byte) (f : Byte) : (polyScale p f).length = p.length := by simp [polyScale]

theorem mulRoot_length (g : List Byte) (e : Byte) : (mulRoot g e).length = g.length + 1 := by
  simp [mulRoot, polyAdd_length, polyScale_length]

theorem genpoly_succ (k : Nat) : genpoly (k + 1) = mulRoot (genpoly k) (expAt k) := by
  simp [genpoly, List.range_succ]

/-- The generator polynomial of degree `k` has `k + 1` coefficients (R180). -/
theorem genpoly_length (k : Nat) : (genpoly k).length = k + 1 := by
  induction k with
  | zero => rfl
  | succ k ih => rw [genpoly_succ, mulRoot_length, ih]

theorem rsStep_length {g r : List Byte} {k : Nat} (hg : g.length = k + 1) (hr : r.length = k) (hk : 1 ≤ k) (d : Byte) :
    (rsStep g r d).length = k := by
  simp only [rsStep, polyAdd_length, polyScale_length, List.length_append, List.length_tail, List.length_cons,
    List.length_nil, hg, hr]
  omega

theorem rsSteps_length {g : List Byte} {k : Nat} (hg : g.length = k + 1) (hk : 1 ≤ k) (d r : List Byte)
    (hr : r.length = k) : (d.foldl (rsStep g) r).length = k := by
  induction d generalizing r with
  | nil => exact hr
  | cons x d ih => exact ih _ (rsStep_length hg hr hk x)

/-- The remainder for degree `k` has `k` bytes (R181). -/
theorem rsrem_length (d : List Byte) {k : Nat} (hk : 1 ≤ k) : (rsrem d k).length = k :=
  rsSteps_length (genpoly_length k) hk d _ (by simp)

theorem syndromes_length (c : List Byte) (k : Nat) : (syndromes c k).length = k := by simp [syndromes]

/-- The GEN cells of a legal degree are canonical memory (R183). -/
theorem wf_genCells {k : Nat} (hk : k ≤ 64) : Memory.wf (cellsAt genBase (genpoly k)) = true := by
  apply wf_cellsAt
  intro a h1 h2
  rw [genpoly_length] at h2
  simp only [genBase] at h1 h2
  rw [isRam_iff]
  omega

/-- The REM cells of a legal degree are canonical memory (R184). -/
theorem wf_remCells (d : List Byte) {k : Nat} (h1 : 1 ≤ k) (hk : k ≤ 64) :
    Memory.wf (cellsAt remBase (rsrem d k)) = true := by
  apply wf_cellsAt
  intro a h2 h3
  rw [rsrem_length d h1] at h3
  simp only [remBase] at h2 h3
  rw [isRam_iff]
  omega

/-- The SYN cells of a legal degree are canonical memory (R186). -/
theorem wf_synCells (c : List Byte) {k : Nat} (hk : k ≤ 64) :
    Memory.wf (cellsAt synBase (syndromes c k)) = true := by
  apply wf_cellsAt
  intro a h2 h3
  rw [syndromes_length] at h3
  simp only [synBase] at h2 h3
  rw [isRam_iff]
  omega

end Sys2Proof.Laws
end

