-- ==== Sys2Proof/Laws/Matrix.lean ====
section
/-! SUPPORT. MATRIX cells: the byte of a cell and the cell of a byte, and where the symbol's cells lie. -/

namespace Sys2Proof.Laws

open Sys2Proof.Machine

@[simp] theorem ofByte_toByte (m : ModuleCell) : ModuleCell.ofByte m.toByte = m := by
  obtain ⟨d, r⟩ := m; cases d <;> cases r <;> rfl

/-- A cell's byte has bits 7:2 clear (R57). -/
theorem toByte_lt (m : ModuleCell) : m.toByte.toNat < 4 := by
  obtain ⟨d, r⟩ := m; cases d <;> cases r <;> decide

/-- A byte with bits 7:2 clear is the byte of its cell. -/
theorem toByte_ofByte {b : Byte} (h : b.toNat < 4) : (ModuleCell.ofByte b).toByte = b := by
  have hb : b = 0 ∨ b = 1 ∨ b = 2 ∨ b = 3 := by
    have : b.toNat = 0 ∨ b.toNat = 1 ∨ b.toNat = 2 ∨ b.toNat = 3 := by omega
    rcases this with h | h | h | h
    · exact .inl (BitVec.eq_of_toNat_eq h)
    · exact .inr (.inl (BitVec.eq_of_toNat_eq h))
    · exact .inr (.inr (.inl (BitVec.eq_of_toNat_eq h)))
    · exact .inr (.inr (.inr (BitVec.eq_of_toNat_eq h)))
  rcases hb with rfl | rfl | rfl | rfl <;> rfl

/-- Two cells of the 64 × 64 array have the same address only if they are the same cell (R57). -/
theorem cellAddr_inj {r c r' c' : Nat} (hc : c < 64) (hc' : c' < 64) (h : cellAddr r c = cellAddr r' c') :
    r = r' ∧ c = c' := by
  simp only [cellAddr] at h; omega

/-- A cell of the array lies in MATRIX. -/
theorem isRam_cell {r c : Nat} (hr : r < 64) (hc : c < 64) : isRam (cellAddr r c) = true := by
  rw [isRam_iff]; simp only [cellAddr, matrixBase]
  omega

theorem addrsRise_map_succ {lo : Nat} {n : Nat} {f : Nat → Nat} (h0 : lo ≤ f 0) (hf : ∀ i, i + 1 < n → f i < f (i + 1)) :
    addrsRise lo ((List.range n).map f) := by
  induction n generalizing lo f with
  | zero => trivial
  | succ n ih =>
    rw [List.range_succ_eq_map, List.map_cons, List.map_map]
    refine ⟨h0, ?_⟩
    cases n with
    | zero => trivial
    | succ n => exact ih (f := f ∘ Nat.succ) (hf 0 (by omega)) fun i hi => hf (i + 1) (by omega)

theorem addrsRise_append {lo mid : Nat} {as bs : List Nat} (ha : addrsRise lo as) (hlo : lo ≤ mid)
    (hm : ∀ a ∈ as, a < mid) (hb : addrsRise mid bs) : addrsRise lo (as ++ bs) := by
  induction as generalizing lo with
  | nil => exact addrsRise_mono hb hlo
  | cons a as ih =>
    exact ⟨ha.1, ih ha.2 (hm a List.mem_cons_self) fun x hx => hm x (List.mem_cons_of_mem _ hx)⟩

/-- The symbol's cell addresses, row by row, rise strictly. -/
theorem addrsRise_symbolAddrs {n : Nat} (hn : n ≤ 64) : addrsRise matrixBase (symbolAddrs n) := by
  have row : ∀ r, ((List.range n).map fun c => (r, c)).map (fun p => cellAddr p.1 p.2) =
      (List.range n).map (cellAddr r) := by intro r; simp [List.map_map, Function.comp_def]
  have key : ∀ m, addrsRise matrixBase
      (((List.range m).flatMap fun r => (List.range n).map fun c => (r, c)).map fun p => cellAddr p.1 p.2) := by
    intro m
    induction m with
    | zero => trivial
    | succ m ih =>
      rw [List.range_succ, List.flatMap_append, List.map_append]
      simp only [List.flatMap_cons, List.flatMap_nil, List.append_nil]
      rw [row]
      refine addrsRise_append (mid := cellAddr m 0) ih (by simp only [cellAddr]; omega) ?_ ?_
      · intro a ha
        simp only [List.mem_map, List.mem_flatMap, List.mem_range] at ha
        obtain ⟨p, ⟨r, hr, c, hc, rfl⟩, rfl⟩ := ha
        simp only [cellAddr]
        omega
      · exact addrsRise_map_succ le_rfl fun i _ => by simp only [cellAddr]; omega
  exact key n

/-- The cells MATRIX_INIT writes: all of MATRIX (R221). -/
theorem memRead_gridCells (g : Grid) (a : Nat) :
    memRead (gridCells g) a =
      if matrixBase ≤ a ∧ a < matrixBase + 4096 then
        some (g ((a - matrixBase) / 64) ((a - matrixBase) % 64)).toByte else none := by
  have key : ∀ n, memRead ((List.range n).map fun i => (matrixBase + i, (g (i / 64) (i % 64)).toByte)) a =
      if matrixBase ≤ a ∧ a < matrixBase + n then
        some (g ((a - matrixBase) / 64) ((a - matrixBase) % 64)).toByte else none := by
    intro n
    induction n with
    | zero =>
      rw [if_neg (by omega)]
      rfl
    | succ n ih =>
      rw [List.range_succ, List.map_append, memRead_append, ih]
      simp only [List.map_cons, List.map_nil, memRead_cons, memRead_nil]
      by_cases h1 : matrixBase ≤ a ∧ a < matrixBase + n
      · have h2 : matrixBase ≤ a ∧ a < matrixBase + (n + 1) := by omega
        rw [if_pos h1, if_pos h2, Option.some_or]
      · rw [if_neg h1, Option.none_or]
        by_cases h2 : matrixBase + n = a
        · subst h2
          have h3 : matrixBase ≤ matrixBase + n ∧ matrixBase + n < matrixBase + (n + 1) := by omega
          rw [if_pos rfl, if_pos h3, Nat.add_sub_cancel_left]
        · have h3 : ¬(matrixBase ≤ a ∧ a < matrixBase + (n + 1)) := by omega
          rw [if_neg h2, if_neg h3]
  exact key 4096

theorem wf_gridCells (g : Grid) : Memory.wf (gridCells g) = true := by
  have rise : ∀ n lo, risingFrom lo ((List.range n).map fun i =>
      (lo + i, (g ((lo + i - matrixBase) / 64) ((lo + i - matrixBase) % 64)).toByte)) = true := by
    intro n
    induction n with
    | zero => intro _; rfl
    | succ n ih =>
      intro lo
      rw [List.range_succ_eq_map, List.map_cons, List.map_map, risingFrom_cons]
      refine ⟨by omega, ?_⟩
      have := ih (lo + 1)
      convert this using 2
      apply List.map_congr_left
      intro i _
      simp only [Function.comp_apply, Nat.succ_eq_add_one, show lo + (i + 1) = lo + 1 + i by omega]
  rw [wf_iff]
  constructor
  · have := rise 4096 matrixBase
    simp only [Nat.add_sub_cancel_left] at this
    exact risingFrom_mono this (Nat.zero_le _)
  · intro e he
    simp only [gridCells, List.mem_map, List.mem_range] at he
    obtain ⟨i, hi, rfl⟩ := he
    rw [isRam_iff]; simp only [matrixBase]
    omega

end Sys2Proof.Laws
end

