-- ==== Sys2Proof/Laws/Commands.lean ====
section
/-! SUPPORT. Each command body once: every way it can end, with what it leaves. Claims about a command cite its lemma here
instead of unfolding the body. -/

namespace Sys2Proof.Laws

open Sys2Proof.Machine

/-! ### GF(256) and the polynomial evaluator -/

theorem gfInvBody_cases (s : State) :
    (s.opa = 0x00 ∧ gfInvBody s = raise .gfZero s) ∨ (s.opa ≠ 0x00 ∧ gfInvBody s = .ok (s.setRes (gfinv s.opa))) := by
  unfold gfInvBody State.withNonzeroOpa
  by_cases h : s.opa = 0x00
  · exact .inl ⟨h, if_pos h⟩
  · exact .inr ⟨h, if_neg h⟩

theorem gfLogBody_cases (s : State) :
    (s.opa = 0x00 ∧ gfLogBody s = raise .gfZero s) ∨
      (s.opa ≠ 0x00 ∧ gfLogBody s = .ok (s.setRes (BitVec.ofNat 8 (logAt s.opa)))) := by
  unfold gfLogBody State.withNonzeroOpa
  by_cases h : s.opa = 0x00
  · exact .inl ⟨h, if_pos h⟩
  · exact .inr ⟨h, if_neg h⟩

theorem polyEvalBody_cases (s : State) :
    (s.plen.toNat = 0 ∧ polyEvalBody s = raise .badLen s) ∨
      (∃ a, memGather (addrRange polyBase s.plen.toNat) s.mem = .error a ∧
        polyEvalBody s = .error (.fault (.unwrittenRead a))) ∨
      (s.plen.toNat ≠ 0 ∧ ∃ p, memGather (addrRange polyBase s.plen.toNat) s.mem = .ok p ∧
        polyEvalBody s = .ok (s.setRes (polyeval p s.opa))) := by
  unfold polyEvalBody
  by_cases h : s.plen.toNat = 0
  · exact .inl ⟨h, withPoly_zero h _⟩
  · rw [withPoly_pos h]
    rcases load_cases s (addrRange polyBase s.plen.toNat) fun p => .ok (s.setRes (polyeval p s.opa)) with
      ⟨p, h1, h2⟩ | ⟨a, h1, h2⟩
    · exact .inr (.inr ⟨h, p, h1, h2⟩)
    · exact .inr (.inl ⟨a, h1, h2⟩)

/-! ### Reed–Solomon -/

theorem rsGenpolyBody_cases (s : State) :
    ((s.k.toNat = 0 ∨ 64 < s.k.toNat) ∧ rsGenpolyBody s = raise .badK s) ∨
      ((1 ≤ s.k.toNat ∧ s.k.toNat ≤ 64) ∧ rsGenpolyBody s = .ok (s.store (cellsAt genBase (genpoly s.k.toNat)))) := by
  unfold rsGenpolyBody
  by_cases h : s.k.toNat = 0 ∨ 64 < s.k.toNat
  · exact .inl ⟨h, withK_invalid h _⟩
  · exact .inr ⟨by omega, withK_valid (by omega) _⟩

theorem rsEncodeBody_cases (s : State) :
    ((s.k.toNat = 0 ∨ 64 < s.k.toNat) ∧ rsEncodeBody s = raise .badK s) ∨
      ((1 ≤ s.k.toNat ∧ s.k.toNat ≤ 64) ∧ s.plen.toNat = 0 ∧ rsEncodeBody s = raise .badLen s) ∨
      (∃ a, memGather (addrRange polyBase s.plen.toNat) s.mem = .error a ∧
        rsEncodeBody s = .error (.fault (.unwrittenRead a))) ∨
      ((1 ≤ s.k.toNat ∧ s.k.toNat ≤ 64) ∧ s.plen.toNat ≠ 0 ∧
        ∃ d, memGather (addrRange polyBase s.plen.toNat) s.mem = .ok d ∧
          rsEncodeBody s = .ok ((s.store (cellsAt genBase (genpoly s.k.toNat))).store
            (cellsAt remBase (rsrem d s.k.toNat)))) := by
  unfold rsEncodeBody
  by_cases h : s.k.toNat = 0 ∨ 64 < s.k.toNat
  · exact .inl ⟨h, withK_invalid h _⟩
  · have hk : 1 ≤ s.k.toNat ∧ s.k.toNat ≤ 64 := by omega
    rw [withK_valid hk]
    by_cases hp : s.plen.toNat = 0
    · exact .inr (.inl ⟨hk, hp, withPoly_zero hp _⟩)
    · rw [withPoly_pos hp]
      rcases load_cases s (addrRange polyBase s.plen.toNat) fun d => .ok ((s.store (cellsAt genBase
        (genpoly s.k.toNat))).store (cellsAt remBase (rsrem d s.k.toNat))) with ⟨d, h1, h2⟩ | ⟨a, h1, h2⟩
      · exact .inr (.inr (.inr ⟨hk, hp, d, h1, h2⟩))
      · exact .inr (.inr (.inl ⟨a, h1, h2⟩))

theorem rsSyndromeBody_cases (s : State) :
    ((s.k.toNat = 0 ∨ 64 < s.k.toNat) ∧ rsSyndromeBody s = raise .badK s) ∨
      ((1 ≤ s.k.toNat ∧ s.k.toNat ≤ 64) ∧ s.plen.toNat = 0 ∧ rsSyndromeBody s = raise .badLen s) ∨
      (∃ a, memGather (addrRange polyBase s.plen.toNat) s.mem = .error a ∧
        rsSyndromeBody s = .error (.fault (.unwrittenRead a))) ∨
      ((1 ≤ s.k.toNat ∧ s.k.toNat ≤ 64) ∧ s.plen.toNat ≠ 0 ∧
        ∃ c, memGather (addrRange polyBase s.plen.toNat) s.mem = .ok c ∧
          rsSyndromeBody s = .ok ((s.store (cellsAt synBase (syndromes c s.k.toNat))).setRes
            (if (syndromes c s.k.toNat).all (· == 0x00) then 0x00 else 0x01))) := by
  unfold rsSyndromeBody
  by_cases h : s.k.toNat = 0 ∨ 64 < s.k.toNat
  · exact .inl ⟨h, withK_invalid h _⟩
  · have hk : 1 ≤ s.k.toNat ∧ s.k.toNat ≤ 64 := by omega
    rw [withK_valid hk]
    by_cases hp : s.plen.toNat = 0
    · exact .inr (.inl ⟨hk, hp, withPoly_zero hp _⟩)
    · rw [withPoly_pos hp]
      dsimp only
      rcases load_cases s (addrRange polyBase s.plen.toNat) fun c => .ok ((s.store (cellsAt synBase (syndromes c
        s.k.toNat))).setRes (if (syndromes c s.k.toNat).all (· == 0x00) then 0x00 else 0x01)) with
        ⟨c, h1, h2⟩ | ⟨a, h1, h2⟩
      · exact .inr (.inr (.inr ⟨hk, hp, c, h1, h2⟩))
      · exact .inr (.inr (.inl ⟨a, h1, h2⟩))

/-! ### The commands that read VERSION -/

/-- A body that checks VERSION raises BAD_VERSION with nothing written or goes on with a legal version (R38). -/
theorem withVersion_cases (s : State) (k : Nat → Except Stop State) :
    (validVersion s.ver = false ∧ s.withVersion k = raise .badVersion s) ∨
      (validVersion s.ver = true ∧ s.withVersion k = k s.ver) := by
  cases h : validVersion s.ver
  · exact .inl ⟨rfl, withVersion_invalid h k⟩
  · exact .inr ⟨rfl, withVersion_valid h k⟩

theorem rsBlocksBody_cases (s : State) :
    (validVersion s.ver = false ∧ rsBlocksBody s = raise .badVersion s) ∨
      (∃ a, rsBlocksBody s = .error (.fault (.unwrittenRead a))) ∨
      (validVersion s.ver = true ∧ ∃ data, memGather (addrRange dcwBase (ndata s.ver)) s.mem = .ok data ∧
        rsBlocksBody s = .ok ((s.store (cellsAt genBase (genpoly (ecpb s.ver)))).store
          ((ecwAddrs s.ver).zip ((splitBlocks s.ver data).flatMap fun block => rsrem block (ecpb s.ver))))) := by
  unfold rsBlocksBody
  rcases withVersion_cases s fun v => s.load (addrRange dcwBase (ndata v)) fun data =>
    .ok ((s.store (cellsAt genBase (genpoly (ecpb v)))).store
      ((ecwAddrs v).zip ((splitBlocks v data).flatMap fun block => rsrem block (ecpb v)))) with ⟨h, h'⟩ | ⟨h, h'⟩
  · exact .inl ⟨h, h'⟩
  · dsimp only at h' ⊢
    rw [h']
    rcases load_cases s (addrRange dcwBase (ndata s.ver)) fun data =>
      .ok ((s.store (cellsAt genBase (genpoly (ecpb s.ver)))).store
        ((ecwAddrs s.ver).zip ((splitBlocks s.ver data).flatMap fun block => rsrem block (ecpb s.ver)))) with
      ⟨d, h1, h2⟩ | ⟨a, _, h2⟩
    · exact .inr (.inr ⟨h, d, h1, h2⟩)
    · exact .inr (.inl ⟨a, h2⟩)

theorem interleaveBody_cases (s : State) :
    (validVersion s.ver = false ∧ interleaveBody s = raise .badVersion s) ∨
      (∃ a, interleaveBody s = .error (.fault (.unwrittenRead a))) ∨
      (validVersion s.ver = true ∧ ∃ data ec, memGather (addrRange dcwBase (ndata s.ver)) s.mem = .ok data ∧
        memGather (ecwAddrs s.ver) s.mem = .ok ec ∧
        interleaveBody s = .ok (s.store (cellsAt icwBase (interleaved s.ver data ec)))) := by
  unfold interleaveBody
  rcases withVersion_cases s fun v => s.load (addrRange dcwBase (ndata v)) fun data => s.load (ecwAddrs v) fun ec =>
    .ok (s.store (cellsAt icwBase (interleaved v data ec))) with ⟨h, h'⟩ | ⟨h, h'⟩
  · exact .inl ⟨h, h'⟩
  · rw [h']
    rcases load_cases s (addrRange dcwBase (ndata s.ver)) fun data => s.load (ecwAddrs s.ver) fun ec =>
      .ok (s.store (cellsAt icwBase (interleaved s.ver data ec))) with ⟨d, h1, h2⟩ | ⟨a, _, h2⟩
    · rw [h2]
      rcases load_cases s (ecwAddrs s.ver) fun ec =>
        .ok (s.store (cellsAt icwBase (interleaved s.ver d ec))) with ⟨e, h3, h4⟩ | ⟨a, _, h4⟩
      · exact .inr (.inr ⟨h, d, e, h1, h3, h4⟩)
      · exact .inr (.inl ⟨a, h4⟩)
    · exact .inr (.inl ⟨a, h2⟩)

theorem matrixInitBody_cases (s : State) :
    (validVersion s.ver = false ∧ matrixInitBody s = raise .badVersion s) ∨
      (validVersion s.ver = true ∧ matrixInitBody s = .ok (s.store (structCells s.ver))) :=
  withVersion_cases s _

theorem placeDataBody_cases (s : State) :
    (validVersion s.ver = false ∧ placeDataBody s = raise .badVersion s) ∨
      (∃ a, placeDataBody s = .error (.fault (.unwrittenRead a))) ∨
      (validVersion s.ver = true ∧ ∃ bytes codewords, memGather (symbolAddrs (side s.ver)) s.mem = .ok bytes ∧
        ∃ free, free = zigzag (side s.ver) (gridOf (side s.ver) (bytes.map ModuleCell.ofByte)) ∧
        memGather (addrRange icwBase (ntotal s.ver)) s.mem = .ok codewords ∧
        placeDataBody s = .ok { s with mem := memWriteAll (placements free (streamBits codewords)) s.mem }) := by
  unfold placeDataBody
  rcases Bool.eq_false_or_eq_true (validVersion s.ver) with h | h
  · rw [withVersion_valid h]
    unfold State.loadSymbol
    rcases load_cases s (symbolAddrs (side s.ver)) _ with ⟨bytes, h1, h2⟩ | ⟨a, _, h2⟩
    · rw [h2]
      dsimp only
      rcases load_cases s (addrRange icwBase (ntotal s.ver)) _ with ⟨cw, h3, h4⟩ | ⟨a, _, h4⟩
      · exact .inr (.inr ⟨h, bytes, cw, h1, _, rfl, h3, h4⟩)
      · exact .inr (.inl ⟨a, h4⟩)
    · exact .inr (.inl ⟨a, h2⟩)
  · exact .inl ⟨h, withVersion_invalid h _⟩

theorem applyMaskBody_cases (s : State) :
    (validVersion s.ver = false ∧ applyMaskBody s = raise .badVersion s) ∨
      (∃ a, applyMaskBody s = .error (.fault (.unwrittenRead a))) ∨
      (validVersion s.ver = true ∧ ∃ bytes, memGather (symbolAddrs (side s.ver)) s.mem = .ok bytes ∧
        applyMaskBody s = .ok (s.store (maskedCells (side s.ver) (bytes.map ModuleCell.ofByte)))) := by
  unfold applyMaskBody
  rcases Bool.eq_false_or_eq_true (validVersion s.ver) with h | h
  · rw [withVersion_valid h]
    unfold State.loadSymbol
    rcases load_cases s (symbolAddrs (side s.ver)) _ with ⟨bytes, h1, h2⟩ | ⟨a, _, h2⟩
    · exact .inr (.inr ⟨h, bytes, h1, h2⟩)
    · exact .inr (.inl ⟨a, h2⟩)
  · exact .inl ⟨h, withVersion_invalid h _⟩

theorem writeFormatBody_cases (s : State) :
    (validVersion s.ver = false ∧ writeFormatBody s = raise .badVersion s) ∨
      (validVersion s.ver = true ∧
        writeFormatBody s = .ok { s with mem := memWriteAll (formatWrites (side s.ver)) s.mem }) :=
  withVersion_cases s _

/-! ### The bit stream -/

theorem bpPutBody_cases (s : State) :
    ((s.bpNbits.toNat = 0 ∨ 16 < s.bpNbits.toNat) ∧ bpPutBody s = raise .badNbits s) ∨
      ((1 ≤ s.bpNbits.toNat ∧ s.bpNbits.toNat ≤ 16) ∧ 4096 < s.bpPos.toNat + s.bpNbits.toNat ∧
        bpPutBody s = raise .bpOverflow s) ∨
      ((1 ≤ s.bpNbits.toNat ∧ s.bpNbits.toNat ≤ 16) ∧ s.bpPos.toNat + s.bpNbits.toNat ≤ 4096 ∧
        bpPutBody s = .ok (s.put s.bpVal s.bpNbits.toNat)) := by
  unfold bpPutBody
  dsimp only
  by_cases h : s.bpNbits.toNat = 0 ∨ s.bpNbits.toNat > 16
  · rw [if_pos h]; exact .inl ⟨h, rfl⟩
  · rw [if_neg h]
    by_cases h2 : s.bpPos.toNat + s.bpNbits.toNat > Config.dcwBits
    · rw [if_pos h2]; exact .inr (.inl ⟨by omega, h2, rfl⟩)
    · rw [if_neg h2]
      simp only [Config.dcwBits] at h2
      exact .inr (.inr ⟨by omega, by omega, rfl⟩)

theorem selectVersionBody_cases (s : State) :
    (selectVersion s.len = none ∧ selectVersionBody s = raise .capacity s) ∨
      (∃ v, selectVersion s.len = some v ∧ selectVersionBody s = .ok { s with version := BitVec.ofNat 8 v }) := by
  unfold selectVersionBody
  cases h : selectVersion s.len with
  | none => exact .inl ⟨rfl, rfl⟩
  | some v => exact .inr ⟨v, rfl, rfl⟩

theorem padToByte_onlyPut (fuel : Nat) (s : State) : OnlyPut s (State.padToByte fuel s) := by
  induction fuel generalizing s with
  | zero => rfl
  | succ fuel ih =>
    unfold State.padToByte
    split
    · exact (put_onlyPut s 0 1).trans (ih _)
    · rfl

theorem putPads_onlyPut (cap fuel i : Nat) (s : State) : OnlyPut s (State.putPads cap fuel i s) := by
  induction fuel generalizing i s with
  | zero => rfl
  | succ fuel ih =>
    unfold State.putPads
    split
    · exact (put_onlyPut s (padByte i) 8).trans (ih _ _)
    · rfl

theorem putBytes_onlyPut (bytes : List Byte) (s : State) :
    OnlyPut s (bytes.foldl (fun s b => s.put b.toNat 8) s) := by
  induction bytes generalizing s with
  | nil => rfl
  | cons b bytes ih => exact (put_onlyPut s b.toNat 8).trans (ih _)

/-- The encoder changes memory, the separate bits and BP_POS, and no other field (R135). -/
theorem putStream_onlyPut (s : State) (v : Nat) (payload : List Byte) : OnlyPut s (s.putStream v payload) := by
  unfold State.putStream
  have h0 : OnlyPut s { s with bpPos := 0 } := rfl
  exact ((((h0.trans (put_onlyPut _ _ _)).trans (put_onlyPut _ _ _)).trans (putBytes_onlyPut _ _)).trans
    (put_onlyPut _ _ _)).trans ((padToByte_onlyPut _ _).trans (putPads_onlyPut _ _ _ _))

theorem encodeStreamBody_cases (s : State) :
    (validVersion s.ver = false ∧ encodeStreamBody s = raise .badVersion s) ∨
      (validVersion s.ver = true ∧ fits s.ver s.len = false ∧ encodeStreamBody s = raise .capacity s) ∨
      (∃ a, encodeStreamBody s = .error (.fault (.unwrittenRead a))) ∨
      (validVersion s.ver = true ∧ fits s.ver s.len = true ∧
        ∃ payload, memGather (addrRange payloadBase s.len) s.mem = .ok payload ∧
          encodeStreamBody s = .ok (s.putStream s.ver payload)) := by
  unfold encodeStreamBody
  rcases Bool.eq_false_or_eq_true (validVersion s.ver) with h | h
  · rw [withVersion_valid h]
    rcases Bool.eq_false_or_eq_true (fits s.ver s.len) with hf | hf
    · rw [if_pos hf]
      rcases load_cases s (addrRange payloadBase s.len) _ with ⟨p, h1, h2⟩ | ⟨a, _, h2⟩
      · exact .inr (.inr (.inr ⟨h, hf, p, h1, h2⟩))
      · exact .inr (.inr (.inl ⟨a, h2⟩))
    · rw [if_neg (by simp [hf])]
      exact .inr (.inl ⟨h, hf, rfl⟩)
  · exact .inl ⟨h, withVersion_invalid h _⟩

/-! ### The pipeline -/

/-- GENERATE raises CAPACITY with STAGE 0, or runs the later stages from the selected version (R111). -/
theorem generateBody_cases (s : State) :
    (selectVersion s.len = none ∧ generateBody s = raise .capacity (s.setStage 0)) ∨
      (∃ v, selectVersion s.len = some v ∧
        generateBody s = laterStages { s with stage := 1, version := BitVec.ofNat 8 v }) := by
  unfold generateBody
  have hl : (s.setStage 0).len = s.len := rfl
  dsimp only
  rw [hl]
  cases h : selectVersion s.len with
  | none => exact .inl ⟨rfl, rfl⟩
  | some v => exact .inr ⟨v, rfl, rfl⟩

theorem stageThen_ok_iff (stage : Body) (k : Byte) (s t : State) :
    stageThen stage k s = .ok t ↔ ∃ u, stage s = .ok u ∧ t = u.setStage k := by
  unfold stageThen
  rw [andThen_ok_iff]
  simp [eq_comm]

end Sys2Proof.Laws
end

