-- ==== Sys2Proof/Laws/PerInstr.lean ====
section
/-! SUPPORT. Statements made per command: the family RoundTrip says that a command is well formed, that its byte is well
formed, and that decoding its byte gives it back. -/

namespace Sys2Proof.Laws.RoundTrip

/-- Command `i` and its byte are well formed and the byte decodes to `i` with nothing of the rest consumed. -/
def Statement (i : Instr) : Prop :=
  i.wellFormed = true ∧ commandWellFormed (encodeByte i) = true ∧ decodeByte (encodeByte i) = .ok i ∧
    ∀ rest, decode (encode i ++ rest) = .ok (i, rest)

theorem nop : Statement .nop := ⟨rfl, by decide, rfl, fun _ => rfl⟩
theorem gfAdd : Statement .gfAdd := ⟨rfl, by decide, rfl, fun _ => rfl⟩
theorem gfMul : Statement .gfMul := ⟨rfl, by decide, rfl, fun _ => rfl⟩
theorem gfInv : Statement .gfInv := ⟨rfl, by decide, rfl, fun _ => rfl⟩
theorem gfExp : Statement .gfExp := ⟨rfl, by decide, rfl, fun _ => rfl⟩
theorem gfLog : Statement .gfLog := ⟨rfl, by decide, rfl, fun _ => rfl⟩
theorem polyEval : Statement .polyEval := ⟨rfl, by decide, rfl, fun _ => rfl⟩
theorem rsGenpoly : Statement .rsGenpoly := ⟨rfl, by decide, rfl, fun _ => rfl⟩
theorem rsEncode : Statement .rsEncode := ⟨rfl, by decide, rfl, fun _ => rfl⟩
theorem rsSyndrome : Statement .rsSyndrome := ⟨rfl, by decide, rfl, fun _ => rfl⟩
theorem bpClear : Statement .bpClear := ⟨rfl, by decide, rfl, fun _ => rfl⟩
theorem bpPut : Statement .bpPut := ⟨rfl, by decide, rfl, fun _ => rfl⟩
theorem selectVersion : Statement .selectVersion := ⟨rfl, by decide, rfl, fun _ => rfl⟩
theorem encodeStream : Statement .encodeStream := ⟨rfl, by decide, rfl, fun _ => rfl⟩
theorem rsBlocks : Statement .rsBlocks := ⟨rfl, by decide, rfl, fun _ => rfl⟩
theorem interleave : Statement .interleave := ⟨rfl, by decide, rfl, fun _ => rfl⟩
theorem matrixInit : Statement .matrixInit := ⟨rfl, by decide, rfl, fun _ => rfl⟩
theorem placeData : Statement .placeData := ⟨rfl, by decide, rfl, fun _ => rfl⟩
theorem applyMask : Statement .applyMask := ⟨rfl, by decide, rfl, fun _ => rfl⟩
theorem writeFormat : Statement .writeFormat := ⟨rfl, by decide, rfl, fun _ => rfl⟩
theorem generate : Statement .generate := ⟨rfl, by decide, rfl, fun _ => rfl⟩

end Sys2Proof.Laws.RoundTrip
end

