-- ==== Sys2Proof/Tests/Slice0.lean ====
section
/-! SUPPORT. The model's own tests: well-formedness, decoding, one or two steps a command against the vectors of
95_test_vectors.md (the comment names the vector), and for every obligation with hypotheses a state that meets them. -/

namespace Sys2Proof.Tests

open Sys2Proof Sys2Proof.Machine

/-! ### Helpers -/

/-- A field of the next state, none when the step stops. -/
def after {α : Type} (o : Host.Outcome State Fault Refusal) (f : State → α) : Option α :=
  match o with
  | .next s => some (f s)
  | .fault _ | .refused _ => none

/-- The fault a step stops with. -/
def faultOf (o : Host.Outcome State Fault Refusal) : Option Fault :=
  match o with
  | .fault f => some f
  | .next _ | .refused _ => none

/-- The refusal a step stops with. -/
def refusalOf (o : Host.Outcome State Fault Refusal) : Option Refusal :=
  match o with
  | .refused r => some r
  | .next _ | .fault _ => none

/-- `n` bytes of RAM from `base`. -/
def bytesFrom (s : State) (base n : Nat) : List (Option Byte) := (List.range n).map fun i => s.byteAt (base + i)

/-- Reset with these bytes at `base`. -/
def ram (base : Nat) (bytes : List Byte) : State := { State.reset with mem := cellsAt base bytes }

/-- Reset with one event waiting. -/
def waiting (e : Event) : State := { State.reset with events := [e] }

/-- Reset with NOP pending and one event waiting. -/
def busyWaiting (e : Event) : State := { (State.reset.accept 0x00) with events := [e] }

/-- The data codewords of "A" at version 1 (V-BS-10). -/
def dataOfA : List Byte :=
  [0x40, 0x14, 0x10, 0xEC, 0x11, 0xEC, 0x11, 0xEC, 0x11, 0xEC, 0x11, 0xEC, 0x11, 0xEC, 0x11, 0xEC, 0x11, 0xEC, 0x11]

/-- Its EC codewords (V-RS-11c). -/
def ecOfA : List Byte := [0x52, 0x4B, 0xB5, 0x3B, 0xAF, 0x8D, 0xF1]

/-- LEN = 1, `PAYLOAD[0] = 41`, VERSION = 1 (V-BS-10). -/
def payloadA : State := { ram payloadBase [0x41] with lenLo := 1, version := 1 }

/-- VERSION = 1 with DCW of "A". -/
def dcwA : State := { ram dcwBase dataOfA with version := 1 }

/-- VERSION = 1 with DCW and ECW of "A". -/
def dcwEcwA : State := { State.reset with version := 1, mem := cellsAt dcwBase dataOfA ++ cellsAt ecwBase ecOfA }

/-- The symbol of version `v` whose cell `(r, c)` holds `f r c`, row by row. -/
def symbol (v : Nat) (f : Nat → Nat → Byte) : Memory :=
  (symbolCells (side v)).map fun p => (cellAddr p.1 p.2, f p.1 p.2)

/-- VERSION = 1, the symbol after MATRIX_INIT, and 26 ICW bytes `b` (V-PL-3, V-PL-4). -/
def matrix1 (b : Byte) : State :=
  { State.reset with version := 1, mem := cellsAt icwBase (List.replicate 26 b) ++ symbol 1 (structByte 1) }

/-- V-BS-22's operands after V-BS-21: four bits of `DCW[0]` put, `BP_VAL = FF01`. -/
def partly : State :=
  { State.reset with bpPos := 4, bpNbits := 8, bpValLo := 1, bpValHi := 0xFF, dcwBits := cellsAt 0 [false, true, false, false] }

/-- Version `v` with every cell of the symbol `cell` and `n` ICW bytes FF. -/
def uniform (v : Nat) (cell : Byte) (n : Nat) : State :=
  { State.reset with version := BitVec.ofNat 8 v,
                     mem := cellsAt icwBase (List.replicate n 0xFF) ++ symbol v fun _ _ => cell }

/-- A reset machine with these operand bytes. -/
def opab (a b : Byte) : State := { State.reset with opa := a, opb := b }

/-- K, PLEN and POLY. -/
def polyState (k plen a : Byte) (p : List Byte) : State := { ram polyBase p with k := k, plen := plen, opa := a }

/-- The invariant of a state with no separate DCW bits, from checks on its data. -/
theorem inv_of_checks {s : State} (hw : s.mem.wf = true) (hc : ∀ e ∈ s.mem, matrixBase ≤ e.1 → e.2.toNat < 4)
    (hb : s.dcwBits = []) (hp : s.bpPos.toNat ≤ 4096) (hs : s.stage.toNat ≤ 8) (he : s.errcode.toNat ≤ 8)
    (hn : ¬(s.done = true ∧ s.err = true)) (hx : s.err = true ↔ s.errcode ≠ 0x00) (hi : s.pending = none) : s.Inv where
  memWf := hw
  cellBits a b h hm := hc (a, b) (Laws.memRead_some_mem h) hm
  bitsRise := by rw [hb]; rfl
  bitsInDcw := by rw [hb]; simp
  bitsApart i _ := by rw [hb]; rfl
  bitsFew i := by rw [hb]; exact Nat.zero_lt_succ 7
  posRange := hp
  stageRange := hs
  errcodeRange := he
  notBoth := hn
  errCoded := hx
  pendingClear c h := by rw [hi] at h; cases h

/-! ### Well-formedness: each check refuses an ill-formed term -/

theorem test_illFormed_command : [0x01#8, 0x0F, 0x16, 0x1F, 0x23, 0x2F, 0x34, 0x3F, 0x42, 0x4F, 0x53, 0x5F, 0x61, 0x6F,
    0x71, 0xFF].map commandWellFormed = List.replicate 16 false := by decide
theorem test_wellFormed_command : [0x00#8, 0x10, 0x15, 0x20, 0x22, 0x30, 0x33, 0x40, 0x41, 0x50, 0x52, 0x60,
    0x70].map commandWellFormed = List.replicate 13 true := by decide
theorem test_illFormed_access_width : Access.wellFormed (.read 2 0x0000) = false ∧
    Access.wellFormed (.write 4 0x0200 0x41) = false ∧ Access.wellFormed (.read 0 0x0000) = false := by decide
theorem test_illFormed_buffer_byte : Target.wellFormed (.buf .rem 64) = false ∧
    Target.wellFormed (.buf .matrix 4096) = false ∧ Target.wellFormed (.buf .rem 63) = true := by decide
theorem test_illFormed_line : HostLine.wellFormed (.wrbuf .ecw 127 [0x01, 0x02]) = false ∧
    HostLine.wellFormed (.expectbuf .gen 128 [0x01]) = false ∧ HostLine.wellFormed (.wr (.buf .poly 256) 0x01) = false ∧
    HostLine.wellFormed (.expect (.buf .syn 64) 0x01) = false ∧ HostLine.wellFormed (.rd (.buf .icw 512)) = false ∧
    HostLine.wellFormed (.wrbuf .ecw 126 [0x01, 0x02]) = true := by decide

/-! ### Decoding: the words of R93 bit by bit, GRP above FN -/

theorem test_decode_control : decodeByte 0b0000_0000 = .ok .nop ∧ decodeByte 0b0111_0000 = .ok .generate := by decide
theorem test_decode_gf : decodeByte 0b0001_0000 = .ok .gfAdd ∧ decodeByte 0b0001_0001 = .ok .gfMul ∧
    decodeByte 0b0001_0010 = .ok .gfInv ∧ decodeByte 0b0001_0011 = .ok .gfExp ∧
    decodeByte 0b0001_0100 = .ok .gfLog ∧ decodeByte 0b0001_0101 = .ok .polyEval := by decide
theorem test_decode_rs : decodeByte 0b0010_0000 = .ok .rsGenpoly ∧ decodeByte 0b0010_0001 = .ok .rsEncode ∧
    decodeByte 0b0010_0010 = .ok .rsSyndrome := by decide
theorem test_decode_bitStream : decodeByte 0b0011_0000 = .ok .bpClear ∧ decodeByte 0b0011_0001 = .ok .bpPut ∧
    decodeByte 0b0011_0010 = .ok .selectVersion ∧ decodeByte 0b0011_0011 = .ok .encodeStream := by decide
theorem test_decode_blocks : decodeByte 0b0100_0000 = .ok .rsBlocks ∧ decodeByte 0b0100_0001 = .ok .interleave := by decide
theorem test_decode_matrix : decodeByte 0b0101_0000 = .ok .matrixInit ∧ decodeByte 0b0101_0001 = .ok .placeData ∧
    decodeByte 0b0101_0010 = .ok .applyMask := by decide
theorem test_decode_format : decodeByte 0b0110_0000 = .ok .writeFormat := by decide
theorem test_decode_illegal : decodeByte 0x01 = .error (.illegalCode 0x01) ∧ decode [] = .error .noByte ∧
    decodeTableWord 8 0x71 = none ∧ decodeTableWord 16 0x00 = none ∧ decodeTableWord 8 0x51 = some .placeData := by decide

/-! ### One step of each command -/

/- V-CTL-3: NOP clears ERR and ERRCODE and leaves WIGN. -/
theorem test_nop : after (exec .nop { State.reset with err := true, errcode := 0x05, wign := true })
    (fun t => (t.status, t.errcode)) = some (0x0A, 0x00) := by decide
/- V-GF-1. -/
theorem test_gfAdd : after (exec .gfAdd (opab 0x53 0xCA)) (·.res) = some 0x99 := by decide
/- V-GF-4. -/
theorem test_gfMul : after (exec .gfMul (opab 0x53 0xCA)) (·.res) = some 0x8F := by decide
/- V-GF-5: a zero operand. -/
theorem test_gfMul_zero : after (exec .gfMul (opab 0x00 0x53)) (·.res) = some 0x00 := by decide
/- V-GF-11: the inverse that uses EXP[255]. -/
theorem test_gfInv : after (exec .gfInv (opab 0x01 0x00)) (·.res) = some 0x01 ∧
    after (exec .gfInv (opab 0x53 0x00)) (·.res) = some 0x8C := by decide
/- V-GF-26. -/
theorem test_gfInv_zero : after (exec .gfInv { opab 0x00 0x00 with res := 0x77 })
    (fun t => (t.res, t.status, t.errcode)) = some (0x77, 0x04, 0x02) := by decide
/- V-GF-17, V-GF-19. -/
theorem test_gfExp : after (exec .gfExp (opab 0x19 0x00)) (·.res) = some 0x03 ∧
    after (exec .gfExp (opab 0xFF 0x00)) (·.res) = some 0x01 := by decide
/- V-GF-24. -/
theorem test_gfLog : after (exec .gfLog (opab 0x8E 0x00)) (·.res) = some 0xFE := by decide
/- V-GF-27. -/
theorem test_gfLog_zero : after (exec .gfLog { opab 0x00 0x00 with res := 0x77 })
    (fun t => (t.res, t.status, t.errcode)) = some (0x77, 0x04, 0x02) := by decide
/- V-PE-5. -/
theorem test_polyEval : after (exec .polyEval (polyState 0 3 0x53 [0x01, 0x00, 0x00])) (·.res) = some 0xD5 := by
  decide +kernel
/- V-PE-9. -/
theorem test_polyEval_badLen : after (exec .polyEval (polyState 0 0 0x53 [])) (fun t => (t.status, t.errcode)) =
    some (0x04, 0x03) := by decide
/- V-RS-3. -/
theorem test_rsGenpoly : after (exec .rsGenpoly (polyState 7 0 0 [])) (fun t => bytesFrom t 0x0700 9) =
    some ([0x01, 0x7F, 0x7A, 0x9A, 0xA4, 0x0B, 0x44, 0x75].map some ++ [none]) := by decide +kernel
/- V-RS-11b. -/
theorem test_rsGenpoly_badK : after (exec .rsGenpoly (polyState 65 0 0 [])) (fun t => (t.errcode, t.mem)) =
    some (0x04, []) := by decide
/- V-RS-11d. -/
theorem test_rsEncode : after (exec .rsEncode (polyState 4 1 0 [0x01])) (fun t => bytesFrom t 0x0780 5) =
    some [some 0x0F, some 0x36, some 0x78, some 0x40, none] := by decide +kernel
/- V-RS-11g: K is checked before PLEN. -/
theorem test_rsEncode_badK : after (exec .rsEncode (polyState 0 0 0 [])) (·.errcode) = some 0x04 := by decide
/- V-RS-11j. -/
theorem test_rsSyndrome : after (exec .rsSyndrome (polyState 7 26 0 (0x41 :: dataOfA.tail ++ ecOfA)))
    (fun t => (t.res, bytesFrom t 0x07C0 8)) =
    some (0x01, [0x01, 0x03, 0x05, 0x0F, 0x11, 0x33, 0x55].map some ++ [none]) := by decide +kernel
/- V-RS-11i. -/
theorem test_rsSyndrome_valid : after (exec .rsSyndrome (polyState 7 26 0 (dataOfA ++ ecOfA)))
    (fun t => (t.res, t.status)) = some (0x00, 0x02) := by decide +kernel
/- V-BS-20. -/
theorem test_bpClear : after (exec .bpClear { ram dcwBase [0x12] with bpPos := 12 })
    (fun t => (t.bpPos, bytesFrom t 0x0400 1)) = some (0, [some 0x12]) := by decide
/- V-BS-24: bits are replaced, not ORed. -/
theorem test_bpPut : after (exec .bpPut { ram dcwBase [0xFF] with bpPos := 2, bpNbits := 3, bpValLo := 2 })
    (fun t => (t.bpPos, bytesFrom t 0x0400 1)) = some (5, [some 0xD7]) := by decide +kernel
/- V-BS-21, V-BS-22 with R130: a byte put in part keeps no value until its last bit is put. -/
theorem test_bpPut_parts : after (exec .bpPut partly)
    (fun t => (t.bpPos, bytesFrom t 0x0400 2, t.dcwBits)) =
    some (12, [some 0x40, none], [(8, false), (9, false), (10, false), (11, true)]) := by decide +kernel
/- V-BS-3, V-BS-7. -/
theorem test_selectVersion : after (exec .selectVersion { State.reset with lenLo := 18 }) (·.version) = some 2 ∧
    after (exec .selectVersion { State.reset with lenLo := 0x0F, lenHi := 1 }) (·.version) = some 10 := by decide
/- V-BS-8. -/
theorem test_selectVersion_capacity : after (exec .selectVersion { State.reset with lenLo := 0x10, lenHi := 1 })
    (fun t => (t.version, t.errcode)) = some (0, 0x05) := by decide
/- V-BS-10. -/
theorem test_encodeStream : after (exec .encodeStream payloadA) (fun t => (t.bpPos, bytesFrom t 0x0400 20)) =
    some (152, dataOfA.map some ++ [none]) := by decide +kernel
/- V-BS-19: the version is checked before the capacity. -/
theorem test_encodeStream_order : after (exec .encodeStream { State.reset with lenLo := 0x10, lenHi := 1 })
    (·.errcode) = some 0x06 := by decide
/- V-CTL-5: the EC bytes of "A". -/
theorem test_rsBlocks : after (exec .rsBlocks dcwA) (fun t => bytesFrom t 0x0A00 8) = some (ecOfA.map some ++ [none]) := by
  decide +kernel
/- V-RS-16. -/
theorem test_rsBlocks_badVersion : after (exec .rsBlocks State.reset) (·.errcode) = some 0x06 := by decide
/- V-CTL-5: ICW of "A". -/
theorem test_interleave : after (exec .interleave dcwEcwA) (fun t => bytesFrom t 0x0800 27) =
    some ((dataOfA ++ ecOfA).map some ++ [none]) := by decide +kernel
/- U3: INTERLEAVE before RS_BLOCKS. -/
theorem test_interleave_unwritten : faultOf (exec .interleave dcwA) = some (.unwrittenRead 0x0A00) := by decide +kernel
/- V-MX-11 to V-MX-22. -/
theorem test_matrixInit : [(22, 22), (21, 22), (6, 22), (6, 21), (6, 6), (6, 38), (0, 34), (5, 36), (34, 0), (36, 5),
    (37, 8)].map (fun p => (structGrid 7 p.1 p.2).toByte) =
    [0x03, 0x02, 0x03, 0x02, 0x03, 0x03, 0x02, 0x02, 0x02, 0x02, 0x03] := by decide +kernel
/- V-MX-23. -/
theorem test_matrixInit_badVersion : after (exec .matrixInit { State.reset with version := 11 })
    (fun t => (t.errcode, t.mem)) = some (0x06, []) := by decide
/- V-PL-3. -/
theorem test_placeData : after (exec .placeData (matrix1 0x40))
    (fun t => [(20, 20), (20, 19), (19, 20), (13, 8)].map fun p => t.byteAt (cellAddr p.1 p.2)) =
    some [some 0x00, some 0x01, some 0x00, some 0x03] := by decide +kernel
/- V-PL-2: the cells after the 352 stream bits of version 2. -/
theorem test_zigzag_remainder : (zigzag 25 fun r c => ModuleCell.ofByte (structByte 2 r c)).drop 352 =
    [(13, 0), (14, 1), (14, 0), (15, 1), (15, 0), (16, 1), (16, 0)] := by decide +kernel
/- V-PL-8, and R260's last corner case: the last ICW byte is read also where no free cell takes its bits. -/
theorem test_placeData_unwritten : faultOf (exec .placeData { State.reset with version := 1 }) =
    some (.unwrittenRead 0x1000) ∧ faultOf (exec .placeData (uniform 1 0x02 25)) = some (.unwrittenRead 0x0819) ∧
    after (exec .placeData (uniform 1 0x02 26)) (·.status) = some 0x02 := by decide +kernel
/- V-PL-6. -/
theorem test_applyMask : after (exec .applyMask (matrix1 0x00))
    (fun t => [(20, 20), (20, 19), (9, 0), (9, 1), (0, 9), (0, 10)].map fun p => t.byteAt (cellAddr p.1 p.2)) =
    some ([0x01, 0x00, 0x00, 0x01, 0x00, 0x01].map some) := by decide +kernel
/- V-PL-7. -/
theorem test_applyMask_badVersion : after (exec .applyMask State.reset) (·.errcode) = some 0x06 := by decide
/- V-FM-2: row 8, columns 0 to 5, and column 8, rows 14 to 20. -/
theorem test_writeFormat : after (exec .writeFormat { State.reset with version := 1 })
    (fun t => ((List.range 6).map (fun c => t.byteAt (cellAddr 8 c)), (List.range 7).map fun i => t.byteAt (cellAddr (14 + i) 8))) =
    some ([0x03, 0x03, 0x03, 0x02, 0x03, 0x03].map some, [0x03, 0x03, 0x03, 0x02, 0x03, 0x03, 0x03].map some) := by
  decide +kernel
/- V-FM-4. -/
theorem test_writeFormat_badVersion : after (exec .writeFormat { State.reset with version := 12 }) (·.errcode) = some 0x06 := by
  decide
/- V-CTL-7. -/
theorem test_generate_capacity : after (exec .generate { State.reset with lenLo := 0xFF, lenHi := 0xFF, stage := 8 })
    (fun t => (t.stage, t.errcode, t.mem)) = some (0, 0x05, []) := by decide
/- V-CTL-9. -/
theorem test_illegalCode : after (step (State.reset.accept 0x01)) (fun t => (t.status, t.errcode, t.lastCmd)) =
    some (0x04, 0x01, 0x01) := by decide

/-! ### The bus -/

/- R75 at the ends of its ranges: what a write of 5A changes. -/
theorem test_write_ranges : [0x01FF, 0x0200, 0x06FF, 0x0700, 0x07FF, 0x0800, 0x0A7F, 0x0A80, 0x0FFF, 0x1000, 0x1FFF, 0x2000,
    0xFFFF].map (fun a : BusAddr => after (step (waiting (.host (.write 1 a 0x5A)))) (·.mem)) =
    [some [], some [(0x0200, 0x5A)], some [(0x06FF, 0x5A)], some [], some [], some [(0x0800, 0x5A)],
     some [(0x0A7F, 0x5A)], some [], some [], some [], some [], some [], some []] := by decide
theorem test_write_registers : after (step (waiting (.host (.write 1 0x000D 0x07)))) (fun t => (t.version, t.status)) =
    some (0x07, 0x00) ∧ after (step (waiting (.host (.write 1 0x0005 0x07)))) (·.errcode) = some 0x00 := by decide
/- R78, R60: an unwritten byte faults, a reserved address reads 0. -/
theorem test_read_ranges : faultOf (step (waiting (.host (.read 1 0x0200)))) = some (.unwrittenRead 0x0200) ∧
    faultOf (step (waiting (.host (.read 1 0x1FFF)))) = some (.unwrittenRead 0x1FFF) ∧
    [0x0007, 0x001C, 0x01FF, 0x0A80, 0x0FFF, 0x2000, 0xFFFF].map
      (fun a : BusAddr => after (step (waiting (.host (.read 1 a)))) (·.trace.map fun x => x == .r a 0x00)) =
      List.replicate 7 (some [true]) := by decide
/- R79: a write while pending only sets WIGN. -/
theorem test_pending_write : after (step (busyWaiting (.host (.write 1 0x0008 0x5A)))) (fun t => (t.opa, t.status)) =
    some (0x00, 0x09) := by decide
theorem test_accessWidth : refusalOf (step (waiting (.host (.read 2 0x0000)))) = some (.accessWidth 2) := by decide
/- R97, R98: `wr16 LEN, 0x0110` writes LEN_LO then LEN_HI. -/
theorem test_line_wr16 : lineEvents 0 (.wr16 .len 0x0110) =
    [.host (.write 1 0x000E 0x10), .host (.write 1 0x000F 0x01)] := by decide

/-! ### Witnesses: for each obligation with hypotheses, states and operands that meet them together -/

theorem witness_DecodeIsExactMatch : Instr.wellFormed .generate = true ∧ encodeByte .generate = 0x70 := by decide

/- Both ends of every range of R96. -/
theorem witness_IllegalCodeCompletesWithError : State.reset.pending = none ∧ ∀ c ∈ [0x01#8, 0x0F, 0x16, 0x1F, 0x23, 0x2F,
    0x34, 0x3F, 0x42, 0x4F, 0x53, 0x5F, 0x61, 0x6F, 0x71, 0xFF], ∀ i, decodeByte c ≠ .ok i := by
  refine ⟨rfl, fun c hc i h => ?_⟩
  have hn : ∀ c ∈ [0x01#8, 0x0F, 0x16, 0x1F, 0x23, 0x2F, 0x34, 0x3F, 0x42, 0x4F, 0x53, 0x5F, 0x61, 0x6F, 0x71, 0xFF],
      (decodeByte c).toOption = none := by decide
  have := hn c hc
  rw [h] at this
  cases this

theorem witness_StepRunsPendingCommand : (State.reset.accept 0x10).pending = some 0x10 ∧ decodeByte 0x10 = .ok .gfAdd ∧
    (State.reset.accept 0x10).events = [] ∧ (busyWaiting .core).pending = some 0x00 ∧ decodeByte 0x00 = .ok .nop ∧
    (busyWaiting .core).events = [.core] := by decide

theorem witness_PlacedCommandIsNextStep : decodeTableWord 8 0x70 = some .generate := by decide

theorem witness_IdleMachineStandsStill : State.reset.pending = none ∧ State.reset.events = [] ∧
    (waiting .core).pending = none ∧ (waiting .core).events = [.core] := by decide

/- Both ends of each address range. -/
theorem witness_ResetValues : [0x0003, 0x01FF].all (fun a : BusAddr => 0x0003 ≤ a.toNat && a.toNat < 0x0200) = true ∧
    [0x0200, 0x0A7F].all (fun a : BusAddr => 0x0200 ≤ a.toNat && a.toNat < 0x0A80) = true ∧
    [0x1000, 0x1FFF].all (fun a : BusAddr => 0x1000 ≤ a.toNat && a.toNat < 0x2000) = true := by decide

theorem witness_ResetInputResetsEverything : (busyWaiting .reset).events = [.reset] := rfl

/- One address of each clause, both ends of each range. -/
theorem witness_IdleWriteEffects : ∀ a ∈ [0x0000#16, 0x0002, 0x0003, 0x0004, 0x0005, 0x0007, 0x0008, 0x0009, 0x000A, 0x000B,
    0x000C, 0x000D, 0x000E, 0x000F, 0x0010, 0x0016, 0x0017, 0x0018, 0x0019, 0x001A, 0x01FF, 0x0200, 0x06FF, 0x0700, 0x07FF,
    0x0800, 0x0A7F, 0x0A80, 0xFFFF], (waiting (.host (.write 1 a 0x5A))).mem.wf = true ∧
    (waiting (.host (.write 1 a 0x5A))).pending = none ∧
    (waiting (.host (.write 1 a 0x5A))).events = [.host (.write 1 a 0x5A)] := fun _ _ => ⟨rfl, rfl, rfl⟩

theorem witness_AcceptingACommand : (waiting (.host (.write 1 0x0003 0xFF))).pending = none ∧
    (waiting (.host (.write 1 0x0003 0xFF))).events = [.host (.write 1 0x0003 0xFF)] := by decide

theorem witness_PendingWriteIsIgnored : (busyWaiting (.host (.write 1 0x0003 0x10))).pending = some 0x00 ∧
    (busyWaiting (.host (.write 1 0x0003 0x10))).events = [.host (.write 1 0x0003 0x10)] := by decide

/- One address of each clause, both ends of each range; a written and an unwritten byte. -/
theorem witness_IdleReadValues : (∀ a ∈ [0x0000#16, 0x0001, 0x0002, 0x0003, 0x0004, 0x0005, 0x0006, 0x0007, 0x0008, 0x0009,
    0x000A, 0x000B, 0x000C, 0x000D, 0x000E, 0x000F, 0x0010, 0x0011, 0x0012, 0x0013, 0x0014, 0x0015, 0x0016, 0x0017, 0x0018,
    0x0019, 0x001A, 0x001B, 0x001C, 0x01FF, 0x0200, 0x0A7F, 0x0A80, 0x0FFF, 0x1000, 0x1FFF, 0x2000, 0xFFFF],
    (waiting (.host (.read 1 a))).pending = none ∧ (waiting (.host (.read 1 a))).events = [.host (.read 1 a)] ∧
    (0x0200 ≤ a.toNat → (waiting (.host (.read 1 a))).byteAt a.toNat = none)) ∧
    (ram 0x0A7F [0x12]).byteAt 0x0A7F = some 0x12 ∧ (ram 0x1FFF [0x03]).byteAt 0x1FFF = some 0x03 :=
  ⟨fun _ _ => ⟨rfl, rfl, fun _ => rfl⟩, by decide, by decide⟩

theorem witness_PendingReadValues : ∀ a ∈ [0x0000#16, 0x0001, 0x0002, 0x0003, 0x0004, 0x0005, 0x0006, 0xFFFF],
    (busyWaiting (.host (.read 1 a))).pending = some 0x00 ∧
    (busyWaiting (.host (.read 1 a))).events = [.host (.read 1 a)] := fun _ _ => ⟨rfl, rfl⟩

theorem witness_HostAccessesLeaveOperandsAlone : (after (step (waiting (.host (.read 1 0x0004)))) (·.trace)) =
      some [.r 0x0004 0x00] ∧
    (busyWaiting (.host (.write 1 0x0008 0x5A))).pending = some 0x00 ∧
    (after (step (busyWaiting (.host (.write 1 0x0008 0x5A)))) (·.wign)) = some true := by decide

theorem witness_OtherWidthsRefused : (0 ≠ 1 ∧ 2 ≠ 1) ∧
    (waiting (.host (.write 2 0x0200 0x41))).events = [.host (.write 2 0x0200 0x41)] ∧
    (waiting (.host (.read 0 0x0200))).events = [.host (.read 0 0x0200)] ∧
    (waiting (.host (.read 1 0x0200))).events = [.host (.read 1 0x0200)] := by decide

theorem witness_UnwrittenInputsFault :
    (let s := { State.reset with version := 1 }
     s.mem.wf = true ∧ ¬ s.SymbolWritten (side s.ver) ∧ ¬ s.Written dcwBase (ndata s.ver) ∧
     ∃ b < nblk s.ver, ∃ j < ecpb s.ver, s.byteAt (ecwAddr b j) = none) ∧
    (let s := uniform 1 0x00 25
     s.mem.wf = true ∧ ¬ s.Written icwBase (ntotal s.ver)) ∧
    (let s := polyState 64 255 0 [0x01]
     s.mem.wf = true ∧ s.plen ≠ 0x00 ∧ ¬ s.Written polyBase s.plen.toNat ∧ 1 ≤ s.k.toNat ∧ s.k.toNat ≤ 64) ∧
    (let s := { State.reset with lenHi := 1, lenLo := 0x0F, version := 10 }
     s.len ≤ 271 ∧ ¬ s.Written payloadBase s.len ∧ s.len ≤ maxLen s.ver) := by
  unfold State.SymbolWritten State.Written
  decide +kernel

theorem witness_ReservedBitsReadZero : after (step (waiting (.host (.read 1 0x0004)))) (·.trace) = some [.r 0x0004 0x00] ∧
    (State.reset.readIdle 0x001B).toOption = some 0x00 ∧ ((ram 0x1000 [0x02]).readIdle 0x1000).toOption = some 0x02 ∧
    ((ram 0x1FFF [0x01]).readIdle 0x1FFF).toOption = some 0x01 ∧ State.reset.pending = none ∧
    (0xF7#8).getLsbD 3 = false := by decide

theorem witness_WignSetAndCleared : (State.reset.accept 0x00).pending ≠ none ∧ State.reset.pending = none ∧
    (0x08#8).getLsbD 3 = true ∧ (0xF7#8).getLsbD 3 = false ∧ (0x0005#16) ≠ 0x0004 := by decide

theorem witness_CompletionRule : after (runCommand 0x00 (State.reset.accept 0x00)) (·.done) = some true ∧
    after (runCommand 0x01 (State.reset.accept 0x01)) (·.err) = some true ∧ State.reset.pending = none := by decide

theorem witness_RaiseLeavesStateAsItWas : after (exec .gfInv State.reset) (·.err) = some true ∧
    after (exec .generate { State.reset with lenHi := 2 }) (·.err) = some true := by decide

theorem witness_FirstFailingCheckIsReported : firstFailingCheck .rsEncode State.reset = some 0x04 ∧
    firstFailingCheck .rsEncode { State.reset with k := 64 } = some 0x03 ∧
    firstFailingCheck .encodeStream { State.reset with lenHi := 2 } = some 0x06 ∧
    firstFailingCheck .encodeStream { State.reset with lenHi := 2, version := 10 } = some 0x05 ∧
    firstFailingCheck .bpPut { State.reset with bpPos := 4096, bpNbits := 1 } = some 0x07 ∧
    firstFailingCheck .selectVersion State.reset = none ∧
    after (exec .selectVersion State.reset) (·.err) = some false := by decide

theorem witness_GfArithmeticLaws : (0x53#8) ≠ 0x00 := by decide

theorem witness_GfInvResult : (opab 0x01 0x00).opa ≠ 0x00 ∧ (opab 0xFF 0x00).opa ≠ 0x00 ∧ State.reset.opa = 0x00 := by decide

theorem witness_GfExpResult : 0 < 255 ∧ 254 < 255 := by decide

theorem witness_GfLogResult : (opab 0x01 0x00).opa ≠ 0x00 ∧ expAt 254 = 0x8E ∧ State.reset.opa = 0x00 := by decide

theorem witness_PolyEvalResult : (polyState 0 3 2 [0x01, 0x02, 0x03]).mem.wf = true ∧
    (polyState 0 3 2 [0x01, 0x02, 0x03]).Holds polyBase [0x01, 0x02, 0x03] ∧
    (polyState 0 3 2 [0x01, 0x02, 0x03]).plen = 3 ∧ State.reset.plen = 0x00 := by
  unfold State.Holds; decide +kernel

theorem witness_RsGenpolyResult : (polyState 1 0 0 []).mem.wf = true ∧ 1 ≤ (polyState 1 0 0 []).k.toNat ∧
    (polyState 64 0 0 []).k.toNat ≤ 64 ∧ State.reset.k.toNat = 0 ∧ 64 < (polyState 65 0 0 []).k.toNat := by decide

theorem witness_GenpolyRootsAndEnds : 1 ≤ 1 ∧ 1 ≤ 64 ∧ 0 < 1 ∧ 63 < 64 := by decide

theorem witness_RsEncodeResult : [0x01#8, 0x02].length = [0x03#8, 0x04].length ∧ (polyState 64 1 0 [0x01]).mem.wf = true ∧ (polyState 64 1 0 [0x01]).k.toNat = 64 ∧
    (polyState 64 1 0 [0x01]).Holds polyBase [0x01] ∧ (polyState 64 1 0 [0x01]).plen.toNat = 1 ∧
    (polyState 1 0 0 []).k.toNat = 1 ∧ (polyState 1 0 0 []).plen = 0x00 ∧ 64 < (polyState 65 0 0 []).k.toNat := by
  unfold State.Holds; decide +kernel

theorem witness_ReedSolomonValidity : 1 ≤ 64 ∧ 0 < 64 ∧ 63 < 64 := by decide

/- A codeword sequence with every syndrome 0, and one with a syndrome that is not. -/
theorem witness_RsSyndromeResult : (polyState 7 26 0 (dataOfA ++ ecOfA)).mem.wf = true ∧
    (polyState 7 26 0 (dataOfA ++ ecOfA)).Holds polyBase (dataOfA ++ ecOfA) ∧
    (∀ i, i < 7 → polyeval (dataOfA ++ ecOfA) (expAt i) = 0x00) ∧
    (polyState 7 1 0 [0x01]).Holds polyBase [0x01] ∧ (∃ i < 7, polyeval [0x01] (expAt i) ≠ 0x00) ∧
    State.reset.k.toNat = 0 ∧ (polyState 64 0 0 []).k.toNat = 64 ∧ (polyState 64 0 0 []).plen = 0x00 := by
  unfold State.Holds; decide +kernel

theorem witness_BlocksPartitionTheData : dataOfA.length = ndata 1 ∧ 3 < nblk 10 ∧ 0 < nblk 1 ∧ nblk 10 - ndata 10 % nblk 10 ≤ 3 := by decide

theorem witness_RsBlocksResult : dcwA.mem.wf = true ∧ dcwA.ver = 1 ∧ dataOfA.length = ndata 1 ∧ dcwA.Holds dcwBase dataOfA ∧
    State.reset.ver = 0 ∧ 10 < State.ver { State.reset with version := 11 } := by
  unfold State.Holds; decide +kernel

theorem witness_InterleaveResult : dcwEcwA.mem.wf = true ∧ dcwEcwA.ver = 1 ∧ dcwEcwA.Written dcwBase (ndata 1) ∧
    (∀ b, b < nblk 1 → ∀ j, j < ecpb 1 → (dcwEcwA.byteAt (ecwBase + 32 * b + j)).isSome) ∧ State.reset.ver = 0 := by
  unfold State.Written; decide +kernel

/- A put that ends inside a half-written byte, the last bit of DCW, and each way to fail. -/
theorem partly_inv : partly.Inv where
  memWf := rfl
  cellBits a b h _ := by cases h
  bitsRise := by decide
  bitsInDcw := by decide
  bitsApart i h := by cases h
  bitsFew i := Nat.lt_of_le_of_lt (List.length_filter_le _ _) (by decide)
  posRange := by decide
  stageRange := by decide
  errcodeRange := by decide
  notBoth := by decide
  errCoded := by decide
  pendingClear c h := by cases h

theorem witness_BpPutResult : partly.Inv ∧ partly.bpNbits.toNat = 8 ∧ partly.bpPos.toNat + 8 ≤ 4096 ∧
    State.Inv { State.reset with bpPos := 4095, bpNbits := 1 } ∧ State.Inv { State.reset with bpPos := 4096, bpNbits := 1 } ∧
    State.Inv { State.reset with bpNbits := 17 } ∧ (4095#13).toNat + 1 ≤ 4096 ∧ 4096 < (4096#13).toNat + 1 := by
  refine ⟨partly_inv, by decide, by decide, ?_, ?_, ?_, by decide, by decide⟩ <;> apply inv_of_checks <;> decide

theorem witness_SelectVersionResult : State.len { State.reset with lenLo := 0x0F, lenHi := 1 } = 271 ∧
    271 < State.len { State.reset with lenLo := 0x10, lenHi := 1 } := by decide

theorem witness_SelectionMinimalAndMonotone : selectVersion 17 = some 1 ∧ selectVersion 271 = some 10 := by decide

/- The empty payload, one byte, and the longest payload of version 1 (V-BS-12). -/
theorem witness_EncodeStreamResult :
    (payloadA.Inv ∧ payloadA.ver = 1 ∧ payloadA.len ≤ maxLen 1 ∧ payloadA.len = 1 ∧ payloadA.Holds payloadBase [0x41]) ∧
    (let P := (List.range 17).map fun i => BitVec.ofNat 8 (0x30 + i)
     let s := { ram payloadBase P with lenLo := 17, version := 1 }
     s.Inv ∧ s.len = maxLen 1 ∧ s.Holds payloadBase P) ∧
    State.Inv { State.reset with version := 11 } ∧
    (State.Inv { State.reset with version := 1, lenLo := 18 } ∧ maxLen 1 < 18) := by
  refine ⟨⟨?_, by decide, by decide, by decide, ?_⟩, ⟨?_, ?_, ?_⟩, ?_, ?_, by decide⟩
  · apply inv_of_checks <;> decide +kernel
  · unfold State.Holds; decide +kernel
  · apply inv_of_checks <;> decide +kernel
  · decide +kernel
  · unfold State.Holds; decide +kernel
  · apply inv_of_checks <;> decide
  · apply inv_of_checks <;> decide

theorem witness_MatrixInitResult : State.reset.mem.wf = true ∧ State.ver { State.reset with version := 1 } = 1 ∧
    State.ver { State.reset with version := 10 } = 10 ∧ State.reset.ver = 0 := by decide

theorem witness_ZigzagVisitsFreeCellsInOrder : 1 ≤ 1 ∧ 1 ≤ 10 ∧ 10 ≤ 10 ∧ (structGrid 1 20 20).rsv = false := by decide +kernel

/-- A cell of a symbol laid over other bytes reads as the symbol has it. -/
theorem symbol_byteAt {v r c : Nat} {m : Memory} {f : Nat → Nat → Byte} (hw : Memory.wf (m ++ symbol v f) = true)
    (hr : r < side v) (hc : c < side v) : memRead (m ++ symbol v f) (cellAddr r c) = some (f r c) := by
  refine Laws.memRead_of_mem (Laws.wf_rising hw) (List.mem_append_right _ ?_)
  exact List.mem_map_of_mem (f := fun p : Nat × Nat => (cellAddr p.1 p.2, f p.1 p.2)) (a := (r, c))
    (by simp [symbolCells, hr, hc])

theorem matrix1_wf : (matrix1 0x40).mem.wf = true := by decide +kernel

theorem matrix1_symbolWritten : (matrix1 0x40).SymbolWritten (side 1) := fun r hr c hc => by
  rw [State.byteAt, matrix1, symbol_byteAt matrix1_wf hr hc]
  rfl

theorem witness_PlaceDataResult : (matrix1 0x40).mem.wf = true ∧ (matrix1 0x40).ver = 1 ∧
    (matrix1 0x40).SymbolWritten (side 1) ∧ (List.replicate 26 0x40#8).length = ntotal 1 ∧
    (matrix1 0x40).Holds icwBase (List.replicate 26 0x40) ∧ State.reset.ver = 0 := by
  refine ⟨matrix1_wf, by decide, matrix1_symbolWritten, by decide, ?_, by decide⟩
  unfold State.Holds
  decide +kernel

/-- Every cell of a uniform symbol reads as its one byte. -/
theorem uniform_byteAt {v n r c : Nat} {cell : Byte} (hw : (uniform v cell n).mem.wf = true) (hr : r < side v)
    (hc : c < side v) : (uniform v cell n).byteAt (cellAddr r c) = some cell := by
  exact symbol_byteAt hw hr hc

/-- The zig-zag order of a symbol with no reserved cell takes every cell of its column pairs. -/
theorem uniform_zigzag_free {v n : Nat} {cell : Byte} (hw : (uniform v cell n).mem.wf = true)
    (hf : (ModuleCell.ofByte cell).rsv = false)
    (hb : ∀ p ∈ (columnPairs (side v) (side v - 1) true).flatMap (pairCells (side v)), p.1 < side v ∧ p.2 < side v) :
    zigzag (side v) (uniform v cell n).cellAt =
      (columnPairs (side v) (side v - 1) true).flatMap (pairCells (side v)) := by
  refine List.filter_eq_self.2 fun p hp => ?_
  simp [State.cellAt, uniform_byteAt hw (hb p hp).1 (hb p hp).2, hf]

/-- The zig-zag order of a symbol whose cells are all reserved is empty. -/
theorem uniform_zigzag_reserved {v n : Nat} {cell : Byte} (hw : (uniform v cell n).mem.wf = true)
    (hf : (ModuleCell.ofByte cell).rsv = true)
    (hb : ∀ p ∈ (columnPairs (side v) (side v - 1) true).flatMap (pairCells (side v)), p.1 < side v ∧ p.2 < side v) :
    zigzag (side v) (uniform v cell n).cellAt = [] := by
  refine List.filter_eq_nil_iff.2 fun p hp => ?_
  simp [State.cellAt, uniform_byteAt hw (hb p hp).1 (hb p hp).2, hf]

/- More free cells than stream bits (version 2, remainder cells), and fewer (version 1 with every cell reserved). -/
theorem witness_PlaceDataResult_lengths :
    ((uniform 2 0x00 44).mem.wf = true ∧ (uniform 2 0x00 44).SymbolWritten (side 2) ∧
      (List.replicate 44 0xFF#8).length = ntotal 2 ∧ (uniform 2 0x00 44).Holds icwBase (List.replicate 44 0xFF) ∧
      8 * ntotal 2 < (zigzag (side 2) (uniform 2 0x00 44).cellAt).length) ∧
    ((uniform 1 0x02 26).mem.wf = true ∧ (uniform 1 0x02 26).SymbolWritten (side 1) ∧
      (uniform 1 0x02 26).Holds icwBase (List.replicate 26 0xFF) ∧
      (zigzag (side 1) (uniform 1 0x02 26).cellAt).length < 8 * ntotal 1) ∧
    ¬ (uniform 1 0x02 25).Written icwBase (ntotal 1) := by
  have w2 : (uniform 2 0x00 44).mem.wf = true := by decide +kernel
  have w1 : (uniform 1 0x02 26).mem.wf = true := by decide +kernel
  refine ⟨⟨w2, fun r hr c hc => ?_, by decide, ?_, ?_⟩, ⟨w1, fun r hr c hc => ?_, ?_, ?_⟩, ?_⟩
  · rw [uniform_byteAt w2 hr hc]; rfl
  · unfold State.Holds; decide +kernel
  · rw [uniform_zigzag_free w2 rfl (by decide +kernel)]; decide +kernel
  · rw [uniform_byteAt w1 hr hc]; rfl
  · unfold State.Holds; decide +kernel
  · rw [uniform_zigzag_reserved w1 rfl (by decide +kernel)]; decide
  · unfold State.Written; decide +kernel

theorem witness_ApplyMaskResult : (matrix1 0x40).mem.wf = true ∧ (matrix1 0x40).ver = 1 ∧
    (matrix1 0x40).SymbolWritten (side 1) ∧ ((matrix1 0x40).cellAt 20 20).rsv = false ∧ State.reset.ver = 0 := by
  exact ⟨matrix1_wf, by decide, matrix1_symbolWritten, by decide +kernel, by decide⟩

theorem witness_MaskIsAnInvolution : (matrix1 0x40).Inv ∧ (matrix1 0x40).ver = 1 ∧ (matrix1 0x40).SymbolWritten (side 1) ∧
    ∀ e ∈ formatCells (side 1), ((matrix1 0x40).cellAt e.2.1 e.2.2).rsv = true := by
  refine ⟨?_, by decide, matrix1_symbolWritten, by decide +kernel⟩
  · apply inv_of_checks <;> decide +kernel

theorem witness_WriteFormatResult : State.reset.mem.wf = true ∧ State.ver { State.reset with version := 1 } = 1 ∧
    State.ver { State.reset with version := 10 } = 10 ∧ 14 < 15 ∧ 10 < State.ver { State.reset with version := 12 } := by decide

theorem witness_FormatCellsAreTheReservedOnes : 1 ≤ 1 ∧ 1 ≤ 10 ∧ 10 ≤ 10 := by decide

/- No payload, and a payload of 271 bytes (V-CTL-4, V-CTL-8); 272 bytes (V-CTL-6). -/
theorem witness_GenerateCompletes : (State.reset.Inv ∧ State.reset.len ≤ 271 ∧ State.reset.Written payloadBase State.reset.len) ∧
    (let s := { ram payloadBase (List.replicate 271 0x41) with lenLo := 0x0F, lenHi := 1 }
     s.Inv ∧ s.len = 271 ∧ s.Written payloadBase s.len) ∧
    271 < State.len { State.reset with lenLo := 0x10, lenHi := 1 } := by
  refine ⟨⟨?_, by decide, ?_⟩, ⟨?_, by decide, ?_⟩, by decide⟩
  · apply inv_of_checks <;> decide
  · unfold State.Written; decide
  · apply inv_of_checks <;> decide +kernel
  · unfold State.Written; decide +kernel

theorem witness_GenerateDependsOnThePayloadAlone : payloadA.Inv ∧
    State.Inv { payloadA with version := 9, stage := 3, res := 0x12, bpPos := 5 } ∧
    payloadA.len = State.len { payloadA with version := 9, stage := 3, res := 0x12, bpPos := 5 } ∧ payloadA.len ≤ 271 ∧
    payloadA.Written payloadBase payloadA.len := by
  refine ⟨?_, ?_, by decide, by decide, ?_⟩
  · apply inv_of_checks <;> decide
  · apply inv_of_checks <;> decide
  · unfold State.Written; decide

theorem witness_GenerateEqualsTheEightStages : payloadA.len ≤ 271 ∧ State.reset.len ≤ 271 := by decide

theorem witness_OnlyListedCommandsWriteEachPlace : State.reset.mem.wf = true ∧
    after (exec .nop State.reset) (·.done) = some true := by decide

theorem witness_ProfileReadouts : State.version { State.reset with version := 10 } = 10 ∧
    State.reset.version.toNat = 0 ∧ 10 < (State.version { State.reset with version := 11 }).toNat := by decide

theorem witness_PendingCommandIsTakenAfterHostAccesses : (busyWaiting (.host (.read 1 0x0004))).pending = some 0x00 ∧
    ∀ e ∈ (busyWaiting (.host (.read 1 0x0004))).events, ∃ x : Access, x.width = 1 ∧ e = .host x := by
  refine ⟨rfl, fun e he => ⟨.read 1 0x0004, rfl, ?_⟩⟩
  simpa [busyWaiting] using he

theorem witness_StepKeepsTheInvariant : (waiting (.host (.write 1 0x0003 0x70))).Inv ∧
    after (step (waiting (.host (.write 1 0x0003 0x70)))) (·.pending) = some (some 0x70) := by
  refine ⟨?_, by decide⟩
  apply inv_of_checks <;> decide

end Sys2Proof.Tests
end

section
/-! SUPPORT. The shape of a command's core step (its body, how the body ends) and the table of what each command may
write, with the reasoning rules both need: what a write set leaves in memory, and what a register write leaves. -/

namespace Sys2Proof.Proofs

open Sys2Proof.Machine Sys2Proof.Laws

/-! ### How a command body ends -/

/-- The body of each command's rule, of which `exec` is the completion (R310). -/
def commandBody : Instr → Body
  | .nop => nopBody
  | .gfAdd => gfAddBody
  | .gfMul => gfMulBody
  | .gfInv => gfInvBody
  | .gfExp => gfExpBody
  | .gfLog => gfLogBody
  | .polyEval => polyEvalBody
  | .rsGenpoly => rsGenpolyBody
  | .rsEncode => rsEncodeBody
  | .rsSyndrome => rsSyndromeBody
  | .bpClear => bpClearBody
  | .bpPut => bpPutBody
  | .selectVersion => selectVersionBody
  | .encodeStream => encodeStreamBody
  | .rsBlocks => rsBlocksBody
  | .interleave => interleaveBody
  | .matrixInit => matrixInitBody
  | .placeData => placeDataBody
  | .applyMask => applyMaskBody
  | .writeFormat => writeFormatBody
  | .generate => generateBody

theorem exec_eq_finish (i : Instr) (s : State) : exec i s = finish (commandBody i s) := by cases i <;> rfl

/-- The state a body leaves, whether it ends by its last line or by `raise`, meets `Q`; a fault leaves no state. -/
def Ends (Q : State → Prop) : Except Stop State → Prop
  | .ok t => Q t
  | .error (.raised _ t) => Q t
  | .error (.fault _) => True

theorem ends_fault (Q : State → Prop) (f : Fault) : Ends Q (.error (.fault f)) := trivial

theorem Ends.mono {Q R : State → Prop} {r : Except Stop State} (h : Ends Q r) (hQR : ∀ t, Q t → R t) : Ends R r := by
  rcases r with (⟨e, u⟩ | f) | u
  · exact hQR u h
  · trivial
  · exact hQR u h

/-- A condition that each of two bodies keeps is kept by running them one after the other. -/
theorem ends_andThen {Q : State → Prop} {first second : Body} {s : State} (h1 : Ends Q (first s))
    (h2 : ∀ u, Q u → Ends Q (second u)) : Ends Q (first.andThen second s) := by
  unfold Body.andThen
  rcases hr : first s with (⟨e, u⟩ | f) | u <;> rw [hr] at h1
  · exact h1
  · trivial
  · exact h2 u h1

/-- A command's next state is the state its body left, completed in one of the two ways of R310. -/
theorem exec_next_ends {Q : State → Prop} {i : Instr} {s t : State} (hQ : Ends Q (commandBody i s))
    (h : exec i s = .next t) : ∃ u, Q u ∧ (t = u.completeDone ∨ ∃ e, t = u.completeError e) := by
  rw [exec_eq_finish, finish_next_iff] at h
  obtain ⟨u, hr, rfl⟩ | ⟨e, u, hr, rfl⟩ := h <;> rw [hr] at hQ
  · exact ⟨u, hQ, .inl rfl⟩
  · exact ⟨u, hQ, .inr ⟨e, rfl⟩⟩

/-- A condition that every stage and every write of STAGE keeps is kept by the later stages of GENERATE (R111). -/
theorem laterStages_ends {Q : State → Prop} (hstage : ∀ i ∈ pipelineStages, ∀ u, Q u → Ends Q (commandBody i u))
    (hset : ∀ u (k : Byte), k.toNat ≤ 8 → Q u → Q (u.setStage k)) {s : State} (hs : Q s) : Ends Q (laterStages s) := by
  have key : ∀ i ∈ pipelineStages, ∀ k : Byte, k.toNat ≤ 8 → ∀ u, Q u → Ends Q (stageThen (commandBody i) k u) :=
    fun i hi k hk u hu => ends_andThen (hstage i hi u hu) fun v hv => hset v k hk hv
  refine ends_andThen (key .encodeStream (by decide) 2 (by decide) s hs) fun u hu => ?_
  refine ends_andThen (key .rsBlocks (by decide) 3 (by decide) u hu) fun u hu => ?_
  refine ends_andThen (key .interleave (by decide) 4 (by decide) u hu) fun u hu => ?_
  refine ends_andThen (key .matrixInit (by decide) 5 (by decide) u hu) fun u hu => ?_
  refine ends_andThen (key .placeData (by decide) 6 (by decide) u hu) fun u hu => ?_
  refine ends_andThen (key .applyMask (by decide) 7 (by decide) u hu) fun u hu => ?_
  exact key .writeFormat (by decide) 8 (by decide) u hu

/-- A condition that every stage, every write of STAGE and every write of VERSION keeps is kept by GENERATE (R111). -/
theorem generateBody_ends {Q : State → Prop} (hstage : ∀ i ∈ pipelineStages, ∀ u, Q u → Ends Q (commandBody i u))
    (hset : ∀ u (k : Byte), k.toNat ≤ 8 → Q u → Q (u.setStage k))
    (hver : ∀ u (v : Byte), Q u → Q { u with version := v }) {s : State} (hs : Q s) : Ends Q (generateBody s) := by
  rcases generateBody_cases s with ⟨-, h⟩ | ⟨v, -, h⟩ <;> rw [h]
  · exact hset s 0 (by decide) hs
  · exact laterStages_ends hstage hset (hver _ _ (hset s 1 (by decide) hs))

/-! ### What a write set leaves in memory -/

/-- `m'` is canonical and reads at each address as `m` does or as one of `cells` says. -/
structure Overwrites (cells m m' : Memory) : Prop where
  wf : m'.wf = true
  reads : ∀ a, memRead m' a = memRead m a ∨ ∃ b, (a, b) ∈ cells ∧ memRead m' a = some b

theorem overwrites_of_memRead {cells m m' : Memory} (hwf : m'.wf = true)
    (h : ∀ a, memRead m' a = (memRead cells a).or (memRead m a)) : Overwrites cells m m' where
  wf := hwf
  reads a := by
    rw [h a]
    cases hc : memRead cells a with
    | none => exact .inl rfl
    | some b => exact .inr ⟨b, memRead_some_mem hc, rfl⟩

theorem overwrites_memOverlay {cells m : Memory} (hc : cells.wf = true) (hm : m.wf = true) :
    Overwrites cells m (memOverlay cells m) :=
  overwrites_of_memRead (wf_memOverlay hc hm) (memRead_memOverlay (wf_rising hc) (wf_rising hm))

theorem overwrites_memWriteAll {cells m : Memory} (hc : ∀ e ∈ cells, isRam e.1 = true) (hm : m.wf = true) :
    Overwrites cells m (memWriteAll cells m) where
  wf := wf_memWriteAll hc hm
  reads a := by
    rw [memRead_memWriteAll cells (wf_rising hm)]
    cases h : memRead cells.reverse a with
    | none => exact .inl rfl
    | some b => exact .inr ⟨b, List.mem_reverse.1 (memRead_some_mem h), rfl⟩

/-- An address no cell names reads as before. -/
theorem Overwrites.same {cells m m' : Memory} (h : Overwrites cells m m') {a : Nat} (ha : ∀ e ∈ cells, e.1 ≠ a) :
    memRead m' a = memRead m a := by
  rcases h.reads a with h | ⟨b, hb, -⟩
  · exact h
  · exact absurd rfl (ha _ hb)

/-! ### Address lists and the cells written at them -/

theorem addrsRise_of_sublist {as bs : List Nat} (h : as.Sublist bs) {lo : Nat} (hb : addrsRise lo bs) :
    addrsRise lo as := by
  induction h generalizing lo with
  | slnil => trivial
  | cons b _ ih => exact addrsRise_mono (ih hb.2) (by have := hb.1; omega)
  | cons_cons b _ ih => exact ⟨hb.1, ih hb.2⟩

/-- Cells are canonical when their addresses rise. -/
theorem risingFrom_iff_addrsRise {α : Type} {lo : Nat} {cells : List (Nat × α)} :
    risingFrom lo cells = true ↔ addrsRise lo (cells.map Prod.fst) := by
  induction cells generalizing lo with
  | nil => exact iff_of_true rfl trivial
  | cons e cells ih => exact (risingFrom_cons ..).trans (and_congr_right fun _ => ih)

/-- Cells whose addresses are taken, in order, from rising addresses of RAM are canonical memory. -/
theorem wf_of_keys {cells : Memory} {as : List Nat} {lo : Nat} (hk : (cells.map Prod.fst).Sublist as)
    (ha : addrsRise lo as) (hr : ∀ a ∈ as, isRam a = true) : cells.wf = true :=
  (wf_iff cells).2 ⟨risingFrom_iff_addrsRise.2 (addrsRise_mono (addrsRise_of_sublist hk ha) (Nat.zero_le lo)),
    fun _ he => hr _ (hk.subset (List.mem_map_of_mem he))⟩

theorem map_fst_zip_sublist {α β : Type} (as : List α) (bs : List β) : ((as.zip bs).map Prod.fst).Sublist as := by
  induction as generalizing bs with
  | nil => exact .slnil
  | cons a as ih =>
    cases bs with
    | nil => exact List.nil_sublist _
    | cons b bs => exact (ih bs).cons_cons a

/-! ### The PROFILE ROM, as bounds -/

theorem validVersion_iff (v : Nat) : validVersion v = true ↔ 1 ≤ v ∧ v ≤ 10 := by
  rw [validVersion, Bool.and_eq_true]
  exact and_congr decide_eq_true_iff decide_eq_true_iff

/-- What the buffers must hold at every legal version (R45, R53-R56). -/
theorem profile_bounds {v : Nat} (h : validVersion v = true) :
    ndata v ≤ 274 ∧ 1 ≤ ecpb v ∧ ecpb v ≤ 30 ∧ nblk v ≤ 4 ∧ side v ≤ 57 ∧
      maxBlockLen v * nblk v + ecpb v * nblk v ≤ 512 := by
  obtain ⟨h1, h10⟩ := (validVersion_iff v).1 h
  interval_cases v <;> decide

/-! ### Where each command writes -/

/-- The parts of the state that a rule names as written or not: the registers no command writes (LASTCMD and WIGN among
them), the registers some command writes, the separate bits of DCW, and the buffers. -/
inductive Place where
  | operands | res | version | bpPos | stage | dcwBits
  | buffer (b : BufName)

/-- Address `a` lies in buffer `b` (R48, R57). -/
def InBuffer (b : BufName) (a : Nat) : Prop := bufBase b ≤ a ∧ a < bufBase b + b.size

/-- A place holds in `t` what it holds in `s`. -/
def Place.Same (s t : State) : Place → Prop
  | .operands => t.opa = s.opa ∧ t.opb = s.opb ∧ t.k = s.k ∧ t.plen = s.plen ∧ t.lenLo = s.lenLo ∧ t.lenHi = s.lenHi ∧
      t.bpNbits = s.bpNbits ∧ t.bpValLo = s.bpValLo ∧ t.bpValHi = s.bpValHi ∧ t.lastCmd = s.lastCmd ∧ t.wign = s.wign
  | .res => t.res = s.res
  | .version => t.version = s.version
  | .bpPos => t.bpPos = s.bpPos
  | .stage => t.stage = s.stage
  | .dcwBits => t.dcwBits = s.dcwBits
  | .buffer b => ∀ a, InBuffer b a → t.byteAt a = s.byteAt a

theorem Place.Same.refl (p : Place) (s : State) : p.Same s s := by cases p <;> simp [Place.Same]

theorem Place.Same.trans {p : Place} {s t u : State} (h1 : p.Same s t) (h2 : p.Same t u) : p.Same s u := by
  cases p
  case operands => simp_all [Place.Same]
  case buffer b => exact fun a ha => (h2 a ha).trans (h1 a ha)
  all_goals exact Eq.trans h2 h1

/-- The commands that write each place: the tables of R63 and R48. -/
def writers : Place → List Instr
  | .operands => []
  | .res => [.gfAdd, .gfMul, .gfInv, .gfExp, .gfLog, .polyEval, .rsSyndrome]
  | .version => [.selectVersion, .generate]
  | .bpPos => [.bpClear, .bpPut, .encodeStream, .generate]
  | .stage => [.generate]
  | .dcwBits => [.bpPut, .encodeStream, .generate]
  | .buffer .payload => []
  | .buffer .dcw => [.bpPut, .encodeStream, .generate]
  | .buffer .poly => []
  | .buffer .gen => [.rsGenpoly, .rsEncode, .rsBlocks, .generate]
  | .buffer .rem => [.rsEncode]
  | .buffer .syn => [.rsSyndrome]
  | .buffer .icw => [.interleave, .generate]
  | .buffer .ecw => [.rsBlocks, .generate]
  | .buffer .matrix => [.matrixInit, .placeData, .applyMask, .writeFormat, .generate]

/-- Everything a stage of GENERATE writes, GENERATE writes (R111). -/
theorem generate_mem_writers (p : Place) : ∀ i ∈ pipelineStages, i ∈ writers p → .generate ∈ writers p := by
  cases p
  case buffer b => cases b <;> decide
  all_goals decide

theorem buffers_apart (b b' : BufName) (h : b ≠ b') :
    bufBase b + b.size ≤ bufBase b' ∨ bufBase b' + b'.size ≤ bufBase b := by
  cases b <;> cases b' <;> revert h <;> decide

theorem InBuffer.unique {b b' : BufName} {a : Nat} (h : InBuffer b a) (h' : InBuffer b' a) : b = b' := by
  by_contra hne
  have := buffers_apart b b' hne
  simp only [InBuffer] at h h'
  omega

theorem InBuffer.isRam {b : BufName} {a : Nat} (h : InBuffer b a) : isRam a = true := by
  have key : (0x0200 ≤ bufBase b ∧ bufBase b + b.size ≤ 0x0A80) ∨ (0x1000 ≤ bufBase b ∧ bufBase b + b.size ≤ 0x2000) := by
    cases b <;> decide
  rw [isRam_iff]
  simp only [InBuffer] at h
  omega

/-- What command `i` may do between the states `s` and `t`: memory stays canonical, a MATRIX cell takes no byte above 3,
and every place `i` does not write holds what it held. -/
structure Writes (i : Instr) (s t : State) : Prop where
  wf : t.mem.wf = true
  cells : ∀ a b, matrixBase ≤ a → t.byteAt a = some b → s.byteAt a = some b ∨ b.toNat < 4
  same : ∀ p, i ∉ writers p → p.Same s t

theorem Writes.refl {s : State} (i : Instr) (hm : s.mem.wf = true) : Writes i s s :=
  ⟨hm, fun _ _ _ h => .inl h, fun p _ => .refl p s⟩

theorem Writes.trans {i : Instr} {s t u : State} (h1 : Writes i s t) (h2 : Writes i t u) : Writes i s u where
  wf := h2.wf
  cells a b ha hb := (h2.cells a b ha hb).elim (h1.cells a b ha) .inr
  same p hp := (h1.same p hp).trans (h2.same p hp)

theorem Writes.ofStage {i : Instr} {s t : State} (hi : i ∈ pipelineStages) (h : Writes i s t) : Writes .generate s t :=
  ⟨h.wf, h.cells, fun p hp => h.same p fun hip => hp (generate_mem_writers p i hi hip)⟩

theorem InBuffer.lt_matrixBase {b : BufName} {a : Nat} (h : InBuffer b a) (hb : b ≠ .matrix) : a < matrixBase := by
  have key : bufBase b + b.size ≤ matrixBase := by cases b <;> revert hb <;> decide
  simp only [InBuffer] at h
  omega

/-- Writes into the buffers command `i` writes, with MATRIX bytes below 4, are what `i` may do. -/
theorem writes_of_overwrites {i : Instr} {cells : Memory} {s : State} {m : Memory} (h : Overwrites cells s.mem m)
    (hb : ∀ e ∈ cells, ∃ b, InBuffer b e.1 ∧ i ∈ writers (.buffer b))
    (hc : ∀ e ∈ cells, matrixBase ≤ e.1 → e.2.toNat < 4) : Writes i s { s with mem := m } where
  wf := h.wf
  cells a b ha hab := by
    rcases h.reads a with hr | ⟨x, hx, hr⟩
    · exact .inl (hr.symm.trans hab)
    · have hxb : x = b := Option.some.inj (hr.symm.trans hab)
      exact .inr (hxb ▸ hc _ hx ha)
  same p hp := by
    cases p
    case buffer b =>
      refine fun a ha => h.same fun e he hea => hp ?_
      obtain ⟨b', hb', hw⟩ := hb e he
      rwa [ha.unique (hea ▸ hb')]
    all_goals simp [Place.Same]

/-- The same for writes into one buffer other than MATRIX. -/
theorem writes_of_overwrites_buffer {i : Instr} (b : BufName) {cells : Memory} {s : State} {m : Memory}
    (h : Overwrites cells s.mem m) (hb : ∀ e ∈ cells, InBuffer b e.1) (hi : i ∈ writers (.buffer b))
    (hne : b ≠ .matrix) : Writes i s { s with mem := m } :=
  writes_of_overwrites h (fun e he => ⟨b, hb e he, hi⟩) fun e he ha =>
    absurd ha (Nat.not_le.2 ((hb e he).lt_matrixBase hne))

/-- Consecutive bytes stored inside a buffer other than MATRIX. -/
theorem writes_store_cellsAt {i : Instr} (b : BufName) {s : State} {bytes : List Byte} (hm : s.mem.wf = true)
    (hl : bytes.length ≤ b.size) (hi : i ∈ writers (.buffer b)) (hne : b ≠ .matrix) :
    Writes i s (s.store (cellsAt (bufBase b) bytes)) := by
  have hb : ∀ a, bufBase b ≤ a → a < bufBase b + bytes.length → InBuffer b a := fun a h1 h2 => ⟨h1, by omega⟩
  exact writes_of_overwrites_buffer b (overwrites_memOverlay (wf_cellsAt fun a h1 h2 => (hb a h1 h2).isRam) hm)
    (fun e he => hb _ (mem_cellsAt he).1 (mem_cellsAt he).2) hi hne

/-- A command may put any value into the registers it writes. -/
theorem writes_registers {i : Instr} {s : State} (hm : s.mem.wf = true) {r v k : Byte} {p : BitVec 13}
    (hr : i ∈ writers .res ∨ r = s.res) (hv : i ∈ writers .version ∨ v = s.version)
    (hp : i ∈ writers .bpPos ∨ p = s.bpPos) (hk : i ∈ writers .stage ∨ k = s.stage) :
    Writes i s { s with res := r, version := v, bpPos := p, stage := k } where
  wf := hm
  cells _ _ _ h := .inl h
  same q hq := by
    cases q
    case operands => simp [Place.Same]
    case res => exact hr.resolve_left hq
    case version => exact hv.resolve_left hq
    case bpPos => exact hp.resolve_left hq
    case stage => exact hk.resolve_left hq
    case dcwBits => rfl
    case buffer b => exact fun _ _ => rfl

theorem writes_setRes {i : Instr} {s : State} (hm : s.mem.wf = true) (hi : i ∈ writers .res) (v : Byte) :
    Writes i s (s.setRes v) :=
  writes_registers hm (.inl hi) (.inr rfl) (.inr rfl) (.inr rfl)

theorem writes_setVersion {i : Instr} {s : State} (hm : s.mem.wf = true) (hi : i ∈ writers .version) (v : Byte) :
    Writes i s { s with version := v } :=
  writes_registers hm (.inr rfl) (.inl hi) (.inr rfl) (.inr rfl)

theorem writes_setBpPos {i : Instr} {s : State} (hm : s.mem.wf = true) (hi : i ∈ writers .bpPos) (p : BitVec 13) :
    Writes i s { s with bpPos := p } :=
  writes_registers hm (.inr rfl) (.inr rfl) (.inl hi) (.inr rfl)

theorem writes_setStage {i : Instr} {s : State} (hm : s.mem.wf = true) (hi : i ∈ writers .stage) (k : Byte) :
    Writes i s (s.setStage k) :=
  writes_registers hm (.inr rfl) (.inr rfl) (.inr rfl) (.inl hi)

end Sys2Proof.Proofs
end

section
/-! SUPPORT. What each command outside the bit stream writes, body by body, with the address ranges it rests on. -/

namespace Sys2Proof.Proofs

open Sys2Proof.Machine Sys2Proof.Laws

/-! ### The addresses the codeword and matrix commands write -/

/-- The ECW addresses rise, block by block (R56). -/
theorem addrsRise_ecwAddrs {v : Nat} (h : ecpb v ≤ 32) : addrsRise ecwBase (ecwAddrs v) := by
  have key : ∀ n, addrsRise ecwBase ((List.range n).flatMap fun b => (List.range (ecpb v)).map fun j => ecwAddr b j) := by
    intro n
    induction n with
    | zero => trivial
    | succ n ih =>
      rw [List.range_succ, List.flatMap_append]
      simp only [List.flatMap_cons, List.flatMap_nil, List.append_nil]
      refine addrsRise_append (mid := ecwAddr n 0) ih (by simp only [ecwAddr]; omega) ?_ ?_
      · intro a ha
        simp only [List.mem_flatMap, List.mem_map, List.mem_range] at ha
        obtain ⟨b, hb, j, hj, rfl⟩ := ha
        simp only [ecwAddr]
        omega
      · exact addrsRise_map_succ le_rfl fun i _ => by simp only [ecwAddr]; omega
  exact key (nblk v)

theorem inBuffer_ecwAddrs {v a : Nat} (h : validVersion v = true) (ha : a ∈ ecwAddrs v) : InBuffer .ecw a := by
  obtain ⟨-, -, hec, hnb, -, -⟩ := profile_bounds h
  simp only [ecwAddrs, List.mem_flatMap, List.mem_map, List.mem_range] at ha
  obtain ⟨b, hb, j, hj, rfl⟩ := ha
  simp only [InBuffer, bufBase, BufName.size, ecwAddr]
  omega

theorem columnwise_length_le (len : Nat) (blocks : List (List Byte)) :
    (columnwise len blocks).length ≤ len * blocks.length := by
  induction len with
  | zero => simp [columnwise]
  | succ len ih =>
    have := List.length_filterMap_le (fun block : List Byte => block[len]?) blocks
    rw [columnwise, List.range_succ, List.flatMap_append, List.length_append, Nat.succ_mul]
    simpa [columnwise] using Nat.add_le_add ih this

/-- The interleaved stream of a legal version fits ICW (R55). -/
theorem interleaved_length_le {v : Nat} (h : validVersion v = true) (data ec : List Byte) :
    (interleaved v data ec).length ≤ 512 := by
  obtain ⟨-, -, -, -, -, hi⟩ := profile_bounds h
  have h1 := columnwise_length_le (maxBlockLen v) (splitBlocks v data)
  have h2 := columnwise_length_le (ecpb v) (splitEc v ec)
  simp only [splitBlocks, splitEc, List.length_map, List.length_range] at h1 h2
  rw [interleaved, List.length_append]
  simp only [splitBlocks, splitEc]
  omega

theorem inBuffer_cellAddr {r c : Nat} (hr : r < 64) (hc : c < 64) : InBuffer .matrix (cellAddr r c) := by
  simp only [InBuffer, bufBase, BufName.size, cellAddr]
  omega

theorem mem_symbolCells {n : Nat} {p : Nat × Nat} : p ∈ symbolCells n ↔ p.1 < n ∧ p.2 < n := by
  obtain ⟨r, c⟩ := p
  simp [symbolCells]

/-- Every column pair lies inside the symbol (R262). -/
theorem columnPairs_le {fuel right : Nat} {up : Bool} {pair : Nat × Bool} (h : pair ∈ columnPairs fuel right up) :
    pair.1 ≤ right := by
  induction fuel generalizing right up with
  | zero => simp [columnPairs] at h
  | succ fuel ih =>
    rw [columnPairs] at h
    have hr : (if right = 6 then 5 else right) ≤ right := by split <;> omega
    split at h
    · rcases List.mem_cons.1 h with rfl | h
      · exact hr
      · exact (ih h).trans ((Nat.sub_le ..).trans hr)
    · simp at h

/-- The zig-zag traversal stays inside the symbol (R262). -/
theorem zigzag_lt {n : Nat} {g : Grid} {p : Nat × Nat} (h : p ∈ zigzag n g) : p.1 < n ∧ p.2 < n := by
  simp only [zigzag, List.mem_filter, List.mem_flatMap, pairCells, List.mem_range, List.mem_cons,
    List.not_mem_nil, or_false] at h
  obtain ⟨⟨pair, hpair, k, hk, hp⟩, -⟩ := h
  have := columnPairs_le hpair
  have hr : (if pair.2 = true then n - 1 - k else k) < n := by split <;> omega
  rcases hp with rfl | rfl <;> exact ⟨hr, by dsimp only; omega⟩

theorem formatCells_lt {n : Nat} (h1 : 15 ≤ n) {e : Nat × (Nat × Nat)} (h : e ∈ formatCells n) :
    e.2.1 < n ∧ e.2.2 < n := by
  simp only [formatCells, List.mem_append, List.mem_map, List.mem_range] at h
  obtain ⟨i, hi, rfl⟩ | ⟨i, hi, rfl⟩ := h
  · dsimp only [formatCell1]
    split_ifs <;> dsimp only <;> omega
  · dsimp only [formatCell2]
    split_ifs <;> dsimp only <;> omega

/-! ### What each command writes -/

/-- Cells of MATRIX, each with bits 7:2 clear. -/
def MatrixCells (cells : Memory) : Prop := ∀ e ∈ cells, InBuffer .matrix e.1 ∧ e.2.toNat < 4

theorem writes_of_overwrites_matrix {i : Instr} {cells : Memory} {s : State} {m : Memory} (h : Overwrites cells s.mem m)
    (hc : MatrixCells cells) (hi : i ∈ writers (.buffer .matrix)) : Writes i s { s with mem := m } :=
  writes_of_overwrites h (fun e he => ⟨.matrix, (hc e he).1, hi⟩) fun e he _ => (hc e he).2

theorem writes_memWriteAll {i : Instr} {cells : Memory} {s : State} (hm : s.mem.wf = true) (hc : MatrixCells cells)
    (hi : i ∈ writers (.buffer .matrix)) : Writes i s { s with mem := memWriteAll cells s.mem } :=
  writes_of_overwrites_matrix (overwrites_memWriteAll (fun e he => (hc e he).1.isRam) hm) hc hi

theorem matrixCells_structCells (v : Nat) : MatrixCells (structCells v) := by
  intro e he
  simp only [structCells, gridCells, List.mem_map, List.mem_range] at he
  obtain ⟨i, hi, rfl⟩ := he
  exact ⟨⟨by simp [bufBase], by simpa [bufBase, BufName.size] using hi⟩, toByte_lt _⟩

theorem matrixCells_placements {n : Nat} (hn : n ≤ 64) (g : Grid) (bits : List Bool) :
    MatrixCells (placements (zigzag n g) bits) := by
  intro e he
  simp only [placements, List.mem_map] at he
  obtain ⟨x, hx, rfl⟩ := he
  obtain ⟨hr, hc⟩ := zigzag_lt (List.of_mem_zip hx).1
  exact ⟨inBuffer_cellAddr (by omega) (by omega), toByte_lt _⟩

theorem matrixCells_formatWrites {n : Nat} (h1 : 15 ≤ n) (hn : n ≤ 64) : MatrixCells (formatWrites n) := by
  intro e he
  simp only [formatWrites, List.mem_map] at he
  obtain ⟨x, hx, rfl⟩ := he
  obtain ⟨hr, hc⟩ := formatCells_lt h1 hx
  exact ⟨inBuffer_cellAddr (by omega) (by omega), toByte_lt _⟩

theorem matrixCells_maskedCells {n : Nat} (hn : n ≤ 64) (cells : List ModuleCell) : MatrixCells (maskedCells n cells) := by
  intro e he
  simp only [maskedCells, List.mem_filterMap, Option.ite_none_right_eq_some, Option.some.injEq] at he
  obtain ⟨x, hx, -, rfl⟩ := he
  obtain ⟨hr, hc⟩ := mem_symbolCells.1 (List.of_mem_zip hx).1
  exact ⟨inBuffer_cellAddr (by omega) (by omega), toByte_lt _⟩

/-- Cells made of some elements of a list, in order, have their addresses in that order. -/
theorem map_fst_filterMap_sublist {α β : Type} {f : α → Option (Nat × β)} {addr : α → Nat}
    (hf : ∀ e x, f e = some x → x.1 = addr e) (l : List α) :
    ((l.filterMap f).map Prod.fst).Sublist (l.map addr) := by
  induction l with
  | nil => exact .slnil
  | cons e l ih =>
    cases he : f e with
    | none => rw [List.filterMap_cons_none he]; exact ih.cons (addr e)
    | some x => rw [List.filterMap_cons_some he, List.map_cons, hf e x he]; exact ih.cons_cons (addr e)

/-- The flipped cells are canonical memory: they come in the order of the symbol's cells. -/
theorem wf_maskedCells {n : Nat} (hn : n ≤ 64) (cells : List ModuleCell) : Memory.wf (maskedCells n cells) = true := by
  refine wf_of_keys (as := symbolAddrs n) ?_ (addrsRise_symbolAddrs hn) ?_
  · have hz := (map_fst_zip_sublist (symbolCells n) cells).map fun p => cellAddr p.1 p.2
    rw [List.map_map] at hz
    refine (map_fst_filterMap_sublist (fun e x hx => ?_) _).trans hz
    rw [Option.ite_none_right_eq_some] at hx
    obtain ⟨-, hx⟩ := hx
    cases hx
    rfl
  · intro a ha
    simp only [symbolAddrs, List.mem_map] at ha
    obtain ⟨p, hp, rfl⟩ := ha
    obtain ⟨hr, hc⟩ := mem_symbolCells.1 hp
    exact isRam_cell (by omega) (by omega)

section Bodies

variable {s : State} (hm : s.mem.wf = true)
include hm

theorem gfInvBody_writes : Ends (Writes .gfInv s) (gfInvBody s) := by
  rcases gfInvBody_cases s with ⟨-, h⟩ | ⟨-, h⟩ <;> rw [h]
  · exact .refl _ hm
  · exact writes_setRes hm (by decide) _

theorem gfLogBody_writes : Ends (Writes .gfLog s) (gfLogBody s) := by
  rcases gfLogBody_cases s with ⟨-, h⟩ | ⟨-, h⟩ <;> rw [h]
  · exact .refl _ hm
  · exact writes_setRes hm (by decide) _

theorem polyEvalBody_writes : Ends (Writes .polyEval s) (polyEvalBody s) := by
  rcases polyEvalBody_cases s with ⟨-, h⟩ | ⟨a, -, h⟩ | ⟨-, p, -, h⟩ <;> rw [h]
  · exact .refl _ hm
  · exact ends_fault ..
  · exact writes_setRes hm (by decide) _

theorem rsGenpolyBody_writes : Ends (Writes .rsGenpoly s) (rsGenpolyBody s) := by
  rcases rsGenpolyBody_cases s with ⟨-, h⟩ | ⟨hk, h⟩ <;> rw [h]
  · exact .refl _ hm
  · exact writes_store_cellsAt .gen hm (by simp only [genpoly_length, BufName.size]; omega) (by decide) (by decide)

theorem rsEncodeBody_writes : Ends (Writes .rsEncode s) (rsEncodeBody s) := by
  rcases rsEncodeBody_cases s with ⟨-, h⟩ | ⟨-, -, h⟩ | ⟨a, -, h⟩ | ⟨hk, -, d, -, h⟩ <;> rw [h]
  · exact .refl _ hm
  · exact .refl _ hm
  · exact ends_fault ..
  · have hgen : Writes .rsEncode s (s.store (cellsAt genBase (genpoly s.k.toNat))) :=
      writes_store_cellsAt .gen hm (by simp only [genpoly_length, BufName.size]; omega) (by decide) (by decide)
    refine hgen.trans (writes_store_cellsAt .rem hgen.wf ?_ (by decide) (by decide))
    rw [rsrem_length d hk.1]
    exact hk.2

theorem rsSyndromeBody_writes : Ends (Writes .rsSyndrome s) (rsSyndromeBody s) := by
  rcases rsSyndromeBody_cases s with ⟨-, h⟩ | ⟨-, -, h⟩ | ⟨a, -, h⟩ | ⟨hk, -, c, -, h⟩ <;> rw [h]
  · exact .refl _ hm
  · exact .refl _ hm
  · exact ends_fault ..
  · have hsyn : Writes .rsSyndrome s (s.store (cellsAt synBase (syndromes c s.k.toNat))) :=
      writes_store_cellsAt .syn hm (by rw [syndromes_length]; exact hk.2) (by decide) (by decide)
    exact hsyn.trans (writes_setRes hsyn.wf (by decide) _)

theorem rsBlocksBody_writes : Ends (Writes .rsBlocks s) (rsBlocksBody s) := by
  rcases rsBlocksBody_cases s with ⟨-, h⟩ | ⟨a, h⟩ | ⟨hv, data, -, h⟩ <;> rw [h]
  · exact .refl _ hm
  · exact ends_fault ..
  · obtain ⟨-, -, hec, -, -, -⟩ := profile_bounds hv
    have hgen : Writes .rsBlocks s (s.store (cellsAt genBase (genpoly (ecpb s.ver)))) :=
      writes_store_cellsAt .gen hm (by simp only [genpoly_length, BufName.size]; omega) (by decide) (by decide)
    have hkeys := map_fst_zip_sublist (ecwAddrs s.ver)
      ((splitBlocks s.ver data).flatMap fun block => rsrem block (ecpb s.ver))
    have hwf := wf_of_keys hkeys (addrsRise_ecwAddrs (by omega)) fun a ha => (inBuffer_ecwAddrs hv ha).isRam
    exact hgen.trans (writes_of_overwrites_buffer .ecw (overwrites_memOverlay hwf hgen.wf)
      (fun e he => inBuffer_ecwAddrs hv (List.of_mem_zip he).1) (by decide) (by decide))

theorem interleaveBody_writes : Ends (Writes .interleave s) (interleaveBody s) := by
  rcases interleaveBody_cases s with ⟨-, h⟩ | ⟨a, h⟩ | ⟨hv, data, ec, -, -, h⟩ <;> rw [h]
  · exact .refl _ hm
  · exact ends_fault ..
  · exact writes_store_cellsAt .icw hm (interleaved_length_le hv data ec) (by decide) (by decide)

theorem bpClearBody_writes : Ends (Writes .bpClear s) (bpClearBody s) := writes_setBpPos hm (by decide) 0

theorem selectVersionBody_writes : Ends (Writes .selectVersion s) (selectVersionBody s) := by
  rcases selectVersionBody_cases s with ⟨-, h⟩ | ⟨v, -, h⟩ <;> rw [h]
  · exact .refl _ hm
  · exact writes_setVersion hm (by decide) _

theorem matrixInitBody_writes : Ends (Writes .matrixInit s) (matrixInitBody s) := by
  rcases matrixInitBody_cases s with ⟨-, h⟩ | ⟨-, h⟩ <;> rw [h]
  · exact .refl _ hm
  · exact writes_of_overwrites_matrix (overwrites_memOverlay (wf_gridCells _) hm) (matrixCells_structCells _) (by decide)

theorem placeDataBody_writes : Ends (Writes .placeData s) (placeDataBody s) := by
  rcases placeDataBody_cases s with ⟨-, h⟩ | ⟨a, h⟩ | ⟨hv, bytes, codewords, -, free, rfl, -, h⟩ <;> rw [h]
  · exact .refl _ hm
  · exact ends_fault ..
  · obtain ⟨-, -, -, -, hside, -⟩ := profile_bounds hv
    exact writes_memWriteAll hm (matrixCells_placements (by omega) _ _) (by decide)

theorem applyMaskBody_writes : Ends (Writes .applyMask s) (applyMaskBody s) := by
  rcases applyMaskBody_cases s with ⟨-, h⟩ | ⟨a, h⟩ | ⟨hv, bytes, -, h⟩ <;> rw [h]
  · exact .refl _ hm
  · exact ends_fault ..
  · obtain ⟨-, -, -, -, hside, -⟩ := profile_bounds hv
    have hn : side s.ver ≤ 64 := by omega
    exact writes_of_overwrites_matrix (overwrites_memOverlay (wf_maskedCells hn _) hm) (matrixCells_maskedCells hn _)
      (by decide)

theorem writeFormatBody_writes : Ends (Writes .writeFormat s) (writeFormatBody s) := by
  rcases writeFormatBody_cases s with ⟨-, h⟩ | ⟨hv, h⟩ <;> rw [h]
  · exact .refl _ hm
  · obtain ⟨-, -, -, -, hside, -⟩ := profile_bounds hv
    exact writes_memWriteAll hm (matrixCells_formatWrites (by unfold side; omega) (by omega)) (by decide)

end Bodies

end Sys2Proof.Proofs
end

section
/-! PROOF. What the bit stream and GENERATE write, and from all commands together O56. -/

namespace Sys2Proof.Proofs

open Sys2Proof.Machine Sys2Proof.Laws

theorem memGather_length {α : Type} {addrs : List Nat} {m : List (Nat × α)} {bytes : List α}
    (h : memGather addrs m = .ok bytes) : bytes.length = addrs.length := by
  induction addrs generalizing m bytes with
  | nil => cases h; rfl
  | cons a addrs ih =>
    rw [memGather] at h
    split at h
    · cases h
    · next k b rest _ =>
      split at h
      · cases hg : memGather addrs rest with
        | error x => rw [hg] at h; cases h
        | ok bs => rw [hg] at h; cases h; rw [List.length_cons, List.length_cons, ih hg]
      · cases h

/-! ### The bit-packer: what every `putBit` inside DCW keeps, every put and the whole encoder keep -/

section Keeps

variable {Q : State → Prop} (hput : ∀ s b, Q s → s.bpPos.toNat < 4096 → Q (s.putBit b))
include hput

theorem putBits_keeps (bits : List Bool) {s : State} (hs : Q s) (hp : s.bpPos.toNat + bits.length ≤ 4096) :
    Q (bits.foldl State.putBit s) ∧ (bits.foldl State.putBit s).bpPos.toNat = s.bpPos.toNat + bits.length := by
  induction bits generalizing s with
  | nil => exact ⟨hs, rfl⟩
  | cons b bits ih =>
    rw [List.length_cons] at hp
    have hlt : s.bpPos.toNat < 4096 := by omega
    have hpos := putBit_pos hlt b
    obtain ⟨hQ, hend⟩ := ih (hput s b hs hlt) (by omega)
    rw [List.length_cons, List.foldl_cons]
    exact ⟨hQ, by omega⟩

theorem put_keeps (val nb : Nat) {s : State} (hs : Q s) (hp : s.bpPos.toNat + nb ≤ 4096) :
    Q (s.put val nb) ∧ (s.put val nb).bpPos.toNat = s.bpPos.toNat + nb := by
  have h := putBits_keeps hput (bitsOf nb val) hs (by rwa [bitsOf_length])
  rwa [bitsOf_length] at h

theorem putBytes_keeps (bytes : List Byte) {s : State} (hs : Q s) (hp : s.bpPos.toNat + 8 * bytes.length ≤ 4096) :
    Q (bytes.foldl (fun s b => s.put b.toNat 8) s) ∧
      (bytes.foldl (fun s b => s.put b.toNat 8) s).bpPos.toNat = s.bpPos.toNat + 8 * bytes.length := by
  induction bytes generalizing s with
  | nil => exact ⟨hs, rfl⟩
  | cons b bytes ih =>
    rw [List.length_cons] at hp
    obtain ⟨hQ, hpos⟩ := put_keeps hput b.toNat 8 hs (by omega)
    obtain ⟨hQ', hend⟩ := ih hQ (by omega)
    rw [List.length_cons, List.foldl_cons]
    exact ⟨hQ', by omega⟩

/-- Padding to a byte boundary does not pass the next one. -/
theorem padToByte_keeps {n : Nat} (hn : 8 * n ≤ 4096) (fuel : Nat) {s : State} (hs : Q s)
    (hp : s.bpPos.toNat ≤ 8 * n) :
    Q (State.padToByte fuel s) ∧ (State.padToByte fuel s).bpPos.toNat ≤ 8 * n := by
  induction fuel generalizing s with
  | zero => exact ⟨hs, hp⟩
  | succ fuel ih =>
    rw [State.padToByte]
    split
    · obtain ⟨hQ, hpos⟩ := put_keeps hput 0 1 hs (by omega)
      exact ih hQ (by omega)
    · exact ⟨hs, hp⟩

theorem putPads_keeps {cap : Nat} (hcap : cap + 8 ≤ 4096) (fuel i : Nat) {s : State} (hs : Q s) :
    Q (State.putPads cap fuel i s) := by
  induction fuel generalizing i s with
  | zero => exact hs
  | succ fuel ih =>
    rw [State.putPads]
    split
    · exact ih _ (put_keeps hput (padByte i) 8 hs (by omega)).1
    · exact hs

/-- A stream that fits its version stays inside DCW while it is written (R135). -/
theorem putStream_keeps {s : State} {v : Nat} {payload : List Byte} (hv : validVersion v = true)
    (hf : fits v payload.length = true) (hs : Q { s with bpPos := 0 }) : Q (s.putStream v payload) := by
  obtain ⟨hnd, -⟩ := profile_bounds hv
  have hfit : 4 + cci v + 8 * payload.length + 4 ≤ 8 * ndata v := of_decide_eq_true hf
  have h0 : ({ s with bpPos := 0 } : State).bpPos.toNat = 0 := rfl
  obtain ⟨hQ1, hp1⟩ := put_keeps hput 0b0100 4 hs (by omega)
  obtain ⟨hQ2, hp2⟩ := put_keeps hput payload.length (cci v) hQ1 (by omega)
  obtain ⟨hQ3, hp3⟩ := putBytes_keeps hput payload hQ2 (by omega)
  obtain ⟨hQ4, hp4⟩ := put_keeps hput 0 (min 4 (8 * ndata v - _)) hQ3 (by omega)
  obtain ⟨hQ5, -⟩ := padToByte_keeps hput (n := ndata v) (by omega) 8 hQ4 (by omega)
  exact putPads_keeps hput (by omega) _ _ hQ5

/-- What every `putBit` inside DCW keeps, BP_PUT keeps. -/
theorem bpPutBody_keeps {s : State} (hs : Q s) : Ends Q (bpPutBody s) := by
  rcases bpPutBody_cases s with ⟨-, h⟩ | ⟨-, -, h⟩ | ⟨-, hp, h⟩ <;> rw [h]
  · exact hs
  · exact hs
  · exact (put_keeps hput _ _ hs hp).1

/-- What every `putBit` inside DCW and `BP_POS <- 0` keep, ENCODE_STREAM keeps. -/
theorem encodeStreamBody_keeps {s : State} (h0 : Q s → Q { s with bpPos := 0 }) (hs : Q s) :
    Ends Q (encodeStreamBody s) := by
  rcases encodeStreamBody_cases s with ⟨-, h⟩ | ⟨-, -, h⟩ | ⟨a, h⟩ | ⟨hv, hf, payload, hg, h⟩ <;> rw [h]
  · exact hs
  · exact hs
  · exact ends_fault ..
  · refine putStream_keeps hput hv ?_ (h0 hs)
    rwa [memGather_length hg, addrRange_length]

end Keeps

/-! ### What the commands of the bit stream write -/

theorem writes_putBit {i : Instr} (hi : i ∈ writers .dcwBits) {s : State} (hm : s.mem.wf = true)
    (hp : s.bpPos.toNat < 4096) (b : Bool) : Writes i s (s.putBit b) := by
  have hdcw : InBuffer .dcw (dcwBase + s.bpPos.toNat / 8) := ⟨Nat.le_add_right .., by
    simp only [bufBase, BufName.size]; omega⟩
  have hsame : ∀ a, ¬ InBuffer .dcw a → (s.putBit b).byteAt a = s.byteAt a :=
    fun a ha => putBit_byteAt hm b fun h => ha (h ▸ hdcw)
  refine ⟨putBit_wf hm hp b, fun a x ha hx => .inl ?_, fun p hip => ?_⟩
  · rwa [hsame a fun h => absurd (h.lt_matrixBase (by decide)) (by omega)] at hx
  · cases p
    case buffer c =>
      refine fun a ha => hsame a fun h => hip ?_
      rwa [ha.unique h]
    case dcwBits => exact absurd hi hip
    case bpPos => exact absurd (List.mem_cons_of_mem _ hi) hip
    all_goals rw [putBit_fields]; simp [Place.Same]

section Bodies

variable {s : State} (hm : s.mem.wf = true)
include hm

theorem bpPutBody_writes : Ends (Writes .bpPut s) (bpPutBody s) :=
  bpPutBody_keeps (fun u b hu hp => hu.trans (writes_putBit (by decide) hu.wf hp b)) (.refl _ hm)

theorem encodeStreamBody_writes : Ends (Writes .encodeStream s) (encodeStreamBody s) :=
  encodeStreamBody_keeps (fun u b hu hp => hu.trans (writes_putBit (by decide) hu.wf hp b))
    (fun hs => hs.trans (writes_setBpPos hm (by decide) 0)) (.refl _ hm)

theorem commandBody_writes_of_ne_generate {i : Instr} (hi : i ≠ .generate) : Ends (Writes i s) (commandBody i s) := by
  cases i with
  | nop => exact Writes.refl _ hm
  | gfAdd | gfMul | gfExp => exact writes_setRes hm (by decide) _
  | gfInv => exact gfInvBody_writes hm
  | gfLog => exact gfLogBody_writes hm
  | polyEval => exact polyEvalBody_writes hm
  | rsGenpoly => exact rsGenpolyBody_writes hm
  | rsEncode => exact rsEncodeBody_writes hm
  | rsSyndrome => exact rsSyndromeBody_writes hm
  | bpClear => exact bpClearBody_writes hm
  | bpPut => exact bpPutBody_writes hm
  | selectVersion => exact selectVersionBody_writes hm
  | encodeStream => exact encodeStreamBody_writes hm
  | rsBlocks => exact rsBlocksBody_writes hm
  | interleave => exact interleaveBody_writes hm
  | matrixInit => exact matrixInitBody_writes hm
  | placeData => exact placeDataBody_writes hm
  | applyMask => exact applyMaskBody_writes hm
  | writeFormat => exact writeFormatBody_writes hm
  | generate => exact absurd rfl hi

theorem generateBody_writes : Ends (Writes .generate s) (generateBody s) := by
  refine generateBody_ends (fun i hi u hu => ?_) (fun u k _ hu => hu.trans (writes_setStage hu.wf (by decide) k))
    (fun u v hu => hu.trans (writes_setVersion hu.wf (by decide) v)) (.refl _ hm)
  have hne : i ≠ .generate := by rintro rfl; exact absurd hi (by decide)
  exact (commandBody_writes_of_ne_generate hu.wf hne).mono fun t ht => hu.trans (ht.ofStage hi)

/-- Every command writes only the places the tables of R63 and R48 list it for. -/
theorem commandBody_writes (i : Instr) : Ends (Writes i s) (commandBody i s) := by
  rcases eq_or_ne i .generate with rfl | hi
  · exact generateBody_writes hm
  · exact commandBody_writes_of_ne_generate hm hi

end Bodies

theorem Writes.completed {i : Instr} {s u t : State} (h : Writes i s u)
    (ht : t = u.completeDone ∨ ∃ e, t = u.completeError e) : Writes i s t := by
  obtain rfl | ⟨e, rfl⟩ := ht
  · exact ⟨h.wf, h.cells, fun p hp => by have := h.same p hp; cases p <;> exact this⟩
  · exact ⟨h.wf, h.cells, fun p hp => by have := h.same p hp; cases p <;> exact this⟩

theorem exec_writes {i : Instr} {s t : State} (hm : s.mem.wf = true) (h : exec i s = .next t) : Writes i s t := by
  obtain ⟨u, hu, ht⟩ := exec_next_ends (commandBody_writes hm i) h
  exact hu.completed ht

/-- Settles O56, from what each command writes (`exec_writes`) and the table `writers`. -/
theorem onlyListedCommandsWriteEachPlace : Obligations.OnlyListedCommandsWriteEachPlace := by
  unfold Obligations.OnlyListedCommandsWriteEachPlace
  intro s t i hm h
  have hsame := (exec_writes hm h).same
  have hnone : i ∉ ([] : List Instr) := List.not_mem_nil
  obtain ⟨hopa, hopb, hk, hplen, hlo, hhi, hnb, hvlo, hvhi, hcmd, hwign⟩ := hsame .operands hnone
  refine ⟨hopa, hopb, hk, hplen, hlo, hhi, hnb, hvlo, hvhi, hcmd, hwign, hsame .res, hsame .version, hsame .bpPos,
    fun hi => hsame .stage (List.mem_singleton.not.2 hi), fun a h1 h2 => hsame (.buffer .payload) hnone a ⟨h1, h2⟩,
    fun hi => ⟨hsame .dcwBits hi, fun a h1 h2 => hsame (.buffer .dcw) hi a ⟨h1, h2⟩⟩,
    fun a h1 h2 => hsame (.buffer .poly) hnone a ⟨h1, h2⟩,
    fun hi a h1 h2 => hsame (.buffer .gen) hi a ⟨h1, h2⟩,
    fun hi a h1 h2 => hsame (.buffer .rem) (List.mem_singleton.not.2 hi) a ⟨h1, h2⟩,
    fun hi a h1 h2 => hsame (.buffer .syn) (List.mem_singleton.not.2 hi) a ⟨h1, h2⟩,
    fun hi a h1 h2 => hsame (.buffer .icw) hi a ⟨h1, h2⟩, fun hi a h1 h2 => hsame (.buffer .ecw) hi a ⟨h1, h2⟩,
    fun hi a h1 h2 => hsame (.buffer .matrix) hi a ⟨h1, h2⟩⟩

end Sys2Proof.Proofs
end

section
/-! SUPPORT. The clauses of the invariant about data: memory, the separate DCW bits, BP_POS and STAGE. Each command body
keeps them, and completing or accepting a command turns them into the invariant. -/

namespace Sys2Proof.Proofs

open Sys2Proof.Machine Sys2Proof.Laws

/-! ### The separate bits of DCW (R130) -/

theorem mem_bitsIn {i : Nat} {m : BitCells} {e : Nat × Bool} : e ∈ bitsIn i m ↔ e ∈ m ∧ e.1 / 8 = i := by
  simp [bitsIn]

theorem memRead_bitsIn (i : Nat) (m : BitCells) (a : Nat) :
    memRead (bitsIn i m) a = if a / 8 = i then memRead m a else none := by
  rw [bitsIn, memRead_filter fun a => a / 8 == i]
  simp

/-- Dropping the separate bits of whole bytes. -/
theorem bitsIn_filter (q : Nat → Bool) (j : Nat) (m : BitCells) :
    bitsIn j (m.filter fun e => q (e.1 / 8)) = if q j then bitsIn j m else [] := by
  rw [bitsIn, List.filter_filter]
  split
  · next hj =>
    refine List.filter_congr fun e _ => ?_
    rw [Bool.and_eq_left_iff_imp, beq_iff_eq]
    rintro rfl
    exact hj
  · next hj =>
    rw [List.filter_eq_nil_iff]
    rintro e _ he
    rw [Bool.and_eq_true, beq_iff_eq] at he
    exact hj (he.1 ▸ he.2)

/-- Putting one bit leaves the bits of every other byte. -/
theorem bitsIn_memOverlay_of_ne {m : BitCells} (hm : risingFrom 0 m = true) {p i : Nat} (b : Bool) (h : p / 8 ≠ i) :
    bitsIn i (memOverlay [(p, b)] m) = bitsIn i m := by
  have hc : risingFrom 0 [(p, b)] = true := by simp
  refine mem_ext (risingFrom_filter (risingFrom_memOverlay hc hm) _) (risingFrom_filter hm _) fun a => ?_
  rw [memRead_bitsIn, memRead_bitsIn, memRead_memOverlay hc hm, memRead_cons]
  split
  · next ha =>
    have : p ≠ a := fun hpa => h (hpa ▸ ha)
    simp [this]
  · rfl

theorem memOverlay_single_sublist (p : Nat) (m : BitCells) :
    ((m.takeWhile fun e => e.1 < p) ++ m.dropWhile fun e => e.1 ≤ p).Sublist m := by
  induction m with
  | nil => exact .slnil
  | cons e m ih =>
    by_cases h : e.1 < p
    · simpa [List.takeWhile_cons, List.dropWhile_cons, h, h.le] using ih
    · rw [List.takeWhile_cons_of_neg (by simpa using h)]
      exact List.dropWhile_sublist _

/-- Putting one bit adds at most one to the bits of a byte. -/
theorem bitsIn_memOverlay_length_le (i p : Nat) (b : Bool) (m : BitCells) :
    (bitsIn i (memOverlay [(p, b)] m)).length ≤ (bitsIn i m).length + 1 := by
  have h := ((memOverlay_single_sublist p m).filter fun e => e.1 / 8 == i).length_le
  simp only [bitsIn, memOverlay, List.filter_append, List.filter_cons, List.length_append] at h ⊢
  split
  · rw [List.length_cons]
    omega
  · omega

theorem mem_memOverlay_single {p : Nat} {b : Bool} {m : BitCells} {e : Nat × Bool} (h : e ∈ memOverlay [(p, b)] m) :
    e = (p, b) ∨ e ∈ m := by
  simp only [memOverlay, List.mem_append, List.mem_cons] at h
  rcases h with h | h | h
  · exact .inr ((List.takeWhile_sublist _).subset h)
  · exact .inl h
  · exact .inr ((List.dropWhile_sublist _).subset h)

/-! ### The part of the invariant that speaks of data -/

/-- The clauses of `State.Inv` that completion, acceptance and the environment do not touch. -/
structure DataInv (s : State) : Prop where
  memWf : s.mem.wf = true
  cellBits : ∀ a b, s.byteAt a = some b → matrixBase ≤ a → b.toNat < 4
  bitsRise : risingFrom 0 s.dcwBits = true
  bitsInDcw : ∀ e ∈ s.dcwBits, e.1 < Config.dcwBits
  bitsApart : ∀ i, (s.byteAt (dcwBase + i)).isSome → bitsIn i s.dcwBits = []
  bitsFew : ∀ i, (bitsIn i s.dcwBits).length < 8
  posRange : s.bpPos.toNat ≤ Config.dcwBits
  stageRange : s.stage.toNat ≤ 8

theorem inv_dataInv {s : State} (h : s.Inv) : DataInv s where
  __ := h

theorem DataInv.completeDone {s : State} (h : DataInv s) : s.completeDone.Inv where
  __ := h
  errcodeRange := by simp
  notBoth := by simp
  errCoded := by simp
  pendingClear := by simp

theorem DataInv.completeError {s : State} (h : DataInv s) (e : ErrCode) : (s.completeError e).Inv where
  __ := h
  errcodeRange := (code_range e).2
  notBoth := by simp
  errCoded := by cases e <;> simp [ErrCode.code]
  pendingClear := by simp

theorem DataInv.accept {s : State} (h : DataInv s) (c : Byte) : (s.accept c).Inv where
  __ := h
  errcodeRange := by simp
  notBoth := by simp
  errCoded := by simp
  pendingClear := by simp

/-- A command that writes no DCW byte, no separate bit, neither BP_POS nor STAGE keeps the data clauses. -/
theorem DataInv.ofWrites {i : Instr} {s t : State} (h : DataInv s) (hw : Writes i s t)
    (hi : i ∉ [Instr.bpClear, .bpPut, .encodeStream, .generate]) : DataInv t := by
  have hbits : t.dcwBits = s.dcwBits := hw.same .dcwBits fun h => hi (List.mem_cons_of_mem _ h)
  have hdcw : ∀ j < 512, t.byteAt (dcwBase + j) = s.byteAt (dcwBase + j) := fun j hj =>
    hw.same (.buffer .dcw) (fun h => hi (List.mem_cons_of_mem _ h)) _ ⟨Nat.le_add_right .., Nat.add_lt_add_left hj _⟩
  have hpos : t.bpPos = s.bpPos := hw.same .bpPos hi
  have hstage : t.stage = s.stage := hw.same .stage fun h => hi (by simp [List.mem_singleton.1 h])
  refine ⟨hw.wf, fun a b hb ha => ?_, by rw [hbits]; exact h.bitsRise, by rw [hbits]; exact h.bitsInDcw,
    fun j hj => ?_, by rw [hbits]; exact h.bitsFew, by rw [hpos]; exact h.posRange, by rw [hstage]; exact h.stageRange⟩
  · exact (hw.cells a b ha hb).elim (fun hs => h.cellBits a b hs ha) id
  · rw [hbits]
    by_cases hlt : j < 512
    · refine h.bitsApart j ?_
      rwa [hdcw j hlt] at hj
    · rw [List.eq_nil_iff_forall_not_mem]
      intro e he
      obtain ⟨hmem, hej⟩ := mem_bitsIn.1 he
      have hlt' := h.bitsInDcw e hmem
      rw [Config.dcwBits] at hlt'
      omega

/-! ### Stores of one byte and of one bit -/

/-- Every way `putBit` can end (R130): the bit is replaced in a written byte, completes an unwritten one, or is kept. -/
theorem putBit_cases (s : State) (b : Bool) :
    let p := s.bpPos.toNat
    let bits := memOverlay [(p, b)] s.dcwBits
    (∃ old new, s.byteAt (dcwBase + p / 8) = some old ∧
      s.putBit b = { s with mem := memOverlay [(dcwBase + p / 8, new)] s.mem, bpPos := s.bpPos + 1 }) ∨
    (∃ new, s.putBit b =
      { s with mem := memOverlay [(dcwBase + p / 8, new)] s.mem, dcwBits := bitsOutside (p / 8) bits,
               bpPos := s.bpPos + 1 }) ∨
    (s.byteAt (dcwBase + p / 8) = none ∧ (bitsIn (p / 8) bits).length ≠ 8 ∧
      s.putBit b = { s with dcwBits := bits, bpPos := s.bpPos + 1 }) := by
  unfold State.putBit State.byteAt
  dsimp only
  cases memRead s.mem (dcwBase + s.bpPos.toNat / 8) with
  | some old => exact .inl ⟨old, _, rfl, rfl⟩
  | none =>
    dsimp only
    split
    · exact .inr (.inl ⟨_, rfl⟩)
    · next hne => exact .inr (.inr ⟨rfl, hne, rfl⟩)

/-- A store of one byte below MATRIX keeps the data clauses when the byte, if it lies in DCW, is left no separate bits and
every other byte keeps its own. -/
theorem DataInv.storeByte {s : State} (h : DataInv s) {a : Nat} (ha : isRam a = true) (hlt : a < matrixBase) (v : Byte)
    {n : BitCells} (hrise : risingFrom 0 n = true)
    (hbits : ∀ j, bitsIn j n = if dcwBase + j = a then [] else bitsIn j s.dcwBits) {p : BitVec 13}
    (hp : p.toNat ≤ Config.dcwBits) :
    DataInv { s with mem := memOverlay [(a, v)] s.mem, dcwBits := n, bpPos := p } := by
  have hread : ∀ x, memRead (memOverlay [(a, v)] s.mem) x = if a = x then some v else s.byteAt x := by
    intro x
    rw [memRead_memOverlay (lo := 0) (by simp) (wf_rising h.memWf), memRead_cons]
    split <;> rfl
  refine ⟨wf_memOverlay (wf_single v ha) h.memWf, fun x b hb hx => ?_, hrise, fun e he => ?_, fun j hj => ?_, fun j => ?_,
    hp, h.stageRange⟩
  · rw [State.byteAt, hread, if_neg (by omega)] at hb
    exact h.cellBits x b hb hx
  · have hin : e ∈ bitsIn (e.1 / 8) n := mem_bitsIn.2 ⟨he, rfl⟩
    rw [hbits] at hin
    split at hin
    · exact absurd hin List.not_mem_nil
    · exact h.bitsInDcw e (mem_bitsIn.1 hin).1
  · rw [State.byteAt, hread] at hj
    rw [hbits]
    split
    · rfl
    · next hne => exact h.bitsApart j (by rwa [if_neg (Ne.symm hne)] at hj)
  · rw [hbits]
    split
    · decide
    · exact h.bitsFew j

theorem DataInv.hostStore {s : State} (h : DataInv s) {a : Nat} (ha : isRam a = true) (hlt : a < matrixBase) (v : Byte) :
    DataInv (s.hostStore a v) := by
  refine h.storeByte ha hlt v (risingFrom_filter h.bitsRise _) (fun j => ?_) h.posRange
  exact (bitsIn_filter (fun i => dcwBase + i != a) j _).trans (by simp)

/-- Each `putBit` inside DCW keeps the data clauses (R130). -/
theorem DataInv.putBit {s : State} (h : DataInv s) (hp : s.bpPos.toNat < 4096) (b : Bool) : DataInv (s.putBit b) := by
  have hram := isRam_dcw hp
  have hlt : dcwBase + s.bpPos.toNat / 8 < matrixBase := by simp only [dcwBase, matrixBase]; omega
  have hpos : (s.bpPos + 1).toNat ≤ Config.dcwBits := by
    have := putBit_pos hp b
    rw [putBit_bpPos] at this
    rw [Config.dcwBits]
    omega
  have hrise : risingFrom 0 (memOverlay [(s.bpPos.toNat, b)] s.dcwBits) = true :=
    risingFrom_memOverlay (by simp) h.bitsRise
  have hother := fun j (hj : s.bpPos.toNat / 8 ≠ j) => bitsIn_memOverlay_of_ne h.bitsRise b hj
  obtain ⟨old, new, hold, ht⟩ | ⟨new, ht⟩ | ⟨hnone, hne, ht⟩ := putBit_cases s b <;> rw [ht]
  · refine h.storeByte hram hlt new h.bitsRise (fun j => ?_) hpos
    split
    · next hj => exact h.bitsApart j (by rw [hj, hold]; rfl)
    · rfl
  · refine h.storeByte hram hlt new (risingFrom_filter hrise _) (fun j => ?_) hpos
    refine (bitsIn_filter (fun i => i != s.bpPos.toNat / 8) j _).trans ?_
    by_cases hj : s.bpPos.toNat / 8 = j
    · simp [hj]
    · simp [hother j hj, Ne.symm hj]
  · refine ⟨h.memWf, h.cellBits, hrise, fun e he => ?_, fun j hj => ?_, fun j => ?_, hpos, h.stageRange⟩
    · rcases mem_memOverlay_single he with rfl | he
      · exact hp
      · exact h.bitsInDcw e he
    · have hj' : s.bpPos.toNat / 8 ≠ j := by
        rintro rfl
        rw [State.byteAt] at hnone hj
        rw [hnone] at hj
        simp at hj
      exact (hother j hj').trans (h.bitsApart j hj)
    · by_cases hj : s.bpPos.toNat / 8 = j
      · subst hj
        have hle := bitsIn_memOverlay_length_le (s.bpPos.toNat / 8) s.bpPos.toNat b s.dcwBits
        have hfew := h.bitsFew (s.bpPos.toNat / 8)
        dsimp only
        omega
      · rw [hother j hj]
        exact h.bitsFew j

/-! ### Commands, host accesses and the reset input -/

theorem DataInv.setBpPos {s : State} (h : DataInv s) : DataInv { s with bpPos := 0 } where
  __ := h
  posRange := Nat.zero_le _

theorem DataInv.setStage {s : State} (h : DataInv s) {k : Byte} (hk : k.toNat ≤ 8) : DataInv (s.setStage k) where
  __ := h
  stageRange := hk

theorem DataInv.setVersion {s : State} (h : DataInv s) (v : Byte) : DataInv { s with version := v } where
  __ := h

theorem commandBody_keeps_dataInv_of_ne_generate {i : Instr} (hi : i ≠ .generate) {s : State} (h : DataInv s) :
    Ends DataInv (commandBody i s) := by
  have hput : ∀ (u : State) (b : Bool), DataInv u → u.bpPos.toNat < 4096 → DataInv (u.putBit b) :=
    fun u b hu hp => hu.putBit hp b
  by_cases hbits : i ∈ [Instr.bpClear, .bpPut, .encodeStream, .generate]
  · simp only [List.mem_cons, hi, List.not_mem_nil, or_false] at hbits
    obtain rfl | rfl | rfl := hbits
    · exact h.setBpPos
    · exact bpPutBody_keeps hput h
    · exact encodeStreamBody_keeps hput .setBpPos h
  · exact (commandBody_writes h.memWf i).mono fun t ht => h.ofWrites ht hbits

theorem commandBody_keeps_dataInv (i : Instr) {s : State} (h : DataInv s) : Ends DataInv (commandBody i s) := by
  rcases eq_or_ne i .generate with rfl | hi
  · refine generateBody_ends (fun i hi u hu => ?_) (fun u k hk hu => hu.setStage hk) (fun u v hu => hu.setVersion v) h
    have hne : i ≠ .generate := by rintro rfl; exact absurd hi (by decide)
    exact commandBody_keeps_dataInv_of_ne_generate hne hu
  · exact commandBody_keeps_dataInv_of_ne_generate hi h

theorem runCommand_inv {c : Byte} {s t : State} (h : DataInv s) (ht : runCommand c s = .next t) : t.Inv := by
  unfold runCommand at ht
  split at ht
  · next i _ =>
    obtain ⟨u, hu, rfl | ⟨e, rfl⟩⟩ := exec_next_ends (commandBody_keeps_dataInv i h) ht
    · exact hu.completeDone
    · exact hu.completeError e
  · cases ht
    exact h.completeError _

theorem coreTurn_inv {s t : State} (h : s.Inv) (ht : coreTurn s = .next t) : t.Inv := by
  unfold coreTurn at ht
  split at ht
  · exact runCommand_inv (inv_dataInv h) ht
  · cases ht
    exact h

/-- The invariant does not speak of what the environment keeps. -/
theorem inv_of_sameMachine {s t : State} (h : s.Inv) (hst : SameMachine s t) : t.Inv := by
  rw [hst]
  exact { h with }

end Sys2Proof.Proofs
end

section
/-! PROOF. The address map, host accesses and the reset input, and from them O59 and O60. -/

namespace Sys2Proof.Proofs

open Sys2Proof.Machine Sys2Proof.Laws

/-! ### What an address of the bus window names (R71) -/

theorem regAt_eq_some {n : Nat} {r : RegName} (h : regAt n = some r) : n = (regAddr r).toNat := by
  unfold regAt at h
  split at h <;> cases h <;> rfl

theorem locate_reg {a : BusAddr} {r : RegName} (h : locate a = .reg r) : a = regAddr r := by
  refine BitVec.eq_of_toNat_eq (regAt_eq_some ?_)
  unfold locate at h
  dsimp only at h
  split_ifs at h
  split at h
  · next hr => rw [hr, Loc.reg.inj h]
  · cases h

theorem locate_low {a : BusAddr} (ha : a.toNat < 0x0200) :
    (∃ r, locate a = .reg r) ∨ locate a = .reserved := by
  unfold locate
  dsimp only
  rw [if_pos ha]
  split
  · exact .inl ⟨_, rfl⟩
  · exact .inr rfl

theorem isHostRw_iff (a : Nat) : isHostRw a = true ↔ (0x0200 ≤ a ∧ a < 0x0700) ∨ (0x0800 ≤ a ∧ a < 0x0A80) := by
  simp [isHostRw]

theorem locate_buffer {a : BusAddr} (h1 : 0x0200 ≤ a.toNat) (h2 : a.toNat < 0x0A80) :
    locate a = .ramRw a.toNat ∨ locate a = .ramRo a.toNat := by
  unfold locate
  dsimp only
  rw [if_neg (by omega)]
  split_ifs with hrw hro hc
  · exact .inl rfl
  · exact .inr rfl
  all_goals rw [isHostRw_iff] at hrw; omega

theorem locate_cell {a : BusAddr} (h1 : 0x1000 ≤ a.toNat) (h2 : a.toNat < 0x2000) : locate a = .cell a.toNat := by
  unfold locate
  dsimp only
  rw [if_neg (by omega), if_neg (by rw [isHostRw_iff]; omega), if_neg (by omega), if_pos ⟨h1, h2⟩]

theorem locate_ramRw {a : BusAddr} {n : Nat} (h : locate a = .ramRw n) : isRam n = true ∧ n < matrixBase := by
  unfold locate at h
  dsimp only at h
  split_ifs at h with hlow hrw
  · split at h <;> cases h
  · cases h
    rw [isHostRw_iff] at hrw
    rw [isRam_iff, matrixBase]
    omega

/-! ### Host accesses -/

theorem hostRead_sameMachine {a : BusAddr} {s t : State} (h : hostRead a s = .next t) : SameMachine s t := by
  unfold hostRead at h
  split at h
  · cases h; rfl
  · split at h
    · cases h; rfl
    · cases h

theorem hostWrite_busy {s : State} (h : s.pending ≠ none) (a : BusAddr) (v : Byte) :
    hostWrite a v s = s.ignoreWrite.log (.w a v) := by
  have hb : s.busy = true := Option.isSome_iff_ne_none.2 h
  rw [hostWrite, if_pos hb]

theorem hostWrite_idle {s : State} (h : s.pending = none) (a : BusAddr) (v : Byte) :
    hostWrite a v s = (s.writeIdle a v).log (.w a v) := by
  have hb : ¬ s.busy = true := by simp [State.busy, h]
  rw [hostWrite, if_neg hb]

/-- A register write accepts a command, or changes at most a register no clause of the invariant speaks of (R75). -/
theorem writeReg_inv {s : State} (h : s.Inv) (r : RegName) (v : Byte) : (s.writeReg v r).Inv := by
  cases r
  case cmd => exact (inv_dataInv h).accept v
  case status =>
    rw [State.writeReg, State.writeStatus]
    split
    · exact { h with }
    · exact h
  all_goals exact { h with }

theorem writeIdle_inv {s : State} (h : s.Inv) (a : BusAddr) (v : Byte) : (s.writeIdle a v).Inv := by
  unfold State.writeIdle
  split
  · exact writeReg_inv h _ v
  · next n hn =>
    obtain ⟨hram, hlt⟩ := locate_ramRw hn
    have hd := (inv_dataInv h).hostStore hram hlt v
    exact { hd with
      errcodeRange := h.errcodeRange
      notBoth := h.notBoth
      errCoded := h.errCoded
      pendingClear := h.pendingClear }
  all_goals exact h

theorem hostWrite_inv {s : State} (h : s.Inv) (a : BusAddr) (v : Byte) : (hostWrite a v s).Inv := by
  rcases eq_or_ne s.pending none with hp | hp
  · rw [hostWrite_idle hp]
    exact { writeIdle_inv h a v with }
  · rw [hostWrite_busy hp]
    exact { h with }

theorem hostAccess_inv {s t : State} (h : s.Inv) {x : Access} (ht : hostAccess x s = .next t) : t.Inv := by
  unfold hostAccess at ht
  cases x <;> dsimp only at ht <;> split at ht
  case read.isTrue => exact inv_of_sameMachine h (hostRead_sameMachine ht)
  case write.isTrue => cases ht; exact hostWrite_inv h _ _
  all_goals cases ht

/-- Settles O59: no byte is written and every status field is clear. -/
theorem resetMeetsTheInvariant : Obligations.ResetMeetsTheInvariant := by
  have hdata : DataInv State.reset := ⟨rfl, by simp [State.byteAt, State.reset], rfl, by simp [State.reset],
    fun _ _ => rfl, by simp [State.reset, bitsIn], by decide, by decide⟩
  exact { hdata with
    errcodeRange := by decide
    notBoth := by decide
    errCoded := by decide
    pendingClear := by simp [State.reset] }

theorem takeEvent_inv {s t : State} (h : s.Inv) {e : Event} (ht : takeEvent e s = .next t) : t.Inv := by
  cases e with
  | host x => exact hostAccess_inv h ht
  | core => exact coreTurn_inv h ht
  | reset =>
    cases ht
    exact inv_of_sameMachine resetMeetsTheInvariant rfl

/-- Settles O60: the data clauses are kept by every command body, and completion, acceptance, every other host access and
the reset input put the status clauses right. -/
theorem stepKeepsTheInvariant : Obligations.StepKeepsTheInvariant := by
  unfold Obligations.StepKeepsTheInvariant
  intro s t h ht
  unfold step nextStep at ht
  split at ht
  · next e rest _ =>
    have hrest : SameMachine s { s with events := rest } := rfl
    exact takeEvent_inv (inv_of_sameMachine h hrest) ht
  · exact coreTurn_inv h ht

end Sys2Proof.Proofs
end

section
/-! PROOF. What the host reads and writes of the registers: O7, O17, O18, O19 and O57. -/

namespace Sys2Proof.Proofs

open Sys2Proof.Machine Sys2Proof.Laws

/-! ### Reads while idle -/

theorem readIdle_reg (s : State) (r : RegName) : s.readIdle (regAddr r) = .ok (s.readReg s.status r) := by
  cases r <;> rfl

theorem readIdle_buffer (s : State) {a : BusAddr} (h1 : 0x0200 ≤ a.toNat) (h2 : a.toNat < 0x0A80) :
    s.readIdle a = s.readRam a.toNat := by
  unfold State.readIdle
  obtain h | h := locate_buffer h1 h2 <;> rw [h]

theorem readIdle_cell (s : State) {a : BusAddr} (h1 : 0x1000 ≤ a.toNat) (h2 : a.toNat < 0x2000) :
    s.readIdle a = (s.readRam a.toNat).map fun b => (ModuleCell.ofByte b).toByte := by
  unfold State.readIdle
  rw [locate_cell h1 h2]

theorem reset_readReg {r : RegName} (h : 3 ≤ (regAddr r).toNat) :
    State.reset.readReg State.reset.status r = 0x00 := by
  cases r
  case id0 | id1 | rev => exact absurd h (by decide)
  all_goals decide

/-- Settles O7: a register past REV reads 0 by its reset value, and a reserved address by R86. -/
theorem resetValues : Obligations.ResetValues := by
  unfold Obligations.ResetValues
  refine ⟨rfl, fun _ => rfl, rfl, rfl, rfl, rfl, fun a h1 h2 => ?_, fun a h1 h2 => ?_, fun a h1 h2 => ?_⟩
  · obtain ⟨r, hr⟩ | hr := locate_low h2
    · have ha := locate_reg hr
      rw [ha, readIdle_reg, reset_readReg (ha ▸ h1)]
    · rw [State.readIdle, hr]
  · rw [readIdle_buffer _ h1 h2]
    rfl
  · rw [readIdle_cell _ h1 h2]
    rfl

/-! ### STATUS and the reserved bits -/

/-- The fields of the STATUS byte, and that nothing stands above them (R25, R30). -/
theorem status_fields (s : State) :
    s.status.getLsbD 0 = s.busy ∧ s.status.getLsbD 1 = s.done ∧ s.status.getLsbD 2 = s.err ∧
      s.status.getLsbD 3 = s.wign ∧ s.status.toNat < 2 ^ 4 := by
  unfold State.status
  generalize s.busy = b, s.done = d, s.err = e, s.wign = w
  revert b d e w
  decide

/-- The bits of a byte at and above the width of its value are 0. -/
theorem getLsbD_of_toNat_lt {b : Byte} {n : Nat} (h : b.toNat < 2 ^ n) {i : Nat} (hi : n ≤ i) : b.getLsbD i = false :=
  Nat.testBit_lt_two_pow (h.trans_le (Nat.pow_le_pow_right (by decide) hi))

/-- Settles O17, from the fields of the STATUS byte. -/
theorem statusByteFields : Obligations.StatusByteFields := by
  unfold Obligations.StatusByteFields
  intro s
  obtain ⟨hbusy, hdone, herr, hwign, hlt⟩ := status_fields s
  rw [hbusy]
  exact ⟨Option.isSome_iff_ne_none, hdone, herr, hwign, fun _ => getLsbD_of_toNat_lt hlt⟩

/-- BP_POS_HI holds the upper five bits of BP_POS (R43). -/
theorem bpPosHi_toNat_lt (s : State) : (hiByte s.bpPos.toNat).toNat < 2 ^ 5 := by
  rw [hiByte, BitVec.toNat_ofNat]
  omega

/-- A host write while idle that changes nothing in the machine leaves only its record. -/
theorem hostWrite_idle_ignored {s : State} (hp : s.pending = none) {a : BusAddr} {v : Byte} (h : s.writeIdle a v = s) :
    hostWrite a v s = { s with trace := .w a v :: s.trace } := by
  rw [hostWrite_idle hp, h, State.log]

theorem writeIdle_reg (s : State) (r : RegName) (v : Byte) : s.writeIdle (regAddr r) v = s.writeReg v r := by
  cases r <;> rfl

theorem writeIdle_status (s : State) (v : Byte) :
    s.writeIdle 0x0004 v = if v.getLsbD 3 then { s with wign := false } else s := writeIdle_reg s .status v

theorem writeIdle_cell (s : State) {a : BusAddr} (h1 : 0x1000 ≤ a.toNat) (h2 : a.toNat < 0x2000) (v : Byte) :
    s.writeIdle a v = s := by
  unfold State.writeIdle
  rw [locate_cell h1 h2]

/-- Settles O18, from the bits of the three bytes and what a write to their addresses does. -/
theorem reservedBitsReadZero : Obligations.ReservedBitsReadZero := by
  unfold Obligations.ReservedBitsReadZero
  intro s b
  refine ⟨fun h i hi => ?_, fun h i hi => ?_, fun a h1 h2 h i hi => ?_,
    fun hp hb => hostWrite_idle_ignored hp (by rw [writeIdle_status, hb]; rfl),
    fun hp => hostWrite_idle_ignored hp (writeIdle_reg s .bpPosHi b),
    fun a h1 h2 hp => hostWrite_idle_ignored hp (writeIdle_cell s h1 h2 b)⟩
  · cases (readIdle_reg s .status).symm.trans h
    obtain ⟨-, -, -, -, hlt⟩ := status_fields s
    exact getLsbD_of_toNat_lt hlt hi
  · cases (readIdle_reg s .bpPosHi).symm.trans h
    exact getLsbD_of_toNat_lt (bpPosHi_toNat_lt s) hi
  · rw [readIdle_cell s h1 h2] at h
    cases hr : s.readRam a.toNat with
    | error f => rw [hr] at h; cases h
    | ok x => rw [hr] at h; cases h; exact getLsbD_of_toNat_lt (n := 2) (toByte_lt _) hi

theorem writeReg_wign (s : State) {r : RegName} (hr : r ≠ .status) (v : Byte) : (s.writeReg v r).wign = s.wign := by
  cases r
  case status => exact absurd rfl hr
  all_goals rfl

theorem writeIdle_wign (s : State) {a : BusAddr} (ha : a ≠ 0x0004) (v : Byte) : (s.writeIdle a v).wign = s.wign := by
  unfold State.writeIdle
  split
  · next r hr => exact writeReg_wign s (fun h => ha (by rw [locate_reg hr, h]; rfl)) v
  all_goals rfl

/-- Settles O19, from what a host write does while a command is pending and while none is. -/
theorem wignSetAndCleared : Obligations.WignSetAndCleared := by
  unfold Obligations.WignSetAndCleared
  intro s v
  refine ⟨fun a hp => ?_, fun hp hv => ?_, fun hp hv => ?_, fun a hp ha => ?_, rfl⟩
  · rw [hostWrite_busy hp]
    rfl
  · rw [hostWrite_idle hp, writeIdle_status, hv]
    rfl
  · exact hostWrite_idle_ignored hp (by rw [writeIdle_status, hv]; rfl)
  · rw [hostWrite_idle hp]
    exact writeIdle_wign s ha v

/-! ### The profile readouts -/

theorem ofNat_mod_byte (n : Nat) : BitVec.ofNat 8 (n % 256) = BitVec.ofNat 8 n :=
  BitVec.eq_of_toNat_eq (by simp)

theorem sizeReadout_eq (s : State) : s.sizeReadout = BitVec.ofNat 8 (if validVersion s.ver then side s.ver else 0) := by
  unfold State.sizeReadout
  split <;> rfl

theorem profile_of_invalid {v : Nat} (h : validVersion v = false) : profile v = ⟨0, 0, 0⟩ := by
  rw [profile, h]
  rfl

/-- Settles O57: the readouts of any version are its PROFILE row, and the rows are those of R45. -/
theorem profileReadouts : Obligations.ProfileReadouts := by
  unfold Obligations.ProfileReadouts
  intro s reads
  have row : ∀ v, s.ver = v →
      reads (if validVersion v then side v else 0) (nblk v) (ecpb v) (ndata v) (ntotal v) := by
    rintro v rfl
    refine ⟨(readIdle_reg s .size).trans (by rw [State.readReg, sizeReadout_eq]), readIdle_reg s .nblk,
      readIdle_reg s .ecpb, ?_, readIdle_reg s .ndataHi, ?_, readIdle_reg s .ntotalHi⟩
    · rw [ofNat_mod_byte]
      exact readIdle_reg s .ndataLo
    · rw [ofNat_mod_byte]
      exact readIdle_reg s .ntotalLo
  have legal : ∀ {v : Byte}, s.version = v → s.ver = v.toNat := fun h => by rw [State.ver, h]
  refine ⟨fun h => row 1 (legal h), fun h => row 2 (legal h), fun h => row 3 (legal h), fun h => row 4 (legal h),
    fun h => row 5 (legal h), fun h => row 6 (legal h), fun h => row 7 (legal h), fun h => row 8 (legal h),
    fun h => row 9 (legal h), fun h => row 10 (legal h), fun h => ?_⟩
  have hv : validVersion s.ver = false := by
    rw [Bool.eq_false_iff, Ne, validVersion_iff, State.ver]
    omega
  simpa [hv, nblk, ecpb, ndata, ntotal, profile_of_invalid hv] using row s.ver rfl

end Sys2Proof.Proofs
end

section
/-! SUPPORT. One step that takes a host access: what a read answers and what a write leaves, by what the address names. -/

namespace Sys2Proof.Proofs

open Sys2Proof.Machine Sys2Proof.Laws

/-! ### The address map, by location -/

theorem regAddr_toNat_lt (r : RegName) : (regAddr r).toNat < 0x001C := by
  cases r <;> decide

/-- Past the last register no address names one (R71). -/
theorem locate_ne_reg {a : BusAddr} (ha : 0x001C ≤ a.toNat) (r : RegName) : locate a ≠ .reg r := fun h => by
  have := regAddr_toNat_lt r
  rw [← locate_reg h] at this
  omega

theorem locate_isHostRw {a : BusAddr} (h : isHostRw a.toNat = true) : locate a = .ramRw a.toNat := by
  have := (isHostRw_iff _).1 h
  unfold locate
  dsimp only
  rw [if_neg (by omega), if_pos h]

/-- An address above the registers names the byte it is, or is reserved (R71). -/
theorem locate_high {a : BusAddr} (ha : 0x0200 ≤ a.toNat) :
    (isHostRw a.toNat = true ∧ locate a = .ramRw a.toNat) ∨ locate a = .ramRo a.toNat ∨ locate a = .cell a.toNat ∨
      locate a = .reserved := by
  by_cases hrw : isHostRw a.toNat = true
  · exact .inl ⟨hrw, locate_isHostRw hrw⟩
  · unfold locate
    dsimp only
    rw [if_neg (by omega), if_neg hrw]
    split_ifs
    · exact .inr (.inl rfl)
    · exact .inr (.inr (.inl rfl))
    · exact .inr (.inr (.inr rfl))

/-- The reserved addresses (R71, R86). -/
theorem locate_reserved {a : BusAddr} (h : a = 0x0007 ∨ (0x001C ≤ a.toNat ∧ a.toNat < 0x0200) ∨
    (0x0A80 ≤ a.toNat ∧ a.toNat < 0x1000) ∨ 0x2000 ≤ a.toNat) : locate a = .reserved := by
  obtain rfl | ⟨h1, h2⟩ | h := h
  · rfl
  · exact (locate_low h2).resolve_left fun ⟨r, hr⟩ => locate_ne_reg h1 r hr
  · unfold locate
    dsimp only
    rw [if_neg (by omega), if_neg (by rw [isHostRw_iff]; omega), if_neg (by omega), if_neg (by omega)]

/-! ### Reads -/

theorem readIdle_reserved (s : State) {a : BusAddr} (h : locate a = .reserved) : s.readIdle a = .ok 0x00 := by
  rw [State.readIdle, h]

theorem readRam_of_byteAt {s : State} {a : Nat} {b : Byte} (h : s.byteAt a = some b) : s.readRam a = .ok b := by
  rw [State.byteAt] at h
  rw [State.readRam, h]

theorem readRam_unwritten {s : State} {a : Nat} (h : s.byteAt a = none) :
    s.readRam a = .error (.unwrittenRead a) := by
  rw [State.byteAt] at h
  rw [State.readRam, h]

/-- A read while idle has a value or faults at its own address (R60, R78). -/
theorem readIdle_ok_or_unwritten (s : State) (a : BusAddr) :
    (∃ b, s.readIdle a = .ok b) ∨ s.readIdle a = .error (.unwrittenRead a.toNat) := by
  have hram : (∃ b, s.readRam a.toNat = .ok b) ∨ s.readRam a.toNat = .error (.unwrittenRead a.toNat) := by
    cases h : s.byteAt a.toNat with
    | some b => exact .inl ⟨b, readRam_of_byteAt h⟩
    | none => exact .inr (readRam_unwritten h)
  rw [State.readIdle]
  rcases lt_or_ge a.toNat 0x0200 with hlow | hhigh
  · obtain ⟨r, h⟩ | h := locate_low hlow <;> rw [h] <;> exact .inl ⟨_, rfl⟩
  · obtain ⟨-, h⟩ | h | h | h := locate_high hhigh <;> rw [h] <;> dsimp only
    · exact hram
    · exact hram
    · obtain ⟨b, hb⟩ | hf := hram
      · exact .inl ⟨_, by rw [hb]; rfl⟩
      · exact .inr (by rw [hf]; rfl)
    · exact .inl ⟨_, rfl⟩

/-- A read draws no free byte when nothing is pending or R80 keeps the address true. -/
theorem not_drawsFree {s : State} {a : BusAddr} (h : s.pending = none ∨ readsTrueWhilePending (locate a) = true) :
    ¬ (s.busy && !readsTrueWhilePending (locate a)) = true := by
  obtain h | h := h <;> simp [State.busy, h]

theorem hostRead_of_ok {s : State} {a : BusAddr} {b : Byte}
    (htrue : s.pending = none ∨ readsTrueWhilePending (locate a) = true) (h : s.readIdle a = .ok b) :
    hostRead a s = .next (s.log (.r a b)) := by
  rw [hostRead, if_neg (not_drawsFree htrue), h]

theorem hostRead_of_error {s : State} {a : BusAddr} {f : Fault}
    (htrue : s.pending = none ∨ readsTrueWhilePending (locate a) = true) (h : s.readIdle a = .error f) :
    hostRead a s = .fault f := by
  rw [hostRead, if_neg (not_drawsFree htrue), h]

/-- While a command is pending a read of any other address answers the next free byte (R80). -/
theorem hostRead_free {s : State} {a : BusAddr} (hp : s.pending ≠ none)
    (h : readsTrueWhilePending (locate a) = false) :
    hostRead a s = .next { s.log (.r a (Config.pendingRead s.draws)) with draws := s.draws + 1 } := by
  have hb : s.busy = true := Option.isSome_iff_ne_none.2 hp
  rw [hostRead, if_pos (by rw [hb, h]; rfl)]

/-- The addresses R80 keeps true end at ERRCODE. -/
theorem readsTrueWhilePending_of_le {a : BusAddr} (ha : 0x0006 ≤ a.toNat) : readsTrueWhilePending (locate a) = false := by
  cases h : locate a with
  | reg r =>
    rw [locate_reg h] at ha
    cases r
    case id0 | id1 | rev | cmd | status | errcode => exact absurd ha (by decide)
    all_goals rfl
  | _ => rfl

/-! ### Writes -/

/-- A write to STATUS keeps WIGN unless bit 3 clears it (R29). -/
theorem writeStatus_eq (s : State) (v : Byte) : s.writeStatus v = { s with wign := s.wign && !v.getLsbD 3 } := by
  unfold State.writeStatus
  cases v.getLsbD 3 <;> simp

theorem writeIdle_isHostRw (s : State) {a : BusAddr} (h : isHostRw a.toNat = true) (v : Byte) :
    s.writeIdle a v = s.hostStore a.toNat v := by
  rw [State.writeIdle, locate_isHostRw h]

/-- A write to a read-only register has no effect (R75). -/
theorem writeReg_readOnly (s : State) (v : Byte) {r : RegName} (h : (regAddr r).toNat < 0x0003 ∨
    (0x0005 ≤ (regAddr r).toNat ∧ (regAddr r).toNat < 0x0008) ∨ regAddr r = 0x000A ∨
    (0x0010 ≤ (regAddr r).toNat ∧ (regAddr r).toNat < 0x0017) ∨ 0x001A ≤ (regAddr r).toNat) : s.writeReg v r = s := by
  cases r
  case cmd | status | opa | opb | k | plen | version | lenLo | lenHi | bpNbits | bpValLo | bpValHi =>
    exact absurd h (by decide)
  all_goals rfl

/-- A write above the registers and outside the buffers the host may write has no effect (R75). -/
theorem writeIdle_of_not_isHostRw (s : State) {a : BusAddr} (ha : 0x0200 ≤ a.toNat) (h : isHostRw a.toNat = false)
    (v : Byte) : s.writeIdle a v = s := by
  unfold State.writeIdle
  obtain ⟨hrw, -⟩ | hl | hl | hl := locate_high ha
  · rw [h] at hrw
    cases hrw
  all_goals rw [hl]

/-- The addresses a write has no effect at (R75). -/
theorem writeIdle_ignored (s : State) {a : BusAddr} (v : Byte)
    (h : a.toNat < 0x0003 ∨ (0x0005 ≤ a.toNat ∧ a.toNat < 0x0008) ∨ a = 0x000A ∨
      (0x0010 ≤ a.toNat ∧ a.toNat < 0x0017) ∨ (0x001A ≤ a.toNat ∧ a.toNat < 0x0200) ∨
      (0x0700 ≤ a.toNat ∧ a.toNat < 0x0800) ∨ 0x0A80 ≤ a.toNat) : s.writeIdle a v = s := by
  rcases lt_or_ge a.toNat 0x0200 with hlow | hhigh
  · obtain ⟨r, hr⟩ | hr := locate_low hlow
    · obtain rfl := locate_reg hr
      rw [writeIdle_reg]
      exact writeReg_readOnly s v (by bv_omega)
    · rw [State.writeIdle, hr]
  · refine writeIdle_of_not_isHostRw s hhigh ?_ v
    rw [Bool.eq_false_iff, Ne, isHostRw_iff]
    bv_omega

/-- A host byte stands at its address and every other byte is as before (R75). -/
theorem byteAt_hostStore {s : State} (hm : s.mem.wf = true) (a b : Nat) (v : Byte) :
    (s.hostStore a v).byteAt b = if a = b then some v else s.byteAt b := by
  have h := memRead_memOverlay (lo := 0) (cells := [(a, v)]) (by simp) (wf_rising hm) b
  rw [State.byteAt, hostStore_mem, h, memRead_cons]
  split <;> rfl

/-- A host write of a byte drops the separate bits of no other byte (R60). -/
theorem hostStore_dcwBits_read (s : State) {a p : Nat} (h : dcwBase + p / 8 ≠ a) (v : Byte) :
    memRead (s.hostStore a v).dcwBits p = memRead s.dcwBits p := by
  rw [hostStore_dcwBits, memRead_filter fun p => dcwBase + p / 8 != a, if_pos (bne_iff_ne.2 h)]

/-! ### The step that takes a host access -/

section Step

variable {s : State} {a : BusAddr} {rest : List Event}

theorem step_host {x : Access} (he : s.events = .host x :: rest) : step s = hostAccess x { s with events := rest } := by
  rw [step, nextStep, he]
  rfl

theorem step_read (he : s.events = .host (.read 1 a) :: rest) : step s = hostRead a { s with events := rest } :=
  step_host he

theorem step_write {v : Byte} (he : s.events = .host (.write 1 a v) :: rest) :
    step s = .next (hostWrite a v { s with events := rest }) :=
  step_host he

theorem step_read_of_ok (he : s.events = .host (.read 1 a) :: rest)
    (htrue : s.pending = none ∨ readsTrueWhilePending (locate a) = true) {b : Byte} (h : s.readIdle a = .ok b) :
    step s = .next { s with events := rest, trace := .r a b :: s.trace } :=
  (step_read he).trans (hostRead_of_ok (s := { s with events := rest }) htrue h)

theorem step_read_of_error (he : s.events = .host (.read 1 a) :: rest)
    (htrue : s.pending = none ∨ readsTrueWhilePending (locate a) = true) {f : Fault} (h : s.readIdle a = .error f) :
    step s = .fault f :=
  (step_read he).trans (hostRead_of_error (s := { s with events := rest }) htrue h)

theorem step_read_free (he : s.events = .host (.read 1 a) :: rest) (hp : s.pending ≠ none)
    (h : readsTrueWhilePending (locate a) = false) :
    step s = .next { s with events := rest, trace := .r a (Config.pendingRead s.draws) :: s.trace,
                            draws := s.draws + 1 } :=
  (step_read he).trans (hostRead_free (s := { s with events := rest }) hp h)

theorem step_write_idle {v : Byte} (he : s.events = .host (.write 1 a v) :: rest) (hp : s.pending = none) :
    step s = .next ((State.writeIdle { s with events := rest } a v).log (.w a v)) :=
  (step_write he).trans (congrArg _ (hostWrite_idle (s := { s with events := rest }) hp a v))

theorem step_write_busy {v : Byte} (he : s.events = .host (.write 1 a v) :: rest) (hp : s.pending ≠ none) :
    step s = .next { s with wign := true, events := rest, trace := .w a v :: s.trace } :=
  (step_write he).trans (congrArg _ (hostWrite_busy (s := { s with events := rest }) hp a v))

/-- An access that is not refused is one byte wide (R72). -/
theorem width_of_step_read {w : Nat} {t : State} (he : s.events = .host (.read w a) :: rest) (ht : step s = .next t) :
    w = 1 := by
  by_contra hw
  rw [step_host he, hostAccess, if_neg hw] at ht
  cases ht

theorem width_of_step_write {w : Nat} {v : Byte} {t : State} (he : s.events = .host (.write w a v) :: rest)
    (ht : step s = .next t) : w = 1 := by
  by_contra hw
  rw [step_host he, hostAccess, if_neg hw] at ht
  cases ht

end Step

end Sys2Proof.Proofs
end

section
/-! PROOF. The host bus and the core's turn: O4, O5 and O9 to O15. -/

namespace Sys2Proof.Proofs

open Sys2Proof.Machine Sys2Proof.Laws

/-! ### What a write does -/

/-- Settles O9, from what a write does at each location. -/
theorem idleWriteEffects : Obligations.IdleWriteEffects := by
  unfold Obligations.IdleWriteEffects
  intro s a v rest hm hp he
  refine ⟨_, step_write_idle he hp, ?_⟩
  intro base
  have reg : ∀ r, a = regAddr r → (State.writeIdle { s with events := rest } a v).log (.w a v) =
      (State.writeReg { s with events := rest } v r).log (.w a v) := by
    rintro r rfl
    rw [writeIdle_reg]
  refine ⟨reg .opa, reg .opb, reg .k, reg .plen, reg .version, reg .lenLo, reg .lenHi, reg .bpNbits, reg .bpValLo,
    reg .bpValHi, fun h => ?_, reg .cmd, fun h => ?_, fun h => ?_⟩
  · rw [writeIdle_isHostRw _ ((isHostRw_iff _).2 h)]
    have hread := byteAt_hostStore (s := { s with events := rest }) hm a.toNat
    refine ⟨rfl, (hread a.toNat v).trans (if_pos rfl), fun b hb => (hread b v).trans (if_neg hb.symm), fun p hpa => ?_⟩
    exact hostStore_dcwBits_read { s with events := rest } hpa v
  · rw [reg .status h, State.writeReg, writeStatus_eq]
    rfl
  · rw [writeIdle_ignored _ v h]
    rfl

/-- Settles O10: the write to CMD is the register write that accepts. -/
theorem acceptingACommand : Obligations.AcceptingACommand := by
  unfold Obligations.AcceptingACommand
  intro s v rest hp he
  have hcmd : State.writeIdle { s with events := rest } 0x0003 v = State.accept { s with events := rest } v :=
    writeIdle_reg _ .cmd v
  rw [step_write_idle he hp, hcmd]
  rfl

/-- Settles O11: while a command is pending the step of a write only sets WIGN. -/
theorem pendingWriteIsIgnored : Obligations.PendingWriteIsIgnored := by
  unfold Obligations.PendingWriteIsIgnored
  intro s c a v rest hp he
  exact step_write_busy he (by simp [hp])

/-! ### What a read answers -/

/-- The byte of a cell is the stored byte with bits 7:2 cleared (R57). -/
theorem toByte_ofByte_mask (b : Byte) : (ModuleCell.ofByte b).toByte = b &&& 0x03 := by
  revert b
  decide

theorem loByte_bpPos (p : BitVec 13) : loByte p.toNat = p.extractLsb' 0 8 :=
  BitVec.eq_of_toNat_eq (by simp [loByte])

theorem hiByte_bpPos (p : BitVec 13) : hiByte p.toNat = (p.extractLsb' 8 5).zeroExtend 8 := by
  refine BitVec.eq_of_toNat_eq ?_
  simp only [hiByte, BitVec.toNat_ofNat, BitVec.toNat_setWidth, BitVec.extractLsb'_toNat, Nat.shiftRight_eq_div_pow]
  omega

/-- Settles O12, from what a read finds at each location. -/
theorem idleReadValues : Obligations.IdleReadValues := by
  unfold Obligations.IdleReadValues
  intro s a rest hp he answers
  have ok : ∀ b, s.readIdle a = .ok b → answers b := fun b h => step_read_of_ok he (.inl hp) h
  have reg : ∀ r, a = regAddr r → answers (s.readReg s.status r) := by
    rintro r rfl
    exact ok _ (readIdle_reg s r)
  refine ⟨reg .id0, reg .id1, reg .rev, reg .cmd, reg .status, reg .errcode, reg .stage, reg .opa, reg .opb, reg .res,
    reg .k, reg .plen, reg .version, reg .lenLo, reg .lenHi, reg .size, reg .nblk, reg .ecpb, reg .ndataLo, reg .ndataHi,
    reg .ntotalLo, reg .ntotalHi, reg .bpNbits, reg .bpValLo, reg .bpValHi, loByte_bpPos s.bpPos ▸ reg .bpPosLo,
    hiByte_bpPos s.bpPos ▸ reg .bpPosHi, fun ⟨h1, h2⟩ => ⟨fun b hb => ?_, fun hn => ?_⟩,
    fun ⟨h1, h2⟩ => ⟨fun b hb => ?_, fun hn => ?_⟩, fun h => ok _ (readIdle_reserved s (locate_reserved h))⟩
  · exact ok b (by rw [readIdle_buffer s h1 h2, readRam_of_byteAt hb])
  · exact step_read_of_error he (.inl hp) (by rw [readIdle_buffer s h1 h2, readRam_unwritten hn])
  · refine ok _ ?_
    rw [readIdle_cell s h1 h2, readRam_of_byteAt hb, ← toByte_ofByte_mask]
    rfl
  · refine step_read_of_error he (.inl hp) ?_
    rw [readIdle_cell s h1 h2, readRam_unwritten hn]
    rfl

/-- Settles O13: the six registers of R80 stand below address 6, where alone a pending read is true. -/
theorem pendingReadValues : Obligations.PendingReadValues := by
  unfold Obligations.PendingReadValues
  intro s c a rest hp he answers
  have reg : ∀ r, readsTrueWhilePending (.reg r) = true → locate (regAddr r) = .reg r → a = regAddr r →
      answers (s.readReg s.status r) := by
    rintro r hr hl rfl
    exact step_read_of_ok he (.inr (hl ▸ hr)) (readIdle_reg s r)
  refine ⟨reg .id0 rfl rfl, reg .id1 rfl rfl, reg .rev rfl rfl, reg .cmd rfl rfl, reg .status rfl rfl,
    reg .errcode rfl rfl, fun ha => ?_⟩
  exact step_read_free he (by simp [hp]) (readsTrueWhilePending_of_le ha)

/-! ### What no host access does -/

theorem step_read_sameMachine {s t : State} {w : Nat} {a : BusAddr} {rest : List Event}
    (he : s.events = .host (.read w a) :: rest) (ht : step s = .next t) : SameMachine s t := by
  obtain rfl := width_of_step_read he ht
  have hrest : SameMachine { s with events := rest } t := hostRead_sameMachine ((step_read he).symm.trans ht)
  exact hrest

/-- Settles O14: a read changes only the record, and a write while a command is pending is ignored. -/
theorem hostAccessesLeaveOperandsAlone : Obligations.HostAccessesLeaveOperandsAlone := by
  unfold Obligations.HostAccessesLeaveOperandsAlone
  refine ⟨fun s t w a rest he ht => step_read_sameMachine he ht, fun s t c x rest hp he ht => ?_⟩
  cases x with
  | read w a =>
    have hsame := step_read_sameMachine he ht
    have hwign : t.wign = s.wign := by rw [hsame]
    rw [hwign]
    exact hsame
  | write w a v =>
    obtain rfl := width_of_step_write he ht
    cases (step_write_busy he (by simp [hp])).symm.trans ht
    rfl

/-- Settles O15: the width is checked first, and a one-byte read has a value or faults at its own address. -/
theorem otherWidthsRefused : Obligations.OtherWidthsRefused := by
  unfold Obligations.OtherWidthsRefused
  refine ⟨fun s w a v rest hw => ⟨fun he => ?_, fun he => ?_⟩,
    fun s a v rest => ⟨fun he => ⟨_, step_write he⟩, fun he => ?_⟩⟩
  · rw [step_host he, hostAccess, if_neg hw]
  · rw [step_host he, hostAccess, if_neg hw]
  · by_cases htrue : s.pending = none ∨ readsTrueWhilePending (locate a) = true
    · obtain ⟨b, hb⟩ | hf := readIdle_ok_or_unwritten s a
      · exact .inl ⟨_, step_read_of_ok he htrue hb⟩
      · exact .inr (step_read_of_error he htrue hf)
    · obtain ⟨hbusy, hl⟩ := not_or.1 htrue
      exact .inl ⟨_, step_read_free he hbusy (Bool.eq_false_iff.2 hl)⟩

/-! ### The core's turn -/

/-- The pending command's turn is the command's step (R77). -/
theorem coreTurn_pending {s : State} {c : Byte} {i : Instr} (hp : s.pending = some c) (hd : decodeByte c = .ok i) :
    coreTurn s = exec i s := by
  rw [coreTurn, hp]
  dsimp only
  rw [runCommand, hd]

/-- Settles O4: either way the step is the core's turn. -/
theorem stepRunsPendingCommand : Obligations.StepRunsPendingCommand := by
  unfold Obligations.StepRunsPendingCommand
  intro s c i hp hd
  refine ⟨fun he => ?_, fun rest he => ?_⟩
  · rw [step, nextStep, he]
    exact coreTurn_pending hp hd
  · rw [step, nextStep, he]
    exact coreTurn_pending (s := { s with events := rest }) hp hd

/-- A byte that names a command is that command's code (R94). -/
theorem eq_encodeByte_of_decodeByte {c : Byte} {i : Instr} (h : decodeByte c = .ok i) : c = encodeByte i := by
  refine BitVec.eq_of_toNat_eq ?_
  unfold decodeByte at h
  split at h <;> cases h <;> assumption

theorem decodeByte_of_decodeTableWord {n w : Nat} {i : Instr} (h : decodeTableWord n w = some i) :
    decodeByte (BitVec.ofNat 8 w) = .ok i := by
  unfold decodeTableWord at h
  split at h
  · cases hd : decodeByte (BitVec.ofNat 8 w) with
    | ok j => rw [hd] at h; cases h; rfl
    | error e => rw [hd] at h; cases h
  · cases h

/-- Settles O5: the placed byte is pending with its core step next, which O4 speaks of. -/
theorem placedCommandIsNextStep : Obligations.PlacedCommandIsNextStep := by
  unfold Obligations.PlacedCommandIsNextStep
  intro s w i h
  have hd := decodeByte_of_decodeTableWord h
  have hstep := (stepRunsPendingCommand (s.withFetchWord 8 w) (BitVec.ofNat 8 w) i rfl hd).2 s.events rfl
  rw [hstep, ← eq_encodeByte_of_decodeByte hd]
  rfl

end Sys2Proof.Proofs
end

section
/-! PROOF. The command map and the codes outside it: O1, O2 and O3. -/

namespace Sys2Proof.Proofs

open Sys2Proof.Machine Sys2Proof.Laws

/-! ### Decoding and encoding (R94, R95) -/

theorem roundTrip : ∀ i : Instr, RoundTrip.Statement i
  | .nop => RoundTrip.nop
  | .gfAdd => RoundTrip.gfAdd
  | .gfMul => RoundTrip.gfMul
  | .gfInv => RoundTrip.gfInv
  | .gfExp => RoundTrip.gfExp
  | .gfLog => RoundTrip.gfLog
  | .polyEval => RoundTrip.polyEval
  | .rsGenpoly => RoundTrip.rsGenpoly
  | .rsEncode => RoundTrip.rsEncode
  | .rsSyndrome => RoundTrip.rsSyndrome
  | .bpClear => RoundTrip.bpClear
  | .bpPut => RoundTrip.bpPut
  | .selectVersion => RoundTrip.selectVersion
  | .encodeStream => RoundTrip.encodeStream
  | .rsBlocks => RoundTrip.rsBlocks
  | .interleave => RoundTrip.interleave
  | .matrixInit => RoundTrip.matrixInit
  | .placeData => RoundTrip.placeData
  | .applyMask => RoundTrip.applyMask
  | .writeFormat => RoundTrip.writeFormat
  | .generate => RoundTrip.generate

@[simp] theorem commandWellFormed_encodeByte (i : Instr) : commandWellFormed (encodeByte i) = true := by
  obtain ⟨-, hc, -, -⟩ := roundTrip i
  exact hc

@[simp] theorem decodeByte_encodeByte (i : Instr) : decodeByte (encodeByte i) = .ok i := by
  obtain ⟨-, -, hd, -⟩ := roundTrip i
  exact hd

@[simp] theorem decode_encode_append (i : Instr) (rest : List Byte) : decode (encode i ++ rest) = .ok (i, rest) := by
  obtain ⟨-, -, -, hd⟩ := roundTrip i
  exact hd rest

/-- Decoding is an exact match of all 8 bits (R94). -/
theorem decodeByte_eq_ok_iff {c : Byte} {i : Instr} : decodeByte c = .ok i ↔ c = encodeByte i :=
  ⟨eq_encodeByte_of_decodeByte, fun h => h ▸ decodeByte_encodeByte i⟩

/-- No two commands share a code, because decoding recovers the command (R94). -/
theorem encodeByte_injective : Function.Injective encodeByte := fun i j h =>
  Except.ok.inj (by rw [← decodeByte_encodeByte i, h, decodeByte_encodeByte j])

/-- Settles O1: decoding inverts encoding, and a byte that decodes is the code of what it decodes to. -/
theorem decodeIsExactMatch : Obligations.DecodeIsExactMatch := by
  unfold Obligations.DecodeIsExactMatch
  exact ⟨fun _ _ => decodeByte_eq_ok_iff, fun _ _ h => encodeByte_injective h,
    fun i rest _ => decode_encode_append i rest⟩

/-- Settles O2: each word is the encoding of its row's command, family number above function number. -/
theorem decodeOfTableWords : Obligations.DecodeOfTableWords := by
  unfold Obligations.DecodeOfTableWords
  exact ⟨decodeByte_encodeByte .nop, decodeByte_encodeByte .gfAdd, decodeByte_encodeByte .gfMul,
    decodeByte_encodeByte .gfInv, decodeByte_encodeByte .gfExp, decodeByte_encodeByte .gfLog,
    decodeByte_encodeByte .polyEval, decodeByte_encodeByte .rsGenpoly, decodeByte_encodeByte .rsEncode,
    decodeByte_encodeByte .rsSyndrome, decodeByte_encodeByte .bpClear, decodeByte_encodeByte .bpPut,
    decodeByte_encodeByte .selectVersion, decodeByte_encodeByte .encodeStream, decodeByte_encodeByte .rsBlocks,
    decodeByte_encodeByte .interleave, decodeByte_encodeByte .matrixInit, decodeByte_encodeByte .placeData,
    decodeByte_encodeByte .applyMask, decodeByte_encodeByte .writeFormat, decodeByte_encodeByte .generate⟩

/-! ### The codes that name no command (R96) -/

theorem commandWellFormed_eq_false_iff (c : Byte) :
    commandWellFormed c = false ↔ ∃ range ∈ illegalRanges, range.1 ≤ c.toNat ∧ c.toNat ≤ range.2 := by
  simp [commandWellFormed]

/-- Every byte is one of the 21 codes of R93 or lies in a range of R96. -/
theorem exists_illegalRange_of_no_command {c : Byte} (h : ∀ i, decodeByte c ≠ .ok i) :
    ∃ range ∈ illegalRanges, range.1 ≤ c.toNat ∧ c.toNat ≤ range.2 := by
  unfold decodeByte at h
  split at h
  case h_22 =>
    simp only [illegalRanges, List.exists_mem_cons_iff, List.not_mem_nil, false_and, exists_false, or_false,
      imp_false] at *
    omega
  all_goals exact absurd rfl (h _)

/-- The code of a command is well formed, so no byte of a range of R96 names one. -/
theorem exists_illegalRange_iff_no_command (c : Byte) :
    (∃ range ∈ illegalRanges, range.1 ≤ c.toNat ∧ c.toNat ≤ range.2) ↔ ∀ i, decodeByte c ≠ .ok i := by
  refine ⟨fun hrange i hd => ?_, exists_illegalRange_of_no_command⟩
  rw [← commandWellFormed_eq_false_iff, eq_encodeByte_of_decodeByte hd, commandWellFormed_encodeByte] at hrange
  cases hrange

/-- A code that names no command completes with ILLEGAL_CMD (R96, R312). -/
theorem runCommand_no_command {c : Byte} (h : ∀ i, decodeByte c ≠ .ok i) (s : State) :
    runCommand c s = .next (s.completeError .illegalCmd) := by
  cases hd : decodeByte c with
  | ok i => exact absurd hd (h i)
  | error e => rw [runCommand, hd]

/-- A host write to CMD while idle accepts the byte, whatever it is (R76). -/
theorem hostWrite_cmd_idle {s : State} (hp : s.pending = none) (c : Byte) :
    hostWrite 0x0003 c s = (s.accept c).log (.w 0x0003 c) := by
  have hcmd : s.writeIdle 0x0003 c = s.accept c := writeIdle_reg s .cmd c
  rw [hostWrite_idle hp, hcmd]

/-- Settles O3: the eight ranges are `illegalRanges` written out. -/
theorem illegalCodeCompletesWithError : Obligations.IllegalCodeCompletesWithError := by
  unfold Obligations.IllegalCodeCompletesWithError
  intro c s
  refine ⟨?_, fun hno => ⟨fun hp => hostWrite_cmd_idle hp c, runCommand_no_command hno s⟩⟩
  rw [← exists_illegalRange_iff_no_command]
  simp [illegalRanges]

end Sys2Proof.Proofs
end

section
/-! SUPPORT. The bits ENCODE_STREAM puts, as a list that no state enters, and what a run of `putBit` leaves of every bit of
DCW. -/

namespace Sys2Proof.Proofs

open Sys2Proof.Machine Sys2Proof.Laws

/-! ### The selected version (R120-R123) -/

theorem fits_iff (v L : Nat) : fits v L = true ↔ 4 + cci v + 8 * L + 4 ≤ 8 * ndata v := decide_eq_true_iff

theorem selectVersion_some {v L : Nat} (h : selectVersion L = some v) : validVersion v = true ∧ fits v L = true := by
  have hmem := List.mem_range'_1.1 (List.mem_of_find?_eq_some h)
  exact ⟨(validVersion_iff v).2 (by omega), List.find?_some (p := fun v => fits v L) h⟩

/-- A payload fits some version exactly when it has at most 271 bytes (R122). -/
theorem selectVersion_none_iff (L : Nat) : selectVersion L = none ↔ 271 < L := by
  rw [selectVersion, List.find?_eq_none]
  simp only [List.mem_range'_1, fits_iff]
  constructor
  · intro h
    have h10 : ¬ 4 + 16 + 8 * L + 4 ≤ 8 * 274 := h 10 (by decide)
    omega
  · intro h v hv
    have hcap : ∀ v, 1 ≤ v ∧ v < 1 + 10 → 8 * ndata v ≤ 8 + cci v + 8 * 271 := by
      rintro v ⟨h1, h10⟩
      interval_cases v <;> decide
    have := hcap v hv
    omega

theorem exists_selectVersion {L : Nat} (h : L ≤ 271) : ∃ v, selectVersion L = some v := by
  rw [← Option.ne_none_iff_exists', Ne, selectVersion_none_iff]
  omega

theorem ofNat_version_toNat {v : Nat} (hv : validVersion v = true) : (BitVec.ofNat 8 v).toNat = v := by
  have := (validVersion_iff v).1 hv
  rw [BitVec.toNat_ofNat]
  omega

/-! ### The encoded stream as a list of bits (R135, R136) -/

/-- The bits ENCODE_STREAM puts for a payload that fits version `v`: mode, count, payload, the whole terminator and the pad
codewords. They end on a byte boundary before any pad codeword, so no bit pads the last byte. -/
def streamOf (v : Nat) (payload : List Byte) : List Bool :=
  bitsOf 4 0b0100 ++ bitsOf (cci v) payload.length ++ (payload.flatMap fun b => bitsOf 8 b.toNat) ++ bitsOf 4 0 ++
    (List.range' 0 (ndata v - (1 + cci v / 8 + payload.length))).flatMap fun i => bitsOf 8 (padByte i)

theorem flatMap_bitsOf_length {α : Type} (f : α → Nat) (l : List α) :
    (l.flatMap fun x => bitsOf 8 (f x)).length = 8 * l.length := by
  simp [List.length_flatMap, bitsOf_length, Nat.mul_comm]

theorem cci_cases (v : Nat) : cci v = 8 ∨ cci v = 16 := by
  unfold cci
  split <;> simp

/-- The stream fills the data codewords (R135). -/
theorem streamOf_length {v : Nat} {payload : List Byte} (hf : fits v payload.length = true) :
    (streamOf v payload).length = 8 * ndata v := by
  have hfit := (fits_iff ..).1 hf
  simp only [streamOf, List.length_append, flatMap_bitsOf_length, bitsOf_length, List.length_range']
  rcases cci_cases v with h | h <;> rw [h] at hfit ⊢ <;> omega

theorem putBits_bpPos (bits : List Bool) {s : State} (hp : s.bpPos.toNat + bits.length ≤ 4096) :
    (bits.foldl State.putBit s).bpPos.toNat = s.bpPos.toNat + bits.length :=
  (putBits_keeps (Q := fun _ => True) (fun _ _ _ _ => trivial) bits trivial hp).2

theorem putBytes_eq (bytes : List Byte) (s : State) :
    bytes.foldl (fun s b => s.put b.toNat 8) s = (bytes.flatMap fun b => bitsOf 8 b.toNat).foldl State.putBit s := by
  rw [List.foldl_flatMap]
  rfl

theorem padToByte_of_aligned (fuel : Nat) {s : State} (h : s.bpPos.toNat % 8 = 0) : State.padToByte fuel s = s := by
  cases fuel with
  | zero => rfl
  | succ fuel => rw [State.padToByte, if_neg (not_not.2 h)]

/-- The pad codewords that fill the space up to `cap`, given fuel for them (R136). -/
theorem putPads_eq {cap n fuel : Nat} (i : Nat) {s : State} (hn : s.bpPos.toNat + 8 * n = cap) (hfuel : n ≤ fuel)
    (hcap : cap ≤ 4096) :
    State.putPads cap fuel i s = ((List.range' i n).flatMap fun i => bitsOf 8 (padByte i)).foldl State.putBit s := by
  induction n generalizing fuel i s with
  | zero =>
    cases fuel with
    | zero => rfl
    | succ fuel => rw [State.putPads, if_neg (by omega)]; rfl
  | succ n ih =>
    obtain ⟨fuel, rfl⟩ : ∃ f, fuel = f + 1 := ⟨fuel - 1, by omega⟩
    have hpos := putBits_bpPos (bitsOf 8 (padByte i)) (s := s) (by rw [bitsOf_length]; omega)
    rw [bitsOf_length] at hpos
    rw [State.putPads, if_pos (by omega), ih (s := s.put (padByte i) 8) (i + 1) (by unfold State.put; omega) (by omega),
      List.range'_succ, List.flatMap_cons, List.foldl_append]
    rfl

/-- ENCODE_STREAM of a payload that fits puts the bits of `streamOf` from BP_POS 0. -/
theorem putStream_eq {v : Nat} {payload : List Byte} (hv : validVersion v = true) (hf : fits v payload.length = true)
    (s : State) : s.putStream v payload = (streamOf v payload).foldl State.putBit { s with bpPos := 0 } := by
  obtain ⟨hnd, -⟩ := profile_bounds hv
  have hfit := (fits_iff ..).1 hf
  have hc := cci_cases v
  have h0 : (0 : BitVec 13).toNat = 0 := rfl
  have hp1 := putBits_bpPos (bitsOf 4 0b0100 ++ bitsOf (cci v) payload.length ++ payload.flatMap fun b => bitsOf 8 b.toNat)
    (s := { s with bpPos := 0 }) (by simp only [List.length_append, flatMap_bitsOf_length, bitsOf_length, h0]; omega)
  have hp2 := putBits_bpPos (bitsOf 4 0b0100 ++ bitsOf (cci v) payload.length ++
    (payload.flatMap fun b => bitsOf 8 b.toNat) ++ bitsOf 4 0)
    (s := { s with bpPos := 0 }) (by simp only [List.length_append, flatMap_bitsOf_length, bitsOf_length, h0]; omega)
  simp only [List.length_append, flatMap_bitsOf_length, bitsOf_length, List.foldl_append, h0] at hp1 hp2
  unfold State.putStream
  simp only [putBytes_eq]
  simp only [State.put]
  rw [hp1, show min 4 (8 * ndata v - (0 + (4 + cci v + 8 * payload.length))) = 4 by omega,
    padToByte_of_aligned 8 (by omega),
    putPads_eq (n := ndata v - (1 + cci v / 8 + payload.length)) 0 (by omega) (by omega) (by omega)]
  simp only [streamOf, List.foldl_append]

/-! ### Bits of a byte -/

theorem testBit_foldr_bits (l : List Bool) (k : Nat) :
    (l.foldr (fun (b : Bool) acc => 2 * acc + b.toNat) 0).testBit k = l.getD k false := by
  induction l generalizing k with
  | nil => simp
  | cons b l ih =>
    rw [List.foldr_cons]
    generalize l.foldr (fun (b : Bool) acc => 2 * acc + b.toNat) 0 = n at ih
    cases k with
    | zero => cases b <;> simp [Nat.testBit_zero]
    | succ k =>
      have hhalf : (2 * n + b.toNat) / 2 = n := by have := b.toNat_lt; omega
      rw [Nat.testBit_succ, hhalf, ih, List.getD_cons_succ]

/-- Bit `7 − j` of the byte of eight bits is its `j`-th bit (R130). -/
theorem getLsbD_byteOfBits {bits : List Bool} (h : bits.length = 8) {j : Nat} (hj : j < 8) :
    some ((byteOfBits bits).getLsbD (7 - j)) = bits[j]? := by
  have hrev := testBit_foldr_bits bits.reverse (7 - j)
  rw [List.foldr_reverse, List.getD_eq_getElem _ _ (by rw [List.length_reverse]; omega), List.getElem_reverse] at hrev
  rw [byteOfBits, BitVec.getLsbD_ofNat, hrev, List.getElem?_eq_getElem (by omega)]
  simp [h, show 7 - (7 - j) = j by omega, show 7 - j < 8 by omega]

theorem getLsbD_replaceBit (byte : Byte) {i j : Nat} (hj : j < 8) (b : Bool) :
    (replaceBit byte i b).getLsbD j = if j = i then b else byte.getLsbD j := by
  have hone : (1#8 <<< i).getLsbD j = decide (j = i) := by
    rw [BitVec.getLsbD_shiftLeft, BitVec.getLsbD_one, Bool.eq_iff_iff]
    simp
    omega
  unfold replaceBit
  cases b
  · rw [if_neg Bool.false_ne_true, BitVec.getLsbD_and, BitVec.getLsbD_not, hone]
    by_cases hji : j = i <;> simp [hji, hj]
  · rw [if_pos rfl, BitVec.getLsbD_or, hone]
    by_cases hji : j = i <;> simp [hji]

/-! ### What `putBit` leaves of every bit of DCW -/

theorem length_le_of_risingFrom {α : Type} {lo hi : Nat} {m : List (Nat × α)} (h : risingFrom lo m = true)
    (hlt : ∀ e ∈ m, e.1 < hi) (hle : lo ≤ hi) : lo + m.length ≤ hi := by
  induction m generalizing lo with
  | nil => exact hle
  | cons e m ih =>
    obtain ⟨k, b⟩ := e
    rw [risingFrom_cons] at h
    have hk : k < hi := hlt _ List.mem_cons_self
    have := ih h.2 (fun e he => hlt e (List.mem_cons_of_mem _ he)) hk
    rw [List.length_cons]
    omega

/-- Rising keys that leave no gap are consecutive. -/
theorem eq_cellsAt_of_dense {α : Type} {lo : Nat} {m : List (Nat × α)} (h : risingFrom lo m = true)
    (hlt : ∀ e ∈ m, e.1 < lo + m.length) : m = cellsAt lo (m.map Prod.snd) := by
  induction m generalizing lo with
  | nil => rfl
  | cons e m ih =>
    obtain ⟨k, b⟩ := e
    rw [risingFrom_cons] at h
    rw [List.length_cons] at hlt
    have hlt' := fun e he => hlt e (List.mem_cons_of_mem _ he)
    have hlen := length_le_of_risingFrom h.2 hlt' (hlt _ List.mem_cons_self)
    obtain rfl : k = lo := by omega
    rw [List.map_cons, cellsAt, ← ih h.2 fun e he => by have := hlt' e he; omega]

/-- The eight separate bits of a byte, once all are put, stand in the byte in their order (R130). -/
theorem getLsbD_byteOfBits_bitsIn {i : Nat} {m : BitCells} (hm : risingFrom 0 m = true) (hfull : (bitsIn i m).length = 8)
    {q : Nat} (hq : q / 8 = i) :
    some ((byteOfBits ((bitsIn i m).map (·.2))).getLsbD (7 - q % 8)) = memRead m q := by
  have hrise : risingFrom (8 * i) (bitsIn i m) = true := by
    have h := risingFrom_filter hm fun e => e.1 / 8 == i
    change risingFrom 0 (bitsIn i m) = true at h
    cases hb : bitsIn i m with
    | nil => rfl
    | cons e l =>
      have he := (mem_bitsIn.1 (hb ▸ List.mem_cons_self : e ∈ bitsIn i m)).2
      rw [hb, risingFrom_cons] at h
      exact (risingFrom_cons ..).2 ⟨by omega, h.2⟩
  have hdense := eq_cellsAt_of_dense hrise fun e he => by have := (mem_bitsIn.1 he).2; omega
  have hread : memRead m q = memRead (bitsIn i m) q := by rw [memRead_bitsIn, if_pos hq]
  rw [getLsbD_byteOfBits (by rw [List.length_map, hfull]) (Nat.mod_lt _ (by decide)), hread, hdense, memRead_cellsAt,
    if_pos (by omega), ← hdense, show q - 8 * i = q % 8 by omega]

theorem putBit_of_written {s : State} {old : Byte} (h : s.byteAt (dcwBase + s.bpPos.toNat / 8) = some old) (b : Bool) :
    s.putBit b =
      { s with mem := memOverlay [(dcwBase + s.bpPos.toNat / 8, replaceBit old (7 - s.bpPos.toNat % 8) b)] s.mem,
               bpPos := s.bpPos + 1 } := by
  rw [State.byteAt] at h
  simp only [State.putBit, h]

theorem putBit_of_unwritten {s : State} (h : s.byteAt (dcwBase + s.bpPos.toNat / 8) = none) (b : Bool) :
    let bits := memOverlay [(s.bpPos.toNat, b)] s.dcwBits
    let own := bitsIn (s.bpPos.toNat / 8) bits
    s.putBit b = if own.length = 8 then
        { s with mem := memOverlay [(dcwBase + s.bpPos.toNat / 8, byteOfBits (own.map (·.2)))] s.mem,
                 dcwBits := bitsOutside (s.bpPos.toNat / 8) bits, bpPos := s.bpPos + 1 }
      else { s with dcwBits := bits, bpPos := s.bpPos + 1 } := by
  rw [State.byteAt] at h
  simp only [State.putBit, h]

theorem memRead_memOverlay_single {α : Type} {m : List (Nat × α)} (hm : risingFrom 0 m = true) (k : Nat) (x : α) (a : Nat) :
    memRead (memOverlay [(k, x)] m) a = if k = a then some x else memRead m a := by
  rw [memRead_memOverlay (lo := 0) (by simp) hm, memRead_cons]
  split <;> rfl

theorem dcwBit_of_written {s : State} {q : Nat} {x : Byte} (h : s.byteAt (dcwBase + q / 8) = some x) :
    s.dcwBit q = some (x.getLsbD (7 - q % 8)) := by simp only [State.dcwBit, h]

theorem dcwBit_of_unwritten {s : State} {q : Nat} (h : s.byteAt (dcwBase + q / 8) = none) :
    s.dcwBit q = memRead s.dcwBits q := by simp only [State.dcwBit, h]

/-- A bit of DCW reads alike in states that read its byte and its separate bit alike. -/
theorem dcwBit_congr {s t : State} {q : Nat} (hbyte : t.byteAt (dcwBase + q / 8) = s.byteAt (dcwBase + q / 8))
    (hbit : memRead t.dcwBits q = memRead s.dcwBits q) : t.dcwBit q = s.dcwBit q := by
  simp only [State.dcwBit, hbyte, hbit]

/-- Putting a bit leaves the separate bits of every other byte. -/
theorem memRead_dcwBits_putBit {s : State} (hr : risingFrom 0 s.dcwBits = true) (b : Bool) {q : Nat}
    (hq : s.bpPos.toNat / 8 ≠ q / 8) : memRead (s.putBit b).dcwBits q = memRead s.dcwBits q := by
  have hover := memRead_memOverlay_single hr s.bpPos.toNat b q
  rw [if_neg fun h => hq (by rw [h])] at hover
  cases hbyte : s.byteAt (dcwBase + s.bpPos.toNat / 8) with
  | some old => rw [putBit_of_written hbyte]
  | none =>
    rw [putBit_of_unwritten hbyte]
    split
    · dsimp only [bitsOutside]
      rw [memRead_filter fun a => a / 8 != s.bpPos.toNat / 8, if_pos (by simpa using Ne.symm hq), hover]
    · exact hover

/-- Putting a bit at BP_POS sets that bit of DCW and leaves every other as it was (R130). -/
theorem dcwBit_putBit {s : State} (h : DataInv s) (b : Bool) (q : Nat) :
    (s.putBit b).dcwBit q = if s.bpPos.toNat = q then some b else s.dcwBit q := by
  by_cases hq : s.bpPos.toNat / 8 = q / 8
  · have hmem : ∀ x, memRead (memOverlay [(dcwBase + s.bpPos.toNat / 8, x)] s.mem) (dcwBase + q / 8) = some x := fun x =>
      (memRead_memOverlay_single (wf_rising h.memWf) _ x _).trans (if_pos (by rw [hq]))
    cases hbyte : s.byteAt (dcwBase + s.bpPos.toNat / 8) with
    | some old =>
      rw [dcwBit_of_written (s := s) (hq ▸ hbyte), putBit_of_written hbyte]
      simp only [State.dcwBit, State.byteAt, hmem]
      rw [getLsbD_replaceBit old (by omega)]
      split_ifs with h1 h2
      · rfl
      · omega
      · omega
      · rfl
    | none =>
      rw [dcwBit_of_unwritten (s := s) (hq ▸ hbyte), ← memRead_memOverlay_single h.bitsRise, putBit_of_unwritten hbyte]
      split
      · next hfull =>
        simp only [State.dcwBit, State.byteAt, hmem]
        exact getLsbD_byteOfBits_bitsIn (risingFrom_memOverlay (by simp) h.bitsRise) hfull hq.symm
      · exact dcwBit_of_unwritten (hq ▸ hbyte)
  · rw [if_neg fun h => hq (by rw [h])]
    exact dcwBit_congr (putBit_byteAt h.memWf b (by omega)) (memRead_dcwBits_putBit h.bitsRise b hq)

/-- What a run of `putBit` inside DCW leaves of every bit: the new bits at their places, the others as they were (R130). -/
theorem dcwBit_putBits (bits : List Bool) {s : State} (h : DataInv s) (hp : s.bpPos.toNat + bits.length ≤ 4096) (q : Nat) :
    (bits.foldl State.putBit s).dcwBit q = (memRead (cellsAt s.bpPos.toNat bits) q).or (s.dcwBit q) := by
  induction bits generalizing s with
  | nil => rfl
  | cons b bits ih =>
    rw [List.length_cons] at hp
    have hpos := putBit_pos (s := s) (by omega) b
    rw [List.foldl_cons, ih (h.putBit (by omega) b) (by omega), dcwBit_putBit h, cellsAt, memRead_cons, hpos]
    split
    · next hq => rw [memRead_below (risingFrom_cellsAt _ bits) (by omega)]; rfl
    · rfl

theorem memRead_dcwBits_putBits (bits : List Bool) {s : State} (h : DataInv s)
    (hp : s.bpPos.toNat + bits.length ≤ 4096) {q : Nat}
    (hq : ∀ p, s.bpPos.toNat ≤ p → p < s.bpPos.toNat + bits.length → p / 8 ≠ q / 8) :
    memRead (bits.foldl State.putBit s).dcwBits q = memRead s.dcwBits q := by
  induction bits generalizing s with
  | nil => rfl
  | cons b bits ih =>
    rw [List.length_cons] at hp hq
    have hpos := putBit_pos (s := s) (by omega) b
    rw [List.foldl_cons, ih (h.putBit (by omega) b) (by omega) fun p h1 h2 => hq p (by omega) (by omega),
      memRead_dcwBits_putBit h.bitsRise b (hq _ le_rfl (by omega))]

/-- A DCW byte all of whose bits are written is a written byte, and the byte of those bits (R130). -/
theorem byteAt_of_dcwBits {s : State} (h : DataInv s) {i : Nat} {bits : List Bool} (hlen : bits.length = 8)
    (hbits : ∀ j < 8, s.dcwBit (8 * i + j) = bits[j]?) : s.byteAt (dcwBase + i) = some (byteOfBits bits) := by
  have hdiv : ∀ j < 8, (8 * i + j) / 8 = i := by omega
  cases hbyte : s.byteAt (dcwBase + i) with
  | none =>
    have hsub : (addrRange (8 * i) 8) ⊆ (bitsIn i s.dcwBits).map Prod.fst := by
      intro a ha
      obtain ⟨j, hj, rfl⟩ := List.mem_map.1 ha
      rw [List.mem_range] at hj
      have hread := hbits j hj
      rw [dcwBit_of_unwritten (by rwa [hdiv j hj]), List.getElem?_eq_getElem (by omega)] at hread
      exact List.mem_map_of_mem (mem_bitsIn.2 ⟨memRead_some_mem hread, hdiv j hj⟩)
    have hnodup : (addrRange (8 * i) 8).Nodup := List.nodup_range.map (add_right_injective _)
    have hle := (hnodup.subperm hsub).length_le
    rw [addrRange_length, List.length_map] at hle
    exact absurd (h.bitsFew i) (by omega)
  | some x =>
    congr 1
    refine BitVec.eq_of_getLsbD_eq fun k hk => ?_
    have hx := hbits (7 - k) (by omega)
    rw [dcwBit_of_written (by rw [hdiv _ (by omega)]; exact hbyte), ← getLsbD_byteOfBits hlen (by omega)] at hx
    rw [show (8 * i + (7 - k)) % 8 = 7 - k by omega, show 7 - (7 - k) = k by omega] at hx
    exact Option.some.inj hx

end Sys2Proof.Proofs
end

section
/-! PROOF. NOP (O23), and GENERATE against its eight stages issued one by one (O55): the stages neither read nor write what
completion, acceptance and the writes of STAGE change. -/

namespace Sys2Proof.Proofs

open Sys2Proof.Machine Sys2Proof.Laws

/-- Settles O23: the body of NOP is empty, so its core step is the completion. -/
theorem nopChangesOnlyCompletion : Obligations.NopChangesOnlyCompletion := by
  unfold Obligations.NopChangesOnlyCompletion
  intro s
  exact exec_eq_finish .nop s

/-! ### The control fields -/

/-- `s` with the fields that acceptance, completion and the writes of STAGE change taken from `c`. -/
def withControl (s c : State) : State :=
  { s with lastCmd := c.lastCmd, done := c.done, err := c.err, errcode := c.errcode, stage := c.stage,
           pending := c.pending }

/-- VERSION is legal and holds LEN payload bytes: no stage after SELECT_VERSION raises (R111). -/
def Fitting (s : State) : Prop := validVersion s.ver = true ∧ fits s.ver s.len = true

/-- A body goes on from `s`, or faults, in the same way whatever the control fields are, and leaves those as they are. -/
def IgnoresControl (s : State) (body : Body) : Prop :=
  (∃ t, Fitting t ∧ ∀ c, body (withControl s c) = .ok (withControl t c)) ∨
    ∃ f, ∀ c, body (withControl s c) = .error (.fault f)

theorem ignoresControl_ok {s : State} {f : State → State} (hf : ∀ c, f (withControl s c) = withControl (f s) c)
    (ht : Fitting (f s)) : IgnoresControl s fun u => .ok (f u) :=
  .inl ⟨f s, ht, fun c => congrArg Except.ok (hf c)⟩

theorem ignoresControl_withVersion {s : State} (hs : Fitting s) {k : Nat → Body} (h : IgnoresControl s (k s.ver)) :
    IgnoresControl s fun u => u.withVersion fun v => k v u := by
  have key : ∀ c, (withControl s c).withVersion (fun v => k v (withControl s c)) = k s.ver (withControl s c) :=
    fun c => withVersion_valid (s := withControl s c) hs.1 _
  simpa only [IgnoresControl, key] using h

theorem ignoresControl_load {s : State} {addrs : List Nat} {k : List Byte → Body}
    (h : ∀ bytes, bytes.length = addrs.length → IgnoresControl s (k bytes)) :
    IgnoresControl s fun u => u.load addrs fun bytes => k bytes u := by
  cases hg : memGather addrs s.mem with
  | ok bytes =>
    have key : ∀ c, (withControl s c).load addrs (fun bytes => k bytes (withControl s c)) = k bytes (withControl s c) :=
      fun c => by simp only [State.load, withControl, hg]
    simpa only [IgnoresControl, key] using h bytes (memGather_length hg)
  | error a => exact .inr ⟨.unwrittenRead a, fun c => by simp only [State.load, withControl, hg]⟩

theorem putBit_withControl (s c : State) (b : Bool) : (withControl s c).putBit b = withControl (s.putBit b) c := by
  cases h : s.byteAt (dcwBase + s.bpPos.toNat / 8) with
  | some old => rw [putBit_of_written h, putBit_of_written (s := withControl s c) h]; rfl
  | none =>
    rw [putBit_of_unwritten h, putBit_of_unwritten (s := withControl s c) h]
    by_cases hfull : (bitsIn (s.bpPos.toNat / 8) (memOverlay [(s.bpPos.toNat, b)] s.dcwBits)).length = 8
    · rw [if_pos hfull]; exact if_pos hfull
    · rw [if_neg hfull]; exact if_neg hfull

theorem putBits_withControl (s c : State) (bits : List Bool) :
    bits.foldl State.putBit (withControl s c) = withControl (bits.foldl State.putBit s) c :=
  List.foldl_hom (withControl · c) (H := fun s b => putBit_withControl s c b)

theorem fitting_of_onlyPut {s t : State} (h : OnlyPut s t) (hs : Fitting s) : Fitting t := by
  rw [h]
  exact hs

theorem encodeStreamBody_ignoresControl {s : State} (hs : Fitting s) : IgnoresControl s encodeStreamBody := by
  have hload : IgnoresControl s fun u => u.load (addrRange payloadBase s.len) fun p => .ok (u.putStream s.ver p) := by
    refine ignoresControl_load fun p hp => ?_
    rw [addrRange_length] at hp
    refine ignoresControl_ok (fun c => ?_) (fitting_of_onlyPut (putStream_onlyPut s s.ver p) hs)
    rw [putStream_eq hs.1 (hp ▸ hs.2), putStream_eq hs.1 (hp ▸ hs.2)]
    exact putBits_withControl { s with bpPos := 0 } c _
  have hbody : ∀ c, encodeStreamBody (withControl s c) =
      (withControl s c).load (addrRange payloadBase s.len) fun p => .ok ((withControl s c).putStream s.ver p) := fun c =>
    (withVersion_valid (s := withControl s c) hs.1 _).trans (if_pos hs.2)
  simpa only [IgnoresControl, hbody] using hload

theorem store_ignoresControl {s : State} (hs : Fitting s) (cells : Memory) : IgnoresControl s fun u => .ok (u.store cells) :=
  ignoresControl_ok (fun _ => rfl) hs

theorem writeAll_ignoresControl {s : State} (hs : Fitting s) (writes : Memory) :
    IgnoresControl s fun u => .ok { u with mem := memWriteAll writes u.mem } :=
  ignoresControl_ok (fun _ => rfl) hs

theorem stage_ignoresControl {i : Instr} (hi : i ∈ pipelineStages.tail) {s : State} (hs : Fitting s) :
    IgnoresControl s (commandBody i) := by
  simp only [pipelineStages, List.tail_cons, List.mem_cons, List.not_mem_nil, or_false] at hi
  obtain rfl | rfl | rfl | rfl | rfl | rfl | rfl := hi
  · exact encodeStreamBody_ignoresControl hs
  · unfold commandBody rsBlocksBody
    refine ignoresControl_withVersion hs ?_
    refine ignoresControl_load fun data _ => ?_
    exact ignoresControl_ok (fun _ => rfl) hs
  · unfold commandBody interleaveBody
    refine ignoresControl_withVersion hs ?_
    refine ignoresControl_load fun data _ => ?_
    refine ignoresControl_load fun ec _ => ?_
    exact store_ignoresControl hs _
  · unfold commandBody matrixInitBody
    refine ignoresControl_withVersion hs ?_
    exact store_ignoresControl hs _
  · unfold commandBody placeDataBody
    refine ignoresControl_withVersion hs ?_
    refine ignoresControl_load fun cells _ => ?_
    refine ignoresControl_load fun codewords _ => ?_
    exact writeAll_ignoresControl hs _
  · unfold commandBody applyMaskBody
    refine ignoresControl_withVersion hs ?_
    refine ignoresControl_load fun cells _ => ?_
    exact store_ignoresControl hs _
  · unfold commandBody writeFormatBody
    refine ignoresControl_withVersion hs ?_
    exact writeAll_ignoresControl hs _

/-! ### GENERATE and the run of its stages -/

/-- The later stages with the value each leaves in STAGE, run in order (R111). -/
def stagesBody : List (Instr × Byte) → Body
  | [] => .ok
  | (i, k) :: rest => (stageThen (commandBody i) k).andThen (stagesBody rest)

/-- Stages 2 to 8 with their numbers (R111). -/
def numberedStages : List (Instr × Byte) :=
  [(.encodeStream, 2), (.rsBlocks, 3), (.interleave, 4), (.matrixInit, 5), (.placeData, 6), (.applyMask, 7),
    (.writeFormat, 8)]

theorem andThen_ok (first : Body) : first.andThen .ok = first := by
  funext s
  unfold Body.andThen
  cases first s <;> rfl

theorem laterStages_eq : laterStages = stagesBody numberedStages := by
  simp only [numberedStages, stagesBody, andThen_ok]
  rfl

/-- What GENERATE makes of how the run of its stages ends: STAGE `k` and LASTCMD `c` (R114). -/
def afterStages (k c : Byte) (r : Host.Outcome State Fault Refusal) : Host.Outcome State Fault Refusal :=
  match r with
  | .next t => .next { t with stage := k, lastCmd := c }
  | .fault f => .fault f
  | .refused x => .refused x

/-- `s` completed without error, but for STAGE `k` and LASTCMD `c`. -/
def completedAs (s : State) (k c : Byte) : State := { s.completeDone with stage := k, lastCmd := c }

/-- Stages run inside GENERATE, and issued one by one to the same state completed but for STAGE and LASTCMD, end alike. -/
theorem stagesBody_eq_issueAll (l : List (Instr × Byte)) (hl : ∀ e ∈ l, e.1 ∈ pipelineStages.tail) {s : State}
    (hs : Fitting s) (k c : Byte) :
    finish (stagesBody l s) = afterStages ((l.map Prod.snd).getLastD s.stage) s.lastCmd
      (issueAll (l.map Prod.fst) (completedAs s k c)) := by
  induction l generalizing s c with
  | nil => rfl
  | cons e l ih =>
    obtain ⟨i, n⟩ := e
    rw [List.map_cons, List.map_cons, List.getLastD_cons, issueAll, issue, exec_eq_finish, stagesBody]
    rcases stage_ignoresControl (hl _ List.mem_cons_self) hs with ⟨t, ht, h⟩ | ⟨f, h⟩
    · have hown : commandBody i s = .ok (withControl t s) := h s
      have hissued : commandBody i ((completedAs s k c).accept (encodeByte i)) = .ok (withControl t _) :=
        h ((completedAs s k c).accept (encodeByte i))
      simp only [Body.andThen, stageThen, hown, hissued, finish]
      exact ih (fun e he => hl e (List.mem_cons_of_mem _ he)) (s := (withControl t s).setStage n) ht (encodeByte i)
    · have hown : commandBody i s = .error (.fault f) := h s
      have hissued : commandBody i ((completedAs s k c).accept (encodeByte i)) = .error (.fault f) :=
        h ((completedAs s k c).accept (encodeByte i))
      simp only [Body.andThen, stageThen, hown, hissued, finish, afterStages]

theorem afterStages_eq_next {k c : Byte} {r : Host.Outcome State Fault Refusal} {t : State}
    (h : afterStages k c r = .next t) : ∃ u, r = .next u ∧ t = { u with stage := k, lastCmd := c } := by
  cases r <;> cases h
  exact ⟨_, rfl, rfl⟩

theorem generateBody_of_no_version {s : State} (h : selectVersion s.len = none) :
    generateBody s = raise .capacity (s.setStage 0) := by
  rcases generateBody_cases s with ⟨-, hb⟩ | ⟨v, hv, -⟩
  · exact hb
  · rw [h] at hv; cases hv

theorem generateBody_eq_stagesBody {s : State} {v : Nat} (h : selectVersion s.len = some v) :
    generateBody s = stagesBody numberedStages { s with stage := 1, version := BitVec.ofNat 8 v } := by
  rcases generateBody_cases s with ⟨hn, -⟩ | ⟨w, hw, hb⟩
  · rw [h] at hn; cases hn
  · rw [h] at hw; cases hw; rw [hb, laterStages_eq]

theorem issue_selectVersion {s : State} {v : Nat} (h : selectVersion s.len = some v) :
    issue .selectVersion s =
      .next (completedAs { s with version := BitVec.ofNat 8 v } s.stage (encodeByte .selectVersion)) := by
  have hlen : (s.accept (encodeByte .selectVersion)).len = s.len := rfl
  rw [issue, exec_eq_finish]
  simp only [commandBody, selectVersionBody, hlen, h]
  rfl

/-- GENERATE of a payload that some version holds ends as its eight stages issued one by one do, but for STAGE and LASTCMD
(R114). -/
theorem exec_generate_eq_issueAll {s : State} (h : s.len ≤ 271) :
    exec .generate s = afterStages 0x08 s.lastCmd (issueAll pipelineStages s) := by
  obtain ⟨v, hv⟩ := exists_selectVersion h
  obtain ⟨hvalid, hfits⟩ := selectVersion_some hv
  have hfit : Fitting { s with stage := 1, version := BitVec.ofNat 8 v } := by
    simp only [Fitting, State.ver, ofNat_version_toNat hvalid]
    exact ⟨hvalid, hfits⟩
  rw [exec_eq_finish, show commandBody .generate s = _ from generateBody_eq_stagesBody hv,
    stagesBody_eq_issueAll _ (by decide) hfit s.stage (encodeByte .selectVersion), pipelineStages, issueAll,
    issue_selectVersion hv]
  rfl

/-- A run of commands overwrites an acceptance made just before it. -/
theorem issueAll_accept (s : State) (c : Byte) : issueAll pipelineStages (s.accept c) = issueAll pipelineStages s := rfl

/-- Settles O55: accepting GENERATE changes nothing but control fields, and the first stage's own acceptance overwrites
them. -/
theorem generateEqualsTheEightStages : Obligations.GenerateEqualsTheEightStages := by
  unfold Obligations.GenerateEqualsTheEightStages
  intro s hs
  have h := exec_generate_eq_issueAll (s := s.accept (encodeByte .generate)) hs
  rwa [issueAll_accept] at h

end Sys2Proof.Proofs
end

section
/-! PROOF. What GENERATE leaves at every address it writes, as a function of the payload alone: from it O53 and O54. Each stage
is given the bytes it reads by an image of memory and leaves an image that no other part of the state enters. -/

namespace Sys2Proof.Proofs

open Sys2Proof.Machine Sys2Proof.Laws

/-! ### Images of memory -/

/-- `s` reads at every address of `R` the byte that `img` gives it. -/
def Known (R : Nat → Prop) (img : Nat → Byte) (s : State) : Prop := ∀ a, R a → s.byteAt a = some (img a)

theorem load_of_known {s : State} (hm : s.mem.wf = true) {R : Nat → Prop} {img : Nat → Byte} (hk : Known R img s) {lo : Nat}
    {addrs : List Nat} (ha : addrsRise lo addrs) (hR : ∀ a ∈ addrs, R a) (k : List Byte → Except Stop State) :
    s.load addrs k = k (addrs.map img) := by
  refine load_of_reads hm ha ?_ k
  rw [List.map_map]
  exact List.map_congr_left fun a h => hk a (hR a h)

/-- The data codewords `DCW[0..NDATA−1]` of version `v`. -/
def IsData (v a : Nat) : Prop := dcwBase ≤ a ∧ a < dcwBase + ndata v

/-- What RS_BLOCKS writes at version `v`: the generator polynomial and the EC codewords (R191). -/
def IsParity (v a : Nat) : Prop :=
  (genBase ≤ a ∧ a ≤ genBase + ecpb v) ∨ ∃ b < nblk v, ∃ j < ecpb v, a = ecwAddr b j

/-- The interleaved codewords `ICW[0..NTOTAL−1]` of version `v`. -/
def IsStream (v a : Nat) : Prop := icwBase ≤ a ∧ a < icwBase + ntotal v

/-- A cell of MATRIX. -/
def IsCell (a : Nat) : Prop := matrixBase ≤ a ∧ a < matrixBase + 4096

theorem generateWrites_iff (v a : Nat) :
    GenerateWrites v a ↔ ((IsData v a ∨ IsParity v a) ∨ IsStream v a) ∨ IsCell a := by
  simp only [GenerateWrites, IsData, IsParity, IsStream, IsCell, or_assoc]

theorem mem_addrRange {base n a : Nat} : a ∈ addrRange base n ↔ base ≤ a ∧ a < base + n := by
  simp only [addrRange, List.mem_map, List.mem_range]
  exact ⟨by rintro ⟨i, hi, rfl⟩; omega, fun h => ⟨a - base, by omega, by omega⟩⟩

theorem map_fst_cellsAt {α : Type} (base : Nat) (bytes : List α) :
    (cellsAt base bytes).map Prod.fst = addrRange base bytes.length := by
  induction bytes generalizing base with
  | nil => rfl
  | cons b bytes ih => rw [cellsAt, List.map_cons, ih, List.length_cons, addrRange_succ]

theorem map_fst_gridCells (g : Grid) : (gridCells g).map Prod.fst = addrRange matrixBase 4096 := by
  rw [gridCells, List.map_map]
  rfl

theorem mem_ecwAddrs {v a : Nat} : a ∈ ecwAddrs v ↔ ∃ b < nblk v, ∃ j < ecpb v, a = ecwAddr b j := by
  simp only [ecwAddrs, List.mem_flatMap, List.mem_map, List.mem_range, eq_comm]

theorem isCell_symbolAddrs {n : Nat} (hn : n ≤ 64) {a : Nat} (ha : a ∈ symbolAddrs n) : IsCell a := by
  obtain ⟨p, hp, rfl⟩ := List.mem_map.1 ha
  obtain ⟨hr, hc⟩ := mem_symbolCells.1 hp
  exact inBuffer_cellAddr (by omega) (by omega)

/-! ### What a stage makes of an image -/

/-- From `s` to `t` only memory and STAGE change, and of memory only what GENERATE writes. -/
structure StageRun (v : Nat) (s t : State) : Prop where
  fields : t = { s with mem := t.mem, stage := t.stage }
  inv : DataInv t
  frame : SameBytesOutside (GenerateWrites v) s t

/-- At version `v`, `body` completes wherever the bytes of `R` are known and leaves those of `R'` known: what it leaves
there is a function of what it was given. -/
def Yields (v : Nat) (R R' : Nat → Prop) (body : Body) : Prop :=
  ∀ img, ∃ img', ∀ s, DataInv s → s.ver = v → Known R img s →
    ∃ t, body s = .ok t ∧ StageRun v s t ∧ Known R' img' t

theorem StageRun.refl {v : Nat} {s : State} (h : DataInv s) : StageRun v s s := ⟨rfl, h, fun _ _ => rfl⟩

theorem StageRun.trans {v : Nat} {s t u : State} (h1 : StageRun v s t) (h2 : StageRun v t u) : StageRun v s u where
  fields := by rw [h2.fields, h1.fields]
  inv := h2.inv
  frame a ha := (h2.frame a ha).trans (h1.frame a ha)

theorem StageRun.ver {v : Nat} {s t : State} (h : StageRun v s t) : t.ver = s.ver := by rw [h.fields]; rfl

theorem StageRun.setStage {v : Nat} {s t : State} (h : StageRun v s t) {k : Byte} (hk : k.toNat ≤ 8) :
    StageRun v s (t.setStage k) where
  fields := by rw [h.fields]; rfl
  inv := h.inv.setStage hk
  frame := h.frame

theorem yields_nil (v : Nat) (R : Nat → Prop) : Yields v R R (stagesBody []) :=
  fun img => ⟨img, fun s hs _ hk => ⟨s, rfl, .refl hs, hk⟩⟩

/-- Stages in order: each finds known what the one before it leaves known. -/
theorem yields_cons {v : Nat} {R R' R'' : Nat → Prop} {i : Instr} {k : Byte} (hk : k.toNat ≤ 8)
    {rest : List (Instr × Byte)} (h1 : Yields v R R' (commandBody i)) (h2 : Yields v R' R'' (stagesBody rest)) :
    Yields v R R'' (stagesBody ((i, k) :: rest)) := by
  intro img
  obtain ⟨img', hfirst⟩ := h1 img
  obtain ⟨img'', hrest⟩ := h2 img'
  refine ⟨img'', fun s hs hver hR => ?_⟩
  obtain ⟨t, ht, hrun, hR'⟩ := hfirst s hs hver hR
  have hset := hrun.setStage hk
  obtain ⟨u, hu, hrun', hR''⟩ := hrest (t.setStage k) hset.inv (hset.ver.trans hver) hR'
  refine ⟨u, ?_, hset.trans hrun', hR''⟩
  rw [stagesBody, andThen_ok_iff]
  exact ⟨_, (stageThen_ok_iff ..).2 ⟨t, ht, rfl⟩, hu⟩

theorem memRead_of_mem_keys {α : Type} {m : List (Nat × α)} {a : Nat} (h : a ∈ m.map Prod.fst) :
    ∃ b, memRead m a = some b := by
  induction m with
  | nil => simp at h
  | cons e m ih =>
    obtain ⟨k, b⟩ := e
    rw [memRead_cons]
    split
    · exact ⟨b, rfl⟩
    · next hne => exact ih ((List.mem_cons.1 h).resolve_left (Ne.symm hne))

/-- A stage that lays over memory cells it computes from the image leaves known what was known and those cells. -/
theorem yields_of_cells {v : Nat} {R R' : Nat → Prop} {i : Instr} (cells : (Nat → Byte) → Memory)
    (hin : ∀ img, ∀ e ∈ cells img, GenerateWrites v e.1)
    (hcover : ∀ img a, R' a → R a ∨ a ∈ (cells img).map Prod.fst)
    (hrun : ∀ img s, DataInv s → s.ver = v → Known R img s → ∃ m, commandBody i s = .ok { s with mem := m } ∧
      ∀ a, memRead m a = (memRead (cells img) a).or (memRead s.mem a)) :
    Yields v R R' (commandBody i) := by
  refine fun img => ⟨fun a => (memRead (cells img) a).getD (img a), fun s hs hver hk => ?_⟩
  obtain ⟨m, hbody, hread⟩ := hrun img s hs hver hk
  have hinv := commandBody_keeps_dataInv i hs
  rw [hbody] at hinv
  refine ⟨_, hbody, ⟨rfl, hinv, fun a ha => (hread a).trans ?_⟩, fun a ha => (hread a).trans ?_⟩
  · cases hc : memRead (cells img) a with
    | none => rfl
    | some b => exact absurd (hin img _ (memRead_some_mem hc)) ha
  · dsimp only
    cases hc : memRead (cells img) a with
    | some b => rfl
    | none =>
      refine hk a ((hcover img a ha).resolve_right fun hmem => ?_)
      obtain ⟨b, hb⟩ := memRead_of_mem_keys hmem
      rw [hc] at hb
      cases hb

/-! ### How many codewords the stages write -/

/-- Column-wise interleaving takes from each block as many bytes as it has among the first `len` (R195). -/
theorem columnwise_length (len : Nat) (blocks : List (List Byte)) :
    (columnwise len blocks).length = (blocks.map fun block => min len block.length).sum := by
  induction len with
  | zero => simp [columnwise]
  | succ len ih =>
    have hcol : ∀ bs : List (List Byte), (bs.map fun b => min (len + 1) b.length).sum =
        (bs.map fun b => min len b.length).sum + (bs.filterMap fun b => b[len]?).length := by
      intro bs
      induction bs with
      | nil => rfl
      | cons b bs ihb =>
        simp only [List.map_cons, List.sum_cons, ihb]
        by_cases h : len < b.length
        · rw [List.filterMap_cons_some (f := fun b : List Byte => b[len]?) (List.getElem?_eq_getElem h), List.length_cons]
          omega
        · rw [List.filterMap_cons_none (f := fun b : List Byte => b[len]?) (List.getElem?_eq_none (by omega))]
          omega
    rw [hcol, ← ih]
    simp [columnwise, List.range_succ]

/-- The interleaved stream holds NTOTAL codewords (R195). -/
theorem interleaved_length {v : Nat} (hv : validVersion v = true) {data ec : List Byte} (hdata : data.length = ndata v)
    (hec : ec.length = ecpb v * nblk v) : (interleaved v data ec).length = ntotal v := by
  have hd : (splitBlocks v data).map (fun block => min (maxBlockLen v) block.length) =
      (List.range (nblk v)).map fun b => min (maxBlockLen v) (min (blockLen v b) (ndata v - blockStart v b)) := by
    simp [splitBlocks, hdata]
  have he : (splitEc v ec).map (fun block => min (ecpb v) block.length) =
      (List.range (nblk v)).map fun b => min (ecpb v) (min (ecpb v) (ecpb v * nblk v - ecpb v * b)) := by
    simp [splitEc, hec]
  rw [interleaved, List.length_append, columnwise_length, columnwise_length, hd, he]
  obtain ⟨h1, h10⟩ := (validVersion_iff v).1 hv
  clear hd he hdata hec
  interval_cases v <;> decide

theorem ecwAddrs_length (v : Nat) : (ecwAddrs v).length = ecpb v * nblk v := by
  simp [ecwAddrs, List.length_flatMap, Nat.mul_comm]

/-- The EC codewords of all blocks (R191). -/
def ecBytes (v : Nat) (data : List Byte) : List Byte := (splitBlocks v data).flatMap fun block => rsrem block (ecpb v)

theorem ecBytes_length {v : Nat} (hv : validVersion v = true) (data : List Byte) :
    (ecBytes v data).length = ecpb v * nblk v := by
  obtain ⟨-, hec, -⟩ := profile_bounds hv
  simp [ecBytes, List.length_flatMap, rsrem_length _ hec, splitBlocks, Function.comp_def, Nat.mul_comm]

/-! ### Stages 3 to 8 -/

/-- The data codewords an image holds. -/
def dataIn (v : Nat) (img : Nat → Byte) : List Byte := (addrRange dcwBase (ndata v)).map img

/-- The symbol an image holds. -/
def symbolIn (v : Nat) (img : Nat → Byte) : List ModuleCell := ((symbolAddrs (side v)).map img).map ModuleCell.ofByte

/-- The cells PLACE_DATA writes when MATRIX and ICW are those of an image. -/
def placementsIn (v : Nat) (img : Nat → Byte) : Memory :=
  placements (zigzag (side v) (gridOf (side v) (symbolIn v img))) (streamBits ((addrRange icwBase (ntotal v)).map img))

/-- A stage that writes cells of a known MATRIX leaves known what was known. -/
theorem yields_of_matrixCells {v : Nat} {i : Instr} (cells : (Nat → Byte) → Memory) (hc : ∀ img, MatrixCells (cells img))
    (hrun : ∀ img s, DataInv s → s.ver = v → Known (GenerateWrites v) img s →
      ∃ m, commandBody i s = .ok { s with mem := m } ∧ ∀ a, memRead m a = (memRead (cells img) a).or (memRead s.mem a)) :
    Yields v (GenerateWrites v) (GenerateWrites v) (commandBody i) :=
  yields_of_cells cells (fun img e he => (generateWrites_iff ..).2 (.inr (hc img e he).1)) (fun _ _ ha => .inl ha) hrun

section Stages

variable {v : Nat} (hv : validVersion v = true)
include hv

theorem withVersion_of_ver {s : State} (h : s.ver = v) (k : Nat → Except Stop State) : s.withVersion k = k v := by
  subst h
  exact withVersion_valid hv k

theorem rsBlocks_yields : Yields v (IsData v) (fun a => IsData v a ∨ IsParity v a) (commandBody .rsBlocks) := by
  obtain ⟨-, -, hec, -, -, -⟩ := profile_bounds hv
  have hkeys : ∀ data, ((ecwAddrs v).zip (ecBytes v data)).map Prod.fst = ecwAddrs v := fun data =>
    List.map_fst_zip (by rw [ecwAddrs_length, ecBytes_length hv])
  refine yields_of_cells (fun img => (ecwAddrs v).zip (ecBytes v (dataIn v img)) ++ cellsAt genBase (genpoly (ecpb v)))
    (fun img e he => (generateWrites_iff ..).2 (.inl (.inl (.inr ?_)))) (fun img a ha => ha.imp_right fun ha => ?_)
    fun img s hs hver hk => ?_
  · rcases List.mem_append.1 he with he | he
    · exact .inr (mem_ecwAddrs.1 (List.of_mem_zip he).1)
    · have := mem_cellsAt he
      rw [genpoly_length] at this
      exact .inl (by omega)
  · rw [List.map_append, hkeys, List.mem_append]
    refine ha.symm.imp mem_ecwAddrs.2 fun ha => ?_
    rw [map_fst_cellsAt, genpoly_length, mem_addrRange]
    omega
  · refine ⟨memOverlay ((ecwAddrs v).zip (ecBytes v (dataIn v img)))
      (memOverlay (cellsAt genBase (genpoly (ecpb v))) s.mem), ?_, fun a => ?_⟩
    · change rsBlocksBody s = _
      rw [rsBlocksBody, withVersion_of_ver hv hver,
        load_of_known hs.memWf hk (addrsRise_addrRange ..) fun a ha => mem_addrRange.1 ha]
      rfl
    · have hgen : Memory.wf (cellsAt genBase (genpoly (ecpb v))) = true := wf_genCells (by omega)
      have hzip : risingFrom 0 ((ecwAddrs v).zip (ecBytes v (dataIn v img))) = true := by
        rw [risingFrom_iff_addrsRise, hkeys]
        exact addrsRise_mono (addrsRise_ecwAddrs (by omega)) (Nat.zero_le _)
      rw [memRead_memOverlay hzip (wf_rising (wf_memOverlay hgen hs.memWf)),
        memRead_memOverlay (wf_rising hgen) (wf_rising hs.memWf), memRead_append, Option.or_assoc]

theorem interleave_yields : Yields v (fun a => IsData v a ∨ IsParity v a)
    (fun a => (IsData v a ∨ IsParity v a) ∨ IsStream v a) (commandBody .interleave) := by
  obtain ⟨-, -, hec, -, -, -⟩ := profile_bounds hv
  have hlen : ∀ img : Nat → Byte, (interleaved v (dataIn v img) ((ecwAddrs v).map img)).length = ntotal v := fun img =>
    interleaved_length hv (by rw [dataIn, List.length_map, addrRange_length]) (by rw [List.length_map, ecwAddrs_length])
  refine yields_of_cells (fun img => cellsAt icwBase (interleaved v (dataIn v img) ((ecwAddrs v).map img)))
    (fun img e he => (generateWrites_iff ..).2 (.inl (.inr ?_))) (fun img a ha => ha.imp_right fun ha => ?_)
    fun img s hs hver hk => ?_
  · have := mem_cellsAt he
    rwa [hlen] at this
  · rw [map_fst_cellsAt, hlen]
    exact mem_addrRange.2 ha
  · refine ⟨_, ?_, memRead_memOverlay (risingFrom_mono (risingFrom_cellsAt ..) (Nat.zero_le _)) (wf_rising hs.memWf)⟩
    change interleaveBody s = _
    rw [interleaveBody, withVersion_of_ver hv hver,
      load_of_known hs.memWf hk (addrsRise_addrRange ..) fun a ha => .inl (mem_addrRange.1 ha),
      load_of_known hs.memWf hk (addrsRise_ecwAddrs (by omega)) fun a ha => .inr (.inr (mem_ecwAddrs.1 ha))]
    rfl

theorem matrixInit_yields : Yields v (fun a => (IsData v a ∨ IsParity v a) ∨ IsStream v a) (GenerateWrites v)
    (commandBody .matrixInit) := by
  refine yields_of_cells (fun _ => structCells v)
    (fun img e he => (generateWrites_iff ..).2 (.inr (matrixCells_structCells v e he).1))
    (fun img a ha => ((generateWrites_iff ..).1 ha).imp_right fun ha => ?_) fun img s hs hver hk => ?_
  · rw [structCells, map_fst_gridCells]
    exact mem_addrRange.2 ha
  · refine ⟨_, ?_, memRead_memOverlay (wf_rising (wf_gridCells _)) (wf_rising hs.memWf)⟩
    change matrixInitBody s = _
    rw [matrixInitBody, withVersion_of_ver hv hver]
    rfl

theorem placeData_yields : Yields v (GenerateWrites v) (GenerateWrites v) (commandBody .placeData) := by
  obtain ⟨-, -, -, -, hside, -⟩ := profile_bounds hv
  have hcells : ∀ img, MatrixCells (placementsIn v img) := fun img => matrixCells_placements (by omega) _ _
  refine yields_of_matrixCells (fun img => (placementsIn v img).reverse)
    (fun img e he => hcells img e (List.mem_reverse.1 he)) fun img s hs hver hk => ?_
  refine ⟨_, ?_, memRead_memWriteAll (placementsIn v img) (wf_rising hs.memWf)⟩
  change placeDataBody s = _
  rw [placeDataBody, withVersion_of_ver hv hver, State.loadSymbol,
    load_of_known hs.memWf hk (addrsRise_symbolAddrs (by omega)) fun a ha =>
      (generateWrites_iff ..).2 (.inr (isCell_symbolAddrs (by omega) ha))]
  dsimp only
  rw [load_of_known hs.memWf hk (addrsRise_addrRange ..) fun a ha =>
      (generateWrites_iff ..).2 (.inl (.inr (mem_addrRange.1 ha)))]
  rfl

theorem applyMask_yields : Yields v (GenerateWrites v) (GenerateWrites v) (commandBody .applyMask) := by
  obtain ⟨-, -, -, -, hside, -⟩ := profile_bounds hv
  refine yields_of_matrixCells (fun img => maskedCells (side v) (symbolIn v img))
    (fun img => matrixCells_maskedCells (by omega) _) fun img s hs hver hk => ?_
  refine ⟨_, ?_, memRead_memOverlay (wf_rising (wf_maskedCells (by omega) _)) (wf_rising hs.memWf)⟩
  change applyMaskBody s = _
  rw [applyMaskBody, withVersion_of_ver hv hver, State.loadSymbol,
    load_of_known hs.memWf hk (addrsRise_symbolAddrs (by omega)) fun a ha =>
      (generateWrites_iff ..).2 (.inr (isCell_symbolAddrs (by omega) ha))]
  rfl

theorem writeFormat_yields : Yields v (GenerateWrites v) (GenerateWrites v) (commandBody .writeFormat) := by
  obtain ⟨-, -, -, -, hside, -⟩ := profile_bounds hv
  have hcells : MatrixCells (formatWrites (side v)) := matrixCells_formatWrites (by unfold side; omega) (by omega)
  refine yields_of_matrixCells (fun _ => (formatWrites (side v)).reverse)
    (fun _ e he => hcells e (List.mem_reverse.1 he)) fun img s hs hver hk => ?_
  refine ⟨_, ?_, memRead_memWriteAll (formatWrites (side v)) (wf_rising hs.memWf)⟩
  change writeFormatBody s = _
  rw [writeFormatBody, withVersion_of_ver hv hver]

/-- From the data codewords on, the stages complete and all they leave is a function of those codewords (R111). -/
theorem stages_after_encode_yield : Yields v (IsData v) (GenerateWrites v) (stagesBody numberedStages.tail) :=
  yields_cons (by decide) (rsBlocks_yields hv) <| yields_cons (by decide) (interleave_yields hv) <|
    yields_cons (by decide) (matrixInit_yields hv) <| yields_cons (by decide) (placeData_yields hv) <|
    yields_cons (by decide) (applyMask_yields hv) <| yields_cons (by decide) (writeFormat_yields hv) <| yields_nil v _

end Stages

/-! ### The data codewords -/

/-- The image ENCODE_STREAM leaves of DCW: byte `i` holds stream bits `8i` to `8i + 7` (R135). -/
def encodedImage (v : Nat) (payload : List Byte) (a : Nat) : Byte :=
  byteOfBits (((streamOf v payload).drop (8 * (a - dcwBase))).take 8)

theorem reads_of_holds {s : State} {base : Nat} {bytes : List Byte} (h : s.Holds base bytes) :
    (addrRange base bytes.length).map s.byteAt = bytes.map some := by
  refine List.ext_getElem (by simp [addrRange]) fun i h1 h2 => ?_
  have hi : i < bytes.length := by simpa using h2
  simpa [addrRange] using h i hi

/-- What ENCODE_STREAM leaves of a payload that fits: the data codewords are those of its stream, and nothing else of memory
or of the separate bits past them is changed (R135). -/
theorem encodeStreamBody_image {v : Nat} {payload : List Byte} (hv : validVersion v = true)
    (hf : fits v payload.length = true) {s : State} (hs : DataInv s) (hver : s.ver = v) (hlen : s.len = payload.length)
    (hp : s.Holds payloadBase payload) :
    ∃ t, encodeStreamBody s = .ok t ∧
      t = { s with mem := t.mem, dcwBits := t.dcwBits, bpPos := BitVec.ofNat 13 (8 * ndata v) } ∧ DataInv t ∧
      Known (IsData v) (encodedImage v payload) t ∧ SameBytesOutside (IsData v) s t ∧
      ∀ p, 8 * ndata v ≤ p → memRead t.dcwBits p = memRead s.dcwBits p := by
  obtain ⟨hnd, -⟩ := profile_bounds hv
  have h0 : ({ s with bpPos := 0 } : State).bpPos.toNat = 0 := rfl
  have hl := streamOf_length hf
  have hroom : ({ s with bpPos := 0 } : State).bpPos.toNat + (streamOf v payload).length ≤ 4096 := by omega
  have hbody : encodeStreamBody s = .ok ((streamOf v payload).foldl State.putBit { s with bpPos := 0 }) := by
    rw [encodeStreamBody, withVersion_of_ver hv hver, hlen, if_pos hf, load_of_reads hs.memWf (addrsRise_addrRange ..)
      (reads_of_holds hp), putStream_eq hv hf]
  have hinv := commandBody_keeps_dataInv .encodeStream hs
  rw [show commandBody .encodeStream s = _ from hbody] at hinv
  have hput := putBits_onlyPut (streamOf v payload) { s with bpPos := 0 }
  have hbits := dcwBit_putBits (streamOf v payload) hs.setBpPos hroom
  have hsep := fun q => memRead_dcwBits_putBits (streamOf v payload) hs.setBpPos hroom (q := q)
  obtain ⟨hpos, -, hframe⟩ := putBits_spec (streamOf v payload) (s := { s with bpPos := 0 }) hs.memWf hroom
  rw [h0, hl] at hframe hsep hpos
  rw [h0] at hbits
  refine ⟨_, hbody, ?_, hinv, fun a ha => ?_, fun a ha => hframe a fun p _ h2 hap => ha ?_, fun p h => hsep p ?_⟩
  · have : BitVec.ofNat 13 (8 * ndata v) = ((streamOf v payload).foldl State.putBit { s with bpPos := 0 }).bpPos := by
      apply BitVec.eq_of_toNat_eq
      rw [hpos, BitVec.toNat_ofNat]
      omega
    rw [this]
    exact hput
  · obtain ⟨h1, h2⟩ := ha
    obtain ⟨i, rfl⟩ := Nat.exists_eq_add_of_le h1
    rw [encodedImage, Nat.add_sub_cancel_left]
    refine byteAt_of_dcwBits hinv ?_ fun j hj => ?_
    · rw [List.length_take, List.length_drop, hl]
      omega
    · rw [hbits, memRead_cellsAt, if_pos (Nat.zero_le _), List.getElem?_take_of_lt hj, List.getElem?_drop, Nat.sub_zero,
        List.getElem?_eq_getElem (by omega)]
      rfl
  · exact ⟨by omega, by omega⟩
  · intro q _ hq
    omega

/-! ### GENERATE -/

/-- The bytes a written range holds. -/
theorem exists_holds_of_written {s : State} {base n : Nat} (h : s.Written base n) :
    ∃ bytes : List Byte, bytes.length = n ∧ s.Holds base bytes := by
  refine ⟨(List.range n).map fun i => (s.byteAt (base + i)).getD 0, by simp, fun i hi => ?_⟩
  have hin : i < n := by simpa using hi
  obtain ⟨b, hb⟩ := Option.isSome_iff_exists.1 (h i hin)
  simp [hb]

/-- GENERATE of a payload that version `v` holds completes, from every state that holds it, with one and the same byte at
every address it writes (R111, R113). -/
theorem exec_generate_image {v : Nat} {payload : List Byte} (hsel : selectVersion payload.length = some v) :
    ∃ img, ∀ s : State, s.Inv → s.len = payload.length → s.Holds payloadBase payload →
      ∃ t, exec .generate s = .next t ∧
        t = { s with version := BitVec.ofNat 8 v, stage := 0x08, bpPos := BitVec.ofNat 13 (8 * ndata v), mem := t.mem,
                     dcwBits := t.dcwBits, done := true, err := false, errcode := 0x00, pending := none } ∧
        Known (GenerateWrites v) img t ∧ SameBytesOutside (GenerateWrites v) s t ∧
        ∀ p, 8 * ndata v ≤ p → memRead t.dcwBits p = memRead s.dcwBits p := by
  obtain ⟨hv, hf⟩ := selectVersion_some hsel
  obtain ⟨img, himg⟩ := stages_after_encode_yield hv (encodedImage v payload)
  refine ⟨img, fun s hs hlen hp => ?_⟩
  have hstart : DataInv { s with stage := 1, version := BitVec.ofNat 8 v } :=
    ((inv_dataInv hs).setStage (k := 1) (by decide)).setVersion _
  obtain ⟨t, ht, htfields, htinv, htknown, htframe, htbits⟩ :=
    encodeStreamBody_image hv hf hstart (ofNat_version_toNat hv) hlen hp
  have htver : (t.setStage 2).ver = v := by rw [htfields]; exact ofNat_version_toNat hv
  obtain ⟨u, hu, hrun, hknown⟩ := himg (t.setStage 2) (htinv.setStage (by decide)) htver htknown
  have hbody : generateBody s = .ok u := by
    rw [generateBody_eq_stagesBody (by rw [hlen]; exact hsel), numberedStages, stagesBody, andThen_ok_iff]
    exact ⟨_, (stageThen_ok_iff ..).2 ⟨t, ht, rfl⟩, hu⟩
  have hexec : exec .generate s = .next u.completeDone := by
    rw [exec_eq_finish, show commandBody .generate s = _ from hbody]
    rfl
  have hstage : u.stage = 0x08 := by
    have hmax := (selectVersion_none_iff payload.length).not.1 (by rw [hsel]; exact Option.some_ne_none v)
    have hissue := exec_generate_eq_issueAll (s := s) (by omega)
    rw [hexec] at hissue
    obtain ⟨w, -, hw⟩ := afterStages_eq_next hissue.symm
    exact congrArg State.stage hw
  refine ⟨_, hexec, ?_, hknown, fun a ha => ?_, fun p h => ?_⟩
  · rw [hrun.fields, htfields, hstage]
    rfl
  · exact (hrun.frame a ha).trans (htframe a fun hd => ha ((generateWrites_iff ..).2 (.inl (.inl (.inl hd)))))
  · have hu : u.dcwBits = t.dcwBits := by rw [hrun.fields]; rfl
    exact (congrArg (memRead · p) hu).trans (htbits p h)

/-- Settles O53, from the image GENERATE leaves (`exec_generate_image`) and its equality with its stages
(`exec_generate_eq_issueAll`). -/
theorem generateCompletes : Obligations.GenerateCompletes := by
  unfold Obligations.GenerateCompletes
  refine fun s hs => ⟨fun hlen hw => ?_, fun hlen => ?_⟩
  · obtain ⟨payload, hpl, hp⟩ := exists_holds_of_written hw
    obtain ⟨v, hv⟩ := exists_selectVersion hlen
    obtain ⟨img, himg⟩ := exec_generate_image (by rw [hpl]; exact hv)
    obtain ⟨t, hexec, hfields, hknown, hframe, hbits⟩ := himg s hs hpl.symm hp
    refine ⟨t, v, hexec, hv, hfields, fun a ha => by rw [hknown a ha]; rfl, hframe, hbits, ?_⟩
    exact afterStages_eq_next ((exec_generate_eq_issueAll hlen).symm.trans hexec)
  · rw [exec_eq_finish, show commandBody .generate s = _ from generateBody_of_no_version
      ((selectVersion_none_iff s.len).2 hlen)]
    rfl

/-- Settles O54: the image of `exec_generate_image` is one for both states. -/
theorem generateDependsOnThePayloadAlone : Obligations.GenerateDependsOnThePayloadAlone := by
  unfold Obligations.GenerateDependsOnThePayloadAlone
  intro s₁ s₂ h₁ h₂ hlen hmax hw hsame
  obtain ⟨payload, hpl, hp₁⟩ := exists_holds_of_written hw
  obtain ⟨v, hv⟩ := exists_selectVersion hmax
  have hp₂ : s₂.Holds payloadBase payload := fun i hi => (hsame i (hpl ▸ hi)).symm.trans (hp₁ i hi)
  obtain ⟨img, himg⟩ := exec_generate_image (by rw [hpl]; exact hv)
  obtain ⟨t₁, hexec₁, hfields₁, hknown₁, -, -⟩ := himg s₁ h₁ hpl.symm hp₁
  obtain ⟨t₂, hexec₂, hfields₂, hknown₂, -, -⟩ := himg s₂ h₂ (hlen.symm.trans hpl.symm) hp₂
  refine ⟨t₁, t₂, v, hexec₁, hexec₂, hv, ?_, ?_, ?_, fun a ha => (hknown₁ a ha).trans (hknown₂ a ha).symm⟩
  · rw [hfields₁, hfields₂]
  · rw [hfields₁, hfields₂]
  · rw [hfields₁, hfields₂]

end Sys2Proof.Proofs
end

section
/-! PROOF. BP_CLEAR (O40), and the version selector as the least version that fits, from which O42 and O43. -/

namespace Sys2Proof.Proofs

open Sys2Proof.Machine Sys2Proof.Laws

/-! ### A core step from how its body ends (R310) -/

theorem exec_of_ok (i : Instr) {s u : State} (h : commandBody i s = .ok u) : exec i s = .next u.completeDone := by
  rw [exec_eq_finish, h]
  rfl

theorem exec_of_raise (i : Instr) {s u : State} {e : ErrCode} (h : commandBody i s = raise e u) :
    exec i s = .next (u.completeError e) := by
  rw [exec_eq_finish, h]
  rfl

/-- Settles O40: the body of BP_CLEAR is the one assignment. -/
theorem bpClearResult : Obligations.BpClearResult := by
  unfold Obligations.BpClearResult
  exact fun s => exec_of_ok .bpClear (u := { s with bpPos := 0 }) rfl

/-! ### The selected version (R122-R124) -/

/-- The selected version is the least legal one that fits (R123). -/
theorem selectVersion_eq_some_iff (L v : Nat) :
    selectVersion L = some v ↔
      validVersion v = true ∧ fits v L = true ∧ ∀ w, 1 ≤ w → w < v → fits w L = false := by
  rw [selectVersion, List.find?_range'_eq_some, List.mem_range'_1, validVersion_iff]
  simp only [Bool.not_eq_true', Nat.lt_succ_iff, and_left_comm]

theorem fits_eq_false_iff (v L : Nat) : fits v L = false ↔ ¬ 4 + cci v + 8 * L + 4 ≤ 8 * ndata v := by
  rw [Bool.eq_false_iff, Ne, fits_iff]

/-- A version holds the payloads of at most MAXLEN bytes (R122). -/
theorem fits_iff_le_maxLen {v : Nat} (hv : validVersion v = true) (L : Nat) : fits v L = true ↔ L ≤ maxLen v := by
  have hroom : ∀ v, 1 ≤ v ∧ v ≤ 10 → 8 + cci v ≤ 8 * ndata v := by
    rintro v ⟨h1, h10⟩
    interval_cases v <;> decide
  have := hroom v ((validVersion_iff v).1 hv)
  rw [fits_iff, maxLen]
  omega

/-- Settles O42, from the selector as the least version that fits (`selectVersion_eq_some_iff`). -/
theorem selectVersionResult : Obligations.SelectVersionResult := by
  unfold Obligations.SelectVersionResult
  intro s
  rcases selectVersionBody_cases s with ⟨hsel, hbody⟩ | ⟨v, hsel, hbody⟩
  · have hlen := (selectVersion_none_iff s.len).1 hsel
    exact ⟨fun h => absurd hlen (Nat.not_lt.2 h), fun _ => exec_of_raise .selectVersion hbody⟩
  · refine ⟨fun _ => ?_, fun h => ?_⟩
    · obtain ⟨hv, hfits, hleast⟩ := (selectVersion_eq_some_iff ..).1 hsel
      obtain ⟨h1, h10⟩ := (validVersion_iff v).1 hv
      exact ⟨v, h1, h10, (fits_iff ..).1 hfits, fun w hw hwv => (fits_eq_false_iff ..).1 (hleast w hw hwv),
        exec_of_ok .selectVersion hbody⟩
    · rw [(selectVersion_none_iff s.len).2 h] at hsel
      cases hsel

/-- Settles O43: a version below the least one does not fit, and what fits the longer payload fits the shorter. Below
version 1 there is no capacity at all. -/
theorem selectionMinimalAndMonotone : Obligations.SelectionMinimalAndMonotone := by
  unfold Obligations.SelectionMinimalAndMonotone
  intro L M v w hL hM
  obtain ⟨hv, hfits, hleast⟩ := (selectVersion_eq_some_iff ..).1 hL
  obtain ⟨hw, hfitsM, -⟩ := (selectVersion_eq_some_iff ..).1 hM
  obtain ⟨hv1, -⟩ := (validVersion_iff v).1 hv
  obtain ⟨hw1, -⟩ := (validVersion_iff w).1 hw
  refine ⟨?_, (fits_iff ..).1 hfits, fun hle => ?_⟩
  · obtain rfl | hlt := hv1.eq_or_lt
    · have h0 : ndata (1 - 1) = 0 := rfl
      omega
    · exact Nat.not_le.1 ((fits_eq_false_iff ..).1 (hleast (v - 1) (by omega) (by omega)))
  · by_contra hlt
    have hno := (fits_eq_false_iff ..).1 (hleast w hw1 (by omega))
    have hyes := (fits_iff ..).1 hfitsM
    omega

end Sys2Proof.Proofs
end

section
/-! PROOF. BP_PUT (O41): what a `put` leaves of every bit of DCW, and when a DCW byte is written. -/

namespace Sys2Proof.Proofs

open Sys2Proof.Machine Sys2Proof.Laws

theorem getElem?_bitsOf (nb val j : Nat) :
    (bitsOf nb val)[j]? = if j < nb then some (val.testBit (nb - 1 - j)) else none := by
  rw [bitsOf, List.getElem?_map]
  split
  · next h => rw [List.getElem?_range h]; rfl
  · next h => rw [List.getElem?_eq_none (by rw [List.length_range]; omega)]; rfl

/-- A `put` inside DCW sets the bits from BP_POS on, most significant first, and leaves every other as it was (R130). -/
theorem dcwBit_put {s : State} (h : DataInv s) (val nb : Nat) (hp : s.bpPos.toNat + nb ≤ 4096) (p : Nat) :
    (s.put val nb).dcwBit p =
      if s.bpPos.toNat ≤ p ∧ p < s.bpPos.toNat + nb then some (val.testBit (nb - 1 - (p - s.bpPos.toNat)))
      else s.dcwBit p := by
  have hput := dcwBit_putBits (bitsOf nb val) h (by rwa [bitsOf_length]) p
  rw [memRead_cellsAt, getElem?_bitsOf] at hput
  refine hput.trans ?_
  by_cases h1 : s.bpPos.toNat ≤ p
  · by_cases h2 : p < s.bpPos.toNat + nb
    · rw [if_pos h1, if_pos (by omega), if_pos ⟨h1, h2⟩, Option.some_or]
    · rw [if_pos h1, if_neg (by omega), if_neg (by omega), Option.none_or]
  · rw [if_neg h1, if_neg (by omega), Option.none_or]

/-- A DCW byte is written exactly when its eight bits are (R130). -/
theorem byteAt_isSome_iff_dcwBits {s : State} (h : DataInv s) (i : Nat) :
    (s.byteAt (dcwBase + i)).isSome ↔ ∀ q < 8, (s.dcwBit (8 * i + q)).isSome := by
  constructor
  · intro hbyte q hq
    obtain ⟨x, hx⟩ := Option.isSome_iff_exists.1 hbyte
    rw [dcwBit_of_written (x := x) (by rwa [show (8 * i + q) / 8 = i by omega])]
    rfl
  · intro hbits
    have hbyte := byteAt_of_dcwBits h (i := i) (bits := (List.range 8).map fun q => (s.dcwBit (8 * i + q)).getD false)
      (by simp) fun q hq => by
        obtain ⟨b, hb⟩ := Option.isSome_iff_exists.1 (hbits q hq)
        simp [hb, hq]
    rw [hbyte]
    rfl

/-- Settles O41, from what a `put` leaves of every bit (`dcwBit_put`) and the invariant it keeps. -/
theorem bpPutResult : Obligations.BpPutResult := by
  unfold Obligations.BpPutResult
  intro s hs
  dsimp only
  rcases bpPutBody_cases s with ⟨hnb, hbody⟩ | ⟨hnb, hover, hbody⟩ | ⟨hnb, hroom, hbody⟩
  · exact ⟨by omega, fun _ => exec_of_raise .bpPut hbody, by omega⟩
  · exact ⟨by omega, by omega, fun _ _ _ => exec_of_raise .bpPut hbody⟩
  · refine ⟨fun _ _ _ => ?_, by omega, by omega⟩
    have hinv : DataInv s := inv_dataInv hs
    have hput : DataInv (s.put s.bpVal s.bpNbits.toNat) := by
      have := commandBody_keeps_dataInv .bpPut hinv
      rwa [show commandBody .bpPut s = _ from hbody] at this
    obtain ⟨hpos, -, hframe⟩ := put_spec hs.memWf s.bpVal s.bpNbits.toNat hroom
    refine ⟨_, exec_of_ok .bpPut hbody, ?_, fun p _ => dcwBit_put hinv _ _ hroom p,
      fun i _ => byteAt_isSome_iff_dcwBits hput i, fun p hp => ?_,
      fun a ha => hframe a fun p h1 h2 hap => ha ⟨p, h1, h2, hap⟩⟩
    · rw [← hpos, BitVec.ofNat_toNat, BitVec.setWidth_eq]
      exact congrArg State.completeDone (put_onlyPut s _ _)
    · refine memRead_dcwBits_putBits _ hinv (by rwa [bitsOf_length]) fun q h1 h2 => ?_
      rw [bitsOf_length] at h2
      omega

end Sys2Proof.Proofs
end

section
/-! PROOF. ENCODE_STREAM (O44): the bits it puts are those of the closed form of R137. Behind the 4 bits of the mode
indicator every byte of the counted payload straddles two codewords, so a codeword joins the nibbles of two neighbours. -/

namespace Sys2Proof.Proofs

open Sys2Proof.Machine Sys2Proof.Laws

/-! ### Bit lists of numbers and bytes (R130) -/

/-- The bits of a number are those of its high part and then those of its low part. -/
theorem bitsOf_add (m n val : Nat) : bitsOf (m + n) val = bitsOf m (val / 2 ^ n) ++ bitsOf n val := by
  simp only [bitsOf, List.range_add, List.map_append, List.map_map]
  congr 1
  · refine List.map_congr_left fun i hi => ?_
    rw [List.mem_range] at hi
    rw [Nat.testBit_div_two_pow, show m - 1 - i + n = m + n - 1 - i by omega]
  · refine List.map_congr_left fun i _ => ?_
    rw [Function.comp_apply, show m + n - 1 - (m + i) = n - 1 - i by omega]

theorem bitsOf_mod (nb val : Nat) : bitsOf nb (val % 2 ^ nb) = bitsOf nb val := by
  refine List.map_congr_left fun i hi => ?_
  rw [List.mem_range] at hi
  simp [Nat.testBit_mod_two_pow, show nb - 1 - i < nb by omega]

theorem streamBits_cons (b : Byte) (bytes : List Byte) : streamBits (b :: bytes) = bitsOf 8 b.toNat ++ streamBits bytes :=
  List.flatMap_cons

theorem streamBits_append (xs ys : List Byte) : streamBits (xs ++ ys) = streamBits xs ++ streamBits ys :=
  List.flatMap_append

theorem byteOfBits_bitsOf (b : Byte) : byteOfBits (bitsOf 8 b.toNat) = b := by
  refine BitVec.eq_of_getLsbD_eq fun k hk => ?_
  have h := getLsbD_byteOfBits (bitsOf_length 8 b.toNat) (j := 7 - k) (by omega)
  rw [getElem?_bitsOf, if_pos (by omega), show 7 - (7 - k) = k by omega] at h
  exact Option.some.inj h

/-- Eight bits from bit `8k` on are those of byte `k`. -/
theorem byteOfBits_streamBits {bytes : List Byte} {k : Nat} (hk : k < bytes.length) :
    byteOfBits (((streamBits bytes).drop (8 * k)).take 8) = bytes[k] := by
  induction bytes generalizing k with
  | nil => simp at hk
  | cons b bytes ih =>
    rw [streamBits_cons]
    cases k with
    | zero => rw [Nat.mul_zero, List.drop_zero, List.take_left' (bitsOf_length ..), byteOfBits_bitsOf]; rfl
    | succ k =>
      rw [Nat.mul_succ, Nat.add_comm, ← List.drop_drop, List.drop_left' (bitsOf_length ..), List.getElem_cons_succ, ih]

/-! ### The codewords that straddle two bytes -/

/-- The low nibble of `x`, then the high nibble of `y`. -/
def joinNibbles (x y : Byte) : Byte := ((x &&& 0x0F) <<< 4) ||| (y >>> 4)

theorem joinNibbles_toNat (x y : Byte) : (joinNibbles x y).toNat = 16 * (x.toNat % 16) + y.toNat / 16 := by
  have hx : ((x &&& 0x0F) <<< 4).toNat = 2 ^ 4 * (x.toNat % 16) := by
    have hand : (x &&& 0x0F).toNat = x.toNat % 16 := Nat.and_two_pow_sub_one_eq_mod x.toNat 4
    rw [BitVec.toNat_shiftLeft, hand, Nat.shiftLeft_eq]
    omega
  have hy : (y >>> 4).toNat = y.toNat / 16 := by rw [BitVec.toNat_ushiftRight, Nat.shiftRight_eq_div_pow]
  rw [joinNibbles, BitVec.toNat_or, hx, hy, ← Nat.two_pow_add_eq_or_of_lt (by omega)]

theorem bitsOf_joinNibbles (x y : Byte) :
    bitsOf 8 (joinNibbles x y).toNat = bitsOf 4 x.toNat ++ bitsOf 4 (y.toNat / 16) := by
  rw [bitsOf_add 4 4, joinNibbles_toNat, ← bitsOf_mod 4 (16 * _ + _), ← bitsOf_mod 4 x.toNat]
  congr 2 <;> omega

/-- Bytes between two nibbles are the bytes that join each low nibble to the next high one. -/
theorem streamBits_zipWith_joinNibbles (x : Byte) (S : List Byte) :
    streamBits (List.zipWith joinNibbles (x :: S) (S ++ [0])) = bitsOf 4 x.toNat ++ streamBits S ++ bitsOf 4 0 := by
  induction S generalizing x with
  | nil => exact (List.append_nil _).trans (bitsOf_joinNibbles x 0)
  | cons b S ih =>
    rw [List.cons_append, List.zipWith_cons_cons, streamBits_cons, ih, bitsOf_joinNibbles, streamBits_cons,
      bitsOf_add 4 4 b.toNat]
    simp only [List.append_assoc]
    rfl

/-! ### The stream against the closed form (R137) -/

theorem countedPayload_bits (v : Nat) (payload : List Byte) :
    streamBits (countedPayload v payload) = bitsOf (cci v) payload.length ++ streamBits payload := by
  have hlo : bitsOf 8 (loByte payload.length).toNat = bitsOf 8 payload.length := bitsOf_mod 8 _
  have hhi : bitsOf 8 (hiByte payload.length).toNat = bitsOf 8 (payload.length / 2 ^ 8) := bitsOf_mod 8 _
  unfold countedPayload cci
  split
  · rw [streamBits_cons, hlo]
  · rw [streamBits_cons, streamBits_cons, hlo, hhi, bitsOf_add 8 8, List.append_assoc]

theorem countedPayload_length (v : Nat) (payload : List Byte) :
    (countedPayload v payload).length = cci v / 8 + payload.length := by
  unfold countedPayload cci
  split <;> simp only [List.length_cons] <;> omega

/-- The closed form up to the terminator: codeword `k` joins counted byte `k − 1`, or the mode indicator, to byte `k`. -/
theorem encodedByte_eq_joinNibbles {S : List Byte} {k : Nat} (hk : k ≤ S.length) :
    encodedByte S k = joinNibbles ((0x04 :: S).getD k 0) (S.getD k 0) := by
  unfold encodedByte joinNibbles
  dsimp only
  cases k with
  | zero =>
    have hmode : ((0x40 : Nat) : Byte) = (0x04 &&& 0x0F) <<< 4 := by decide
    rw [if_pos rfl, hmode]
    rfl
  | succ k =>
    obtain hlt | heq := hk.lt_or_eq
    · rw [if_neg (Nat.succ_ne_zero k), if_pos hlt]
      rfl
    · rw [if_neg (Nat.succ_ne_zero k), if_neg (by omega), if_pos heq, ← heq,
        List.getD_eq_default S _ heq.ge]
      exact (BitVec.or_zero ..).symm

theorem encodedByte_pad (S : List Byte) (i : Nat) :
    (encodedByte S (S.length + 1 + i)).toNat = padByte i := by
  unfold encodedByte padByte
  dsimp only
  rw [if_neg (by omega), if_neg (by omega), if_neg (by omega), show S.length + 1 + i - S.length - 1 = i by omega]
  split <;> rfl

/-- The data codewords of the closed form (R137). -/
def closedForm (v : Nat) (payload : List Byte) : List Byte :=
  (List.range (ndata v)).map (encodedByte (countedPayload v payload))

/-- The codewords up to the terminator are the joined nibbles of the counted payload. -/
theorem map_encodedByte_eq_zipWith (S : List Byte) :
    (List.range (S.length + 1)).map (encodedByte S) = List.zipWith joinNibbles (0x04 :: S) (S ++ [0]) := by
  refine List.ext_getElem (by simp) fun k h1 h2 => ?_
  have hk : k ≤ S.length := by simpa [Nat.lt_succ_iff] using h1
  rw [List.getElem_map, List.getElem_range, encodedByte_eq_joinNibbles hk, List.getElem_zipWith,
    List.getD_eq_getElem _ _ (by simpa [Nat.lt_succ_iff] using hk)]
  congr 1
  obtain hlt | rfl := hk.lt_or_eq
  · rw [List.getD_eq_getElem _ _ hlt, List.getElem_append_left hlt]
  · simp

/-- The bits ENCODE_STREAM puts are those of the closed form (R137). -/
theorem streamOf_eq_closedForm {v : Nat} {payload : List Byte} (hf : fits v payload.length = true) :
    streamOf v payload = streamBits (closedForm v payload) := by
  have hfit := (fits_iff ..).1 hf
  have hlen := countedPayload_length v payload
  have hbits := countedPayload_bits v payload
  rw [closedForm]
  generalize countedPayload v payload = S at hlen hbits ⊢
  have hc := cci_cases v
  obtain ⟨n, hn⟩ := Nat.exists_eq_add_of_le (show S.length + 1 ≤ ndata v by omega)
  have hpads : (List.range' 0 n).flatMap (fun i => bitsOf 8 (padByte i)) =
      streamBits (((List.range n).map (S.length + 1 + ·)).map (encodedByte S)) := by
    simp only [streamBits, List.map_map, List.flatMap_map, Function.comp_apply, encodedByte_pad, List.range_eq_range']
  rw [hn, List.range_add, List.map_append, streamBits_append, map_encodedByte_eq_zipWith,
    streamBits_zipWith_joinNibbles, hbits, ← hpads, streamOf,
    show ndata v - (1 + cci v / 8 + payload.length) = n by omega]
  simp only [List.append_assoc]
  rfl

/-- The image ENCODE_STREAM leaves of DCW is the closed form (R137). -/
theorem encodedImage_eq_encodedByte {v : Nat} {payload : List Byte} (hf : fits v payload.length = true) {k : Nat}
    (hk : k < ndata v) :
    encodedImage v payload (dcwBase + k) = encodedByte (countedPayload v payload) k := by
  rw [encodedImage, Nat.add_sub_cancel_left, streamOf_eq_closedForm hf, byteOfBits_streamBits (by simpa [closedForm])]
  simp [closedForm]

/-- Settles O44: the image ENCODE_STREAM leaves (`encodeStreamBody_image`) is the closed form, and the two checks come
in the order of its body. -/
theorem encodeStreamResult : Obligations.EncodeStreamResult := by
  unfold Obligations.EncodeStreamResult
  refine fun s hs => ⟨fun P h1 h10 hlen hP hold => ?_, fun hver => ?_, fun h1 h10 hlen => ?_⟩
  · have hv := (validVersion_iff s.ver).2 ⟨h1, h10⟩
    have hf : fits s.ver P.length = true := (fits_iff_le_maxLen hv _).2 (by omega)
    obtain ⟨t, ht, hfields, -, hknown, hframe, hbits⟩ :=
      encodeStreamBody_image hv hf (inv_dataInv hs) rfl hP.symm hold
    refine ⟨_, exec_of_ok .encodeStream ht, congrArg State.completeDone hfields, fun k hk => ?_, hbits, hframe⟩
    rw [← encodedImage_eq_encodedByte hf hk]
    exact hknown _ ⟨Nat.le_add_right .., Nat.add_lt_add_left hk _⟩
  · have hv : validVersion s.ver = false := by
      rw [Bool.eq_false_iff, Ne, validVersion_iff]
      omega
    have hbody : encodeStreamBody s = raise .badVersion s := withVersion_invalid hv _
    exact exec_of_raise .encodeStream hbody
  · have hv := (validVersion_iff s.ver).2 ⟨h1, h10⟩
    have hf : ¬ fits s.ver s.len = true := by
      rw [fits_iff_le_maxLen hv]
      omega
    have hbody : encodeStreamBody s = raise .capacity s := (withVersion_valid hv _).trans (if_neg hf)
    exact exec_of_raise .encodeStream hbody

end Sys2Proof.Proofs
end

section
/-! SUPPORT. The arithmetic of GF(256): by the tables of R150 and R151 every nonzero byte is an `EXP[i]`, a power of `x`, so
products add exponents, and the table product is the carry-less product of R155. From these the laws of the field. -/

namespace Sys2Proof.Proofs

open Sys2Proof.Machine Sys2Proof.Laws

/-! ### The tables EXP and LOG (R150, R151) -/

/-- Every entry of EXP doubles the one before it. -/
theorem expAt_succ : ∀ i < 255, expAt (i + 1) = carrylessMul.xtime (expAt i) := by decide +kernel

theorem logAt_expAt : ∀ i < 256, logAt (expAt i) = i % 255 := by decide +kernel

theorem expAt_ne_zero : ∀ i < 256, expAt i ≠ 0x00 := by decide +kernel

/-- LOG names an exponent of every nonzero byte. -/
theorem logAt_spec : ∀ a : Byte, a ≠ 0x00 → logAt a < 255 ∧ expAt (logAt a) = a := by decide +kernel

/-- Reducing an exponent by 255 on the way to the next entry changes nothing, because `EXP[255] = EXP[0]`. -/
theorem expAt_succ_mod (n : Nat) : expAt ((n + 1) % 255) = carrylessMul.xtime (expAt (n % 255)) := by
  rw [← expAt_succ (n % 255) (Nat.mod_lt n (by decide))]
  obtain hlt | heq : n % 255 < 254 ∨ n % 255 = 254 := by omega
  · rw [show (n + 1) % 255 = n % 255 + 1 by omega]
  · rw [heq, show (n + 1) % 255 = 0 by omega]
    rfl

/-! ### Addition (R152) -/

theorem gfadd_zero (a : Byte) : gfadd a 0x00 = a := BitVec.xor_zero ..

theorem zero_gfadd (a : Byte) : gfadd 0x00 a = a := BitVec.zero_xor ..

/-! ### The table product in exponents (R153) -/

theorem gfmul_zero (a : Byte) : gfmul a 0x00 = 0x00 := if_pos (.inr rfl)

theorem zero_gfmul (a : Byte) : gfmul 0x00 a = 0x00 := if_pos (.inl rfl)

theorem gfmul_comm (a b : Byte) : gfmul a b = gfmul b a := by
  simp only [gfmul, Nat.add_comm (logAt a), or_comm (a := a = 0)]

theorem gfmul_expAt {i j : Nat} (hi : i < 256) (hj : j < 256) : gfmul (expAt i) (expAt j) = expAt ((i + j) % 255) := by
  rw [gfmul, if_neg (not_or.2 ⟨expAt_ne_zero i hi, expAt_ne_zero j hj⟩), logAt_expAt i hi, logAt_expAt j hj,
    ← Nat.add_mod]

/-- Every byte is zero or a power of `x`. -/
theorem eq_zero_or_expAt (a : Byte) : a = 0x00 ∨ ∃ i < 255, a = expAt i := by
  by_cases ha : a = 0x00
  · exact .inl ha
  · obtain ⟨hlt, hexp⟩ := logAt_spec a ha
    exact .inr ⟨logAt a, hlt, hexp.symm⟩

theorem gfmul_one (a : Byte) : gfmul a 0x01 = a := by
  obtain rfl | ⟨i, hi, rfl⟩ := eq_zero_or_expAt a
  · exact zero_gfmul _
  · have hmul := gfmul_expAt (i := i) (j := 0) (by omega) (by omega)
    rwa [Nat.add_zero, Nat.mod_eq_of_lt (by omega)] at hmul

theorem one_gfmul (a : Byte) : gfmul 0x01 a = a := by rw [gfmul_comm, gfmul_one]

theorem gfmul_assoc (a b c : Byte) : gfmul (gfmul a b) c = gfmul a (gfmul b c) := by
  obtain rfl | ⟨i, hi, rfl⟩ := eq_zero_or_expAt a
  · simp only [zero_gfmul]
  obtain rfl | ⟨j, hj, rfl⟩ := eq_zero_or_expAt b
  · simp only [zero_gfmul, gfmul_zero]
  obtain rfl | ⟨k, hk, rfl⟩ := eq_zero_or_expAt c
  · simp only [gfmul_zero]
  rw [gfmul_expAt (by omega) (by omega), gfmul_expAt (by omega) (by omega), gfmul_expAt (by omega) (by omega),
    gfmul_expAt (by omega) (by omega), Nat.mod_add_mod, Nat.add_mod_mod, Nat.add_assoc]

/-- The exponents `i` and `255 − i` add up to a whole turn (R154). -/
theorem gfmul_gfinv {a : Byte} (ha : a ≠ 0x00) : gfmul a (gfinv a) = 0x01 := by
  obtain ⟨hlt, hexp⟩ := logAt_spec a ha
  have hmul := gfmul_expAt (i := logAt a) (j := 255 - logAt a) (by omega) (by omega)
  rwa [hexp, Nat.add_sub_cancel' (by omega), Nat.mod_self] at hmul

/-! ### The carry-less product (R155) -/

/-- Multiplying by `x` reduces exactly when bit 7 was set. -/
theorem xtime_eq (t : Byte) : carrylessMul.xtime t = (t <<< 1) ^^^ (if t.getLsbD 7 then 0x1D else 0x00) := by
  unfold carrylessMul.xtime
  split
  · rfl
  · exact (BitVec.xor_zero ..).symm

/-- A multiple by one bit is additive in the bit. -/
theorem ite_getLsbD_xor (s t a : Byte) (i : Nat) : (if (s ^^^ t).getLsbD i then a else 0x00) =
    (if s.getLsbD i then a else 0x00) ^^^ (if t.getLsbD i then a else 0x00) := by
  rw [BitVec.getLsbD_xor]
  cases s.getLsbD i <;> cases t.getLsbD i <;> simp

theorem xtime_xor (s t : Byte) : carrylessMul.xtime (s ^^^ t) = carrylessMul.xtime s ^^^ carrylessMul.xtime t := by
  rw [xtime_eq, xtime_eq, xtime_eq, ite_getLsbD_xor, BitVec.shiftLeft_xor_distrib]
  ac_rfl

/-- One step of the carry-less product: make room, then add `a` when the bit of `b` is set. -/
def mulStep (a b acc : Byte) (i : Nat) : Byte :=
  carrylessMul.xtime acc ^^^ (if b.getLsbD (7 - i) then a else 0x00)

theorem carrylessMul_eq_foldl (a b : Byte) : carrylessMul a b = (List.range 8).foldl (mulStep a b) 0x00 := by
  unfold carrylessMul
  congr 1
  funext acc i
  unfold mulStep
  split
  · rfl
  · exact (BitVec.xor_zero ..).symm

theorem mulStep_xtime (a b acc : Byte) (i : Nat) :
    mulStep (carrylessMul.xtime a) b (carrylessMul.xtime acc) i = carrylessMul.xtime (mulStep a b acc i) := by
  unfold mulStep
  rw [xtime_xor]
  split <;> rfl

theorem mulStep_xor (a b c x y : Byte) (i : Nat) :
    mulStep a b x i ^^^ mulStep a c y i = mulStep a (b ^^^ c) (x ^^^ y) i := by
  rw [mulStep, mulStep, mulStep, ite_getLsbD_xor, xtime_xor]
  ac_rfl

theorem carrylessMul_xtime (a b : Byte) :
    carrylessMul (carrylessMul.xtime a) b = carrylessMul.xtime (carrylessMul a b) := by
  rw [carrylessMul_eq_foldl, carrylessMul_eq_foldl, ← List.foldl_hom carrylessMul.xtime (mulStep_xtime a b)]
  rfl

theorem carrylessMul_xor (a b c : Byte) : carrylessMul a (b ^^^ c) = carrylessMul a b ^^^ carrylessMul a c := by
  simp only [carrylessMul_eq_foldl]
  exact List.foldl_hom₂ _ (· ^^^ ·) (mulStep a b) (mulStep a c) _ 0x00 0x00 fun x y i => mulStep_xor a b c x y i

theorem carrylessMul_zero (b : Byte) : carrylessMul 0x00 b = 0x00 := by
  rw [carrylessMul_eq_foldl]
  refine List.foldl_fixed' (fun i => ?_) _
  unfold mulStep
  split <;> rfl

/-- Multiplying 1 puts the bits of `b` back where they were. -/
theorem carrylessMul_one : ∀ b : Byte, carrylessMul 0x01 b = b := by decide +kernel

theorem gfmul_expAt_succ {i : Nat} (hi : i < 255) (b : Byte) :
    gfmul (expAt (i + 1)) b = carrylessMul.xtime (gfmul (expAt i) b) := by
  obtain rfl | ⟨j, hj, rfl⟩ := eq_zero_or_expAt b
  · simp only [gfmul_zero]
    rfl
  · rw [gfmul_expAt (by omega) (by omega), gfmul_expAt (by omega) (by omega), ← expAt_succ_mod, Nat.add_right_comm]

/-- Both products agree at `EXP[0] = 1`, and both double when `EXP[i]` does. -/
theorem gfmul_expAt_eq_carrylessMul {i : Nat} (hi : i < 256) (b : Byte) :
    gfmul (expAt i) b = carrylessMul (expAt i) b := by
  induction i with
  | zero => exact (one_gfmul b).trans (carrylessMul_one b).symm
  | succ i ih => rw [gfmul_expAt_succ (by omega), ih (by omega), expAt_succ i (by omega), carrylessMul_xtime]

theorem gfmul_eq_carrylessMul (a b : Byte) : gfmul a b = carrylessMul a b := by
  obtain rfl | ⟨i, hi, rfl⟩ := eq_zero_or_expAt a
  · rw [zero_gfmul, carrylessMul_zero]
  · exact gfmul_expAt_eq_carrylessMul (by omega) b

theorem gfmul_xor (a b c : Byte) : gfmul a (b ^^^ c) = gfmul a b ^^^ gfmul a c := by
  simp only [gfmul_eq_carrylessMul, carrylessMul_xor]

theorem xor_gfmul (a b c : Byte) : gfmul (a ^^^ b) c = gfmul a c ^^^ gfmul b c := by
  rw [gfmul_comm, gfmul_xor, gfmul_comm c a, gfmul_comm c b]

end Sys2Proof.Proofs
end

section
/-! PROOF. The commands of GF(256) and the polynomial evaluator: O24 to O31. -/

namespace Sys2Proof.Proofs

open Sys2Proof.Machine Sys2Proof.Laws

/-! ### The arithmetic commands (R155-R160) -/

/-- Settles O26: the product adds exponents, and is linear because it is the carry-less product. -/
theorem gfArithmeticLaws : Obligations.GfArithmeticLaws := by
  unfold Obligations.GfArithmeticLaws
  exact fun a b c => ⟨gfmul_comm a b, gfmul_assoc a b c, gfmul_xor a b c, gfmul_one a, gfmul_zero a, gfmul_gfinv,
    gfmul_eq_carrylessMul a b⟩

/-- Settles O24: the body of GF_ADD is the one assignment. -/
theorem gfAddResult : Obligations.GfAddResult := by
  unfold Obligations.GfAddResult
  exact fun s => exec_of_ok .gfAdd (u := s.setRes (gfadd s.opa s.opb)) rfl

/-- Settles O25: the body of GF_MUL is the one assignment. -/
theorem gfMulResult : Obligations.GfMulResult := by
  unfold Obligations.GfMulResult
  exact fun s => exec_of_ok .gfMul (u := s.setRes (gfmul s.opa s.opb)) rfl

/-- Settles O27, from the two ends of its body and the product with the inverse (`gfmul_gfinv`). -/
theorem gfInvResult : Obligations.GfInvResult := by
  unfold Obligations.GfInvResult
  intro s
  rcases gfInvBody_cases s with ⟨hopa, hbody⟩ | ⟨hopa, hbody⟩
  · exact ⟨fun h => absurd hopa h, fun _ => exec_of_raise .gfInv hbody⟩
  · exact ⟨fun _ => ⟨gfinv s.opa, gfmul_gfinv hopa, rfl, exec_of_ok .gfInv hbody⟩, fun h => absurd h hopa⟩

/-- Settles O28: EXP doubles from entry to entry (`expAt_succ`), and the body of GF_EXP is one look-up in it. -/
theorem gfExpResult : Obligations.GfExpResult := by
  unfold Obligations.GfExpResult
  exact ⟨⟨rfl, expAt_succ⟩, fun s => exec_of_ok .gfExp (u := s.setRes (expAt s.opa.toNat)) rfl⟩

/-- Settles O29, from the two ends of its body: LOG names an exponent (`logAt_spec`), and every
exponent below 255 is the LOG of its entry (`logAt_expAt`). -/
theorem gfLogResult : Obligations.GfLogResult := by
  unfold Obligations.GfLogResult
  intro s
  rcases gfLogBody_cases s with ⟨hopa, hbody⟩ | ⟨hopa, hbody⟩
  · exact ⟨fun h => absurd hopa h, fun _ => exec_of_raise .gfLog hbody⟩
  · obtain ⟨hlt, hexp⟩ := logAt_spec s.opa hopa
    have hlog : (BitVec.ofNat 8 (logAt s.opa)).toNat = logAt s.opa := by
      rw [BitVec.toNat_ofNat]
      omega
    refine ⟨fun _ => ⟨BitVec.ofNat 8 (logAt s.opa), by rw [hlog]; omega, by rwa [hlog], fun i hi hi' => ?_,
      exec_of_ok .gfLog hbody⟩, fun h => absurd h hopa⟩
    rw [hlog, ← hi', logAt_expAt i (by omega), Nat.mod_eq_of_lt (by omega)]

/-! ### The polynomial evaluator (R161, R162) -/

/-- Settles O30: the bytes POLY_EVAL loads are the coefficients. -/
theorem polyEvalResult : Obligations.PolyEvalResult := by
  unfold Obligations.PolyEvalResult
  refine fun s hm => ⟨fun p hlen hplen hold => ?_, fun hplen => ?_⟩
  · have hpos : s.plen.toNat ≠ 0 := fun h => hplen (BitVec.eq_of_toNat_eq h)
    have hbody : polyEvalBody s = .ok (s.setRes (polyeval p s.opa)) := by
      rw [polyEvalBody, withPoly_pos hpos, ← hlen]
      exact load_of_reads hm (addrsRise_addrRange polyBase p.length) (reads_of_holds hold) _
    exact exec_of_ok .polyEval hbody
  · have hbody : polyEvalBody s = raise .badLen s := withPoly_zero (congrArg BitVec.toNat hplen) _
    exact exec_of_raise .polyEval hbody

/-- Horner's rule from `acc` on: `acc` is the coefficient above the list. -/
theorem horner_eq_powerSum (p : List Byte) (x acc : Byte) :
    p.foldl (fun acc c => gfadd (gfmul acc x) c) acc = powerSum x (acc :: p) := by
  induction p generalizing acc with
  | nil => exact ((gfadd_zero _).trans (gfmul_one acc)).symm
  | cons c p ih =>
    rw [List.foldl_cons, ih]
    simp only [powerSum, gfadd, List.length_cons, gfpow, xor_gfmul, gfmul_assoc, BitVec.xor_assoc]
    rw [gfmul_comm x]

/-- A leading zero coefficient adds nothing (R161). -/
theorem powerSum_zero_cons (x : Byte) (p : List Byte) : powerSum x (0x00 :: p) = powerSum x p := by
  rw [powerSum, zero_gfmul, zero_gfadd]

theorem polyeval_eq_powerSum (p : List Byte) (x : Byte) : polyeval p x = powerSum x p := by
  rw [polyeval, horner_eq_powerSum, powerSum_zero_cons]

theorem foldl_replace (p : List Byte) (acc : Byte) : p.foldl (fun _ c => c) acc = p.getLastD acc := by
  induction p generalizing acc with
  | nil => rfl
  | cons c p ih => exact (ih c).trans (List.getLastD_cons ..).symm

theorem polyeval_at_zero (p : List Byte) : polyeval p 0x00 = p.getLastD 0x00 := by
  simp only [polyeval, gfmul_zero, zero_gfadd, foldl_replace]

theorem polyeval_at_one (p : List Byte) : polyeval p 0x01 = p.foldl (fun acc c => acc ^^^ c) 0x00 := by
  simp only [polyeval, gfmul_one, gfadd]

/-- Settles O31: Horner's rule by induction on the coefficients; at 0 each coefficient replaces the sum so far, at 1 it is
added to it. -/
theorem hornerIsThePowerSum : Obligations.HornerIsThePowerSum := by
  unfold Obligations.HornerIsThePowerSum
  exact fun p x => ⟨polyeval_eq_powerSum p x, polyeval_at_zero p, polyeval_at_one p⟩

end Sys2Proof.Proofs
end

section
/-! PROOF. Polynomials over GF(256) (R12): how evaluation meets appending, adding and scaling of coefficient lists. From it
the roots and ends of the generator polynomial (O33), the remainder as a multiple of the data block at every root, which
makes every codeword valid (O35), and the linearity of the remainder. -/

namespace Sys2Proof.Proofs

open Sys2Proof.Machine Sys2Proof.Laws

/-! ### Evaluation -/

theorem gfadd_self (a : Byte) : gfadd a a = 0x00 := BitVec.xor_self

theorem gfadd_gfmul (a b c : Byte) : gfmul (gfadd a b) c = gfadd (gfmul a c) (gfmul b c) := xor_gfmul a b c

theorem gfmul_right_comm (a b c : Byte) : gfmul (gfmul a b) c = gfmul (gfmul a c) b := by
  rw [gfmul_assoc, gfmul_comm b, gfmul_assoc]

theorem polyeval_cons (c : Byte) (p : List Byte) (x : Byte) :
    polyeval (c :: p) x = gfadd (gfmul c (gfpow x p.length)) (polyeval p x) := by
  rw [polyeval_eq_powerSum, polyeval_eq_powerSum, powerSum]

/-- Horner's rule goes on after `p` with the value of `p` as its leading coefficient. -/
theorem polyeval_append (p q : List Byte) (x : Byte) :
    polyeval (p ++ q) x = gfadd (gfmul (polyeval p x) (gfpow x q.length)) (polyeval q x) := by
  rw [← polyeval_cons, polyeval_eq_powerSum (_ :: q), ← horner_eq_powerSum, polyeval, polyeval, List.foldl_append]

theorem polyeval_concat (p : List Byte) (c x : Byte) : polyeval (p ++ [c]) x = gfadd (gfmul (polyeval p x) x) c := by
  rw [polyeval, List.foldl_append]
  rfl

theorem polyeval_replicate_zero (n : Nat) (x : Byte) : polyeval (List.replicate n 0x00) x = 0x00 := by
  induction n with
  | zero => rfl
  | succ n ih => rw [List.replicate_succ, polyeval_cons, zero_gfmul, zero_gfadd, ih]

theorem polyeval_polyAdd {p q : List Byte} (h : p.length = q.length) (x : Byte) :
    polyeval (polyAdd p q) x = gfadd (polyeval p x) (polyeval q x) := by
  induction p generalizing q with
  | nil => rw [List.length_eq_zero_iff.1 h.symm]; exact (zero_gfadd _).symm
  | cons a p ih =>
    obtain ⟨b, q, rfl⟩ := List.exists_cons_of_length_eq_add_one h.symm
    have hl : p.length = q.length := Nat.succ.inj h
    have hcons : polyAdd (a :: p) (b :: q) = gfadd a b :: polyAdd p q := rfl
    rw [hcons, polyeval_cons, polyeval_cons, polyeval_cons, ih hl, polyAdd_length, ← hl, Nat.min_self, gfadd_gfmul]
    simp only [gfadd]
    ac_rfl

theorem polyeval_polyScale (p : List Byte) (f x : Byte) : polyeval (polyScale p f) x = gfmul (polyeval p x) f := by
  induction p with
  | nil => exact (zero_gfmul f).symm
  | cons c p ih =>
    have hcons : polyScale (c :: p) f = gfmul c f :: polyScale p f := rfl
    rw [hcons, polyeval_cons, polyeval_cons, ih, polyScale_length, gfadd_gfmul, gfmul_right_comm]

/-! ### The generator polynomial (R180) -/

theorem polyeval_mulRoot (g : List Byte) (e x : Byte) : polyeval (mulRoot g e) x = gfmul (polyeval g x) (gfadd x e) := by
  rw [mulRoot, polyeval_polyAdd (by simp [polyScale_length]), polyeval_concat, polyeval_cons, polyeval_polyScale, zero_gfmul,
    zero_gfadd, gfadd_zero, gfmul_comm _ (gfadd x e), gfadd_gfmul, gfmul_comm x, gfmul_comm e]

/-- Every `α^i` with `i` below the degree is a root: the factor `x + α^i` is 0 there. -/
theorem polyeval_genpoly_expAt {i k : Nat} (h : i < k) : polyeval (genpoly k) (expAt i) = 0x00 := by
  induction k with
  | zero => omega
  | succ k ih =>
    rw [genpoly_succ, polyeval_mulRoot]
    obtain hlt | rfl := Nat.lt_succ_iff_lt_or_eq.1 h
    · rw [ih hlt, zero_gfmul]
    · rw [gfadd_self, gfmul_zero]

/-- The generator polynomial is monic. -/
theorem genpoly_eq_cons (k : Nat) : genpoly k = 0x01 :: (genpoly k).tail := by
  induction k with
  | zero => rfl
  | succ k ih => rw [genpoly_succ, ih]; rfl

/-- The value at 0 is the product of the roots, whose exponents add up. -/
theorem polyeval_genpoly_zero {k : Nat} (h : k ≤ 256) : polyeval (genpoly k) 0x00 = expAt (k * (k - 1) / 2 % 255) := by
  induction k with
  | zero => rfl
  | succ k ih =>
    rw [genpoly_succ, polyeval_mulRoot, zero_gfadd, ih (by omega), gfmul_expAt (by omega) (by omega), Nat.mod_add_mod,
      Nat.triangle_succ]

/-- Settles O33: multiplying by `x + α^i` keeps the leading coefficient and the roots and adds one of each; the last
coefficient is the value at 0. -/
theorem genpolyRootsAndEnds : Obligations.GenpolyRootsAndEnds := by
  unfold Obligations.GenpolyRootsAndEnds
  intro k _ hk
  refine ⟨genpoly_length k, by rw [genpoly_eq_cons]; rfl, ?_, expAt_ne_zero _ (by omega), fun i => polyeval_genpoly_expAt⟩
  rw [← polyeval_genpoly_zero (by omega), polyeval_at_zero, genpoly_eq_cons, List.getLast?_cons, List.getLastD_cons,
    List.getLastD_eq_getLast?]

/-! ### The remainder (R181, R187) -/

/-- At a root of the generator, one step of the division register multiplies by `x` and adds the new byte at `x^k`. -/
theorem polyeval_rsStep {k : Nat} {x : Byte} (hx : polyeval (genpoly k) x = 0x00) {r : List Byte} (hr : r.length = k)
    (hk : 1 ≤ k) (d : Byte) :
    polyeval (rsStep (genpoly k) r d) x = gfadd (gfmul (polyeval r x) x) (gfmul d (gfpow x k)) := by
  have htail : (genpoly k).tail.length = k := by rw [List.length_tail, genpoly_length, Nat.add_sub_cancel]
  have hlow : polyeval (genpoly k).tail x = gfpow x k := by
    rw [genpoly_eq_cons, polyeval_cons, one_gfmul, htail] at hx
    exact (BitVec.xor_eq_zero_iff.1 hx).symm
  obtain ⟨c, r, rfl⟩ := List.exists_cons_of_length_pos (hr ▸ hk)
  have hstep : rsStep (genpoly k) (c :: r) d = polyAdd (r ++ [0x00]) (polyScale (genpoly k).tail (gfadd d c)) := rfl
  have hpow : gfpow x k = gfmul (gfpow x r.length) x := by rw [← hr]; rfl
  rw [hstep, polyeval_polyAdd (by rw [polyScale_length, htail, ← hr]; simp), polyeval_concat, polyeval_polyScale, hlow,
    polyeval_cons, gfadd_zero, gfadd_gfmul, gfmul_comm _ (gfadd d c), gfadd_gfmul, gfmul_assoc c, ← hpow]
  simp only [gfadd]
  ac_rfl

theorem rsrem_concat (d : List Byte) (c : Byte) (k : Nat) : rsrem (d ++ [c]) k = rsStep (genpoly k) (rsrem d k) c := by
  rw [rsrem, List.foldl_append]
  rfl

/-- At a root of the generator the remainder has the value of the data block shifted up by its degree. -/
theorem polyeval_rsrem {k : Nat} {x : Byte} (hx : polyeval (genpoly k) x = 0x00) (hk : 1 ≤ k) (d : List Byte) :
    polyeval (rsrem d k) x = gfmul (polyeval d x) (gfpow x k) := by
  induction d using List.reverseRecOn with
  | nil => exact (polyeval_replicate_zero k x).trans (zero_gfmul _).symm
  | append_singleton d c ih =>
    rw [rsrem_concat, polyeval_rsStep hx (rsrem_length d hk) hk, ih, polyeval_concat, gfadd_gfmul, gfmul_right_comm]

/-- Settles O35: at a root the data block shifted up and the remainder have one value, and add up to 0. -/
theorem reedSolomonValidity : Obligations.ReedSolomonValidity := by
  unfold Obligations.ReedSolomonValidity
  intro d k hk i hi
  rw [polyeval_append, rsrem_length d hk, polyeval_rsrem (polyeval_genpoly_expAt hi) hk, gfadd_self]

/-! ### Linearity (R184) -/

theorem polyAdd_polyAdd_comm (a b c d : List Byte) :
    polyAdd (polyAdd a b) (polyAdd c d) = polyAdd (polyAdd a c) (polyAdd b d) := by
  refine List.ext_getElem (by simp only [polyAdd_length]; omega) fun i _ _ => ?_
  simp only [polyAdd, List.getElem_zipWith, gfadd]
  ac_rfl

theorem polyScale_gfadd (p : List Byte) (f f' : Byte) : polyScale p (gfadd f f') = polyAdd (polyScale p f) (polyScale p f') := by
  simp only [polyScale, polyAdd, List.zipWith_map, List.zipWith_self, gfadd, gfmul_xor]

theorem rsStep_length_eq (g : List Byte) {r s : List Byte} (h : r.length = s.length) (c d : Byte) :
    (rsStep g r c).length = (rsStep g s d).length := by
  simp only [rsStep, polyAdd_length, polyScale_length, List.length_append, List.length_tail, h]

theorem rsStep_polyAdd (g : List Byte) {r s : List Byte} (h : r.length = s.length) (c d : Byte) :
    rsStep g (polyAdd r s) (gfadd c d) = polyAdd (rsStep g r c) (rsStep g s d) := by
  have hshift : (polyAdd r s).tail ++ [0x00] = polyAdd (r.tail ++ [0x00]) (s.tail ++ [0x00]) := by
    simp only [polyAdd, List.tail_zipWith]
    rw [List.zipWith_append (by simp only [List.length_tail, h])]
    rfl
  have hhead : (polyAdd r s).headD 0x00 = gfadd (r.headD 0x00) (s.headD 0x00) := by
    cases r with
    | nil => rw [List.length_eq_zero_iff.1 h.symm]; rfl
    | cons a r => obtain ⟨b, s, rfl⟩ := List.exists_cons_of_length_eq_add_one h.symm; rfl
  have hfactor : gfadd (gfadd c d) (gfadd (r.headD 0x00) (s.headD 0x00)) =
      gfadd (gfadd c (r.headD 0x00)) (gfadd d (s.headD 0x00)) := by
    simp only [gfadd]
    ac_rfl
  simp only [rsStep]
  rw [hshift, hhead, hfactor, polyScale_gfadd, polyAdd_polyAdd_comm]

/-- The division register is linear in its start and its input together. -/
theorem rsSteps_polyAdd (g : List Byte) {d e : List Byte} (h : d.length = e.length) {r s : List Byte}
    (hrs : r.length = s.length) :
    (polyAdd d e).foldl (rsStep g) (polyAdd r s) = polyAdd (d.foldl (rsStep g) r) (e.foldl (rsStep g) s) := by
  induction d generalizing e r s with
  | nil => rw [List.length_eq_zero_iff.1 h.symm]; rfl
  | cons a d ih =>
    obtain ⟨b, e, rfl⟩ := List.exists_cons_of_length_eq_add_one h.symm
    have hcons : polyAdd (a :: d) (b :: e) = gfadd a b :: polyAdd d e := rfl
    rw [hcons, List.foldl_cons, rsStep_polyAdd g hrs, ih (Nat.succ.inj h) (rsStep_length_eq g hrs a b)]
    rfl

/-- The map from data to remainder is linear (R184). -/
theorem rsrem_polyAdd {d e : List Byte} (h : d.length = e.length) (k : Nat) :
    rsrem (polyAdd d e) k = polyAdd (rsrem d k) (rsrem e k) := by
  have hzero : polyAdd (List.replicate k 0x00) (List.replicate k 0x00) = List.replicate k 0x00 := by
    simp [polyAdd, gfadd]
  have hsteps := rsSteps_polyAdd (genpoly k) h (r := List.replicate k 0x00) rfl
  rwa [hzero] at hsteps

end Sys2Proof.Proofs
end

section
/-! PROOF. RS_GENPOLY, RS_ENCODE and RS_SYNDROME: what each stores and what it leaves alone (O32, O34, O36). -/

namespace Sys2Proof.Proofs

open Sys2Proof.Machine Sys2Proof.Laws

/-! ### Consecutive bytes stored, and the loaded polynomial -/

/-- What every RAM address reads as after consecutive bytes are stored. -/
theorem byteAt_store_cellsAt {s : State} (hm : s.mem.wf = true) (base : Nat) (bytes : List Byte) (a : Nat) :
    (s.store (cellsAt base bytes)).byteAt a =
      if base ≤ a ∧ a < base + bytes.length then bytes[a - base]? else s.byteAt a := by
  rw [byteAt_store (risingFrom_mono (risingFrom_cellsAt base bytes) (Nat.zero_le _)) hm, memRead_cellsAt]
  by_cases hbase : base ≤ a
  · by_cases hlt : a < base + bytes.length
    · rw [if_pos hbase, if_pos ⟨hbase, hlt⟩, List.getElem?_eq_getElem (by omega), Option.some_or]
    · rw [if_pos hbase, if_neg (by omega), List.getElem?_eq_none (by omega), Option.none_or]
  · rw [if_neg hbase, if_neg (by omega), Option.none_or]

theorem holds_store_cellsAt {s : State} (hm : s.mem.wf = true) (base : Nat) (bytes : List Byte) :
    (s.store (cellsAt base bytes)).Holds base bytes := by
  intro i hi
  rw [byteAt_store_cellsAt hm, if_pos (by omega), Nat.add_sub_cancel_left, List.getElem?_eq_getElem hi]

theorem byteAt_store_cellsAt_outside {s : State} (hm : s.mem.wf = true) {base : Nat} {bytes : List Byte} {a : Nat}
    (ha : ¬(base ≤ a ∧ a < base + bytes.length)) : (s.store (cellsAt base bytes)).byteAt a = s.byteAt a := by
  rw [byteAt_store_cellsAt hm, if_neg ha]

theorem completeDone_byteAt (s : State) (a : Nat) : s.completeDone.byteAt a = s.byteAt a := rfl

/-- A store and completion change memory and what completion writes, and no other field (R310). -/
theorem completeDone_store (s : State) (cells : Memory) :
    (s.store cells).completeDone = { s with
      mem := (s.store cells).completeDone.mem, done := true, err := false, errcode := 0x00, pending := none } :=
  rfl

/-- Two stores and completion change memory and what completion writes, and no other field (R310). -/
theorem completeDone_store_store (s : State) (first second : Memory) :
    ((s.store first).store second).completeDone = { s with
      mem := ((s.store first).store second).completeDone.mem, done := true, err := false, errcode := 0x00, pending := none } :=
  rfl

/-- The operand check of PLEN goes on with the coefficients POLY holds (R37). -/
theorem withPoly_of_holds {s : State} (hm : s.mem.wf = true) {p : List Byte} (hlen : p.length = s.plen.toNat)
    (hplen : s.plen ≠ 0x00) (hold : s.Holds polyBase p) (k : List Byte → Except Stop State) : s.withPoly k = k p := by
  rw [withPoly_pos fun h => hplen (BitVec.eq_of_toNat_eq h), ← hlen]
  exact load_of_reads hm (addrsRise_addrRange polyBase p.length) (reads_of_holds hold) k

/-! ### The three commands -/

/-- Settles O32: the one store of its body is the generator polynomial. -/
theorem rsGenpolyResult : Obligations.RsGenpolyResult := by
  unfold Obligations.RsGenpolyResult
  refine fun s hm => ⟨fun h1 h64 => ?_, fun hk => ?_⟩
  · have hbody : rsGenpolyBody s = .ok (s.store (cellsAt genBase (genpoly s.k.toNat))) := withK_valid ⟨h1, h64⟩ _
    have hgl := genpoly_length s.k.toNat
    exact ⟨_, exec_of_ok .rsGenpoly hbody, completeDone_store .., hgl, holds_store_cellsAt hm _ _,
      fun a ha => byteAt_store_cellsAt_outside hm fun h => ha (by omega)⟩
  · have hbody : rsGenpolyBody s = raise .badK s := withK_invalid hk _
    exact exec_of_raise .rsGenpoly hbody

/-- Settles O34: the remainder is linear (`rsrem_polyAdd`), and its body stores the generator polynomial and then, apart
from it, the remainder of the loaded block. -/
theorem rsEncodeResult : Obligations.RsEncodeResult := by
  unfold Obligations.RsEncodeResult
  refine ⟨fun d e k h => rsrem_polyAdd h k, fun s hm => ⟨fun d h1 h64 hlen hplen hold => ?_, fun hk => ?_,
    fun h1 h64 hplen => ?_⟩⟩
  · have hbody : rsEncodeBody s = .ok ((s.store (cellsAt genBase (genpoly s.k.toNat))).store
        (cellsAt remBase (rsrem d s.k.toNat))) := by
      rw [rsEncodeBody, withK_valid ⟨h1, h64⟩, withPoly_of_holds hm hlen hplen hold]
    have hgl := genpoly_length s.k.toNat
    have hrl := rsrem_length d h1
    have hmg : (s.store (cellsAt genBase (genpoly s.k.toNat))).mem.wf = true := wf_store (wf_genCells h64) hm
    refine ⟨_, exec_of_ok .rsEncode hbody, completeDone_store_store .., fun i hi => ?_, hrl,
      holds_store_cellsAt hmg _ _, fun a ha => ?_⟩
    · exact (byteAt_store_cellsAt_outside hmg (by simp only [remBase, genBase]; omega)).trans
        (holds_store_cellsAt hm _ _ i hi)
    · exact (byteAt_store_cellsAt_outside hmg fun h => ha (by omega)).trans
        (byteAt_store_cellsAt_outside hm fun h => ha (by omega))
  · have hbody : rsEncodeBody s = raise .badK s := withK_invalid hk _
    exact exec_of_raise .rsEncode hbody
  · have hbody : rsEncodeBody s = raise .badLen s :=
      (withK_valid ⟨h1, h64⟩ _).trans (withPoly_zero (congrArg BitVec.toNat hplen) _)
    exact exec_of_raise .rsEncode hbody

theorem syndromes_all_zero (c : List Byte) (k : Nat) :
    (syndromes c k).all (· == 0x00) = true ↔ ∀ i, i < k → polyeval c (expAt i) = 0x00 := by
  simp [syndromes]

/-- Settles O36: the body stores the syndromes of the loaded sequence and then writes RES, 0 exactly when all are 0. -/
theorem rsSyndromeResult : Obligations.RsSyndromeResult := by
  unfold Obligations.RsSyndromeResult
  refine fun s hm => ⟨fun c h1 h64 hlen hplen hold => ?_, fun hk => ?_, fun h1 h64 hplen => ?_⟩
  · have hbody : rsSyndromeBody s = .ok ((s.store (cellsAt synBase (syndromes c s.k.toNat))).setRes
        (if (syndromes c s.k.toNat).all (· == 0x00) then 0x00 else 0x01)) := by
      rw [rsSyndromeBody, withK_valid ⟨h1, h64⟩, withPoly_of_holds hm hlen hplen hold]
    have hsl := syndromes_length c s.k.toNat
    refine ⟨_, exec_of_ok .rsSyndrome hbody, rfl, fun i hi => ?_, fun hall => ?_, fun ⟨i, hi, hne⟩ => ?_, fun a ha => ?_⟩
    · refine (holds_store_cellsAt hm _ _ i (by omega)).trans ?_
      simp [syndromes]
    · exact if_pos ((syndromes_all_zero ..).2 hall)
    · exact if_neg fun hall => hne ((syndromes_all_zero ..).1 hall i hi)
    · exact byteAt_store_cellsAt_outside hm fun h => ha (by omega)
  · have hbody : rsSyndromeBody s = raise .badK s := withK_invalid hk _
    exact exec_of_raise .rsSyndrome hbody
  · have hbody : rsSyndromeBody s = raise .badLen s :=
      (withK_valid ⟨h1, h64⟩ _).trans (withPoly_zero (congrArg BitVec.toNat hplen) _)
    exact exec_of_raise .rsSyndrome hbody

end Sys2Proof.Proofs
end

section
/-! PROOF. The block partition (O37), and RS_BLOCKS (O38): where each block's EC codewords go. -/

namespace Sys2Proof.Proofs

open Sys2Proof.Machine Sys2Proof.Laws

/-! ### The blocks of a version (R190) -/

theorem validVersion_eq_false {v : Nat} (h : v = 0 ∨ 10 < v) : validVersion v = false := by
  rw [Bool.eq_false_iff, Ne, validVersion_iff]
  omega

theorem blockStart_succ (v b : Nat) : blockStart v (b + 1) = blockStart v b + blockLen v b := by
  simp [blockStart, List.range_succ]

theorem blockStart_mono (v : Nat) : Monotone (blockStart v) :=
  monotone_nat_of_le_succ fun b => by rw [blockStart_succ]; exact Nat.le_add_right ..

/-- The blocks cover the data codewords. -/
theorem blockStart_nblk {v : Nat} (hv : validVersion v = true) : blockStart v (nblk v) = ndata v := by
  obtain ⟨h1, h10⟩ := (validVersion_iff v).1 hv
  interval_cases v <;> decide

theorem blockStart_add_blockLen_le {v b : Nat} (hv : validVersion v = true) (hb : b < nblk v) :
    blockStart v b + blockLen v b ≤ ndata v := by
  rw [← blockStart_succ, ← blockStart_nblk hv]
  exact blockStart_mono v hb

/-- Block `b` of the data codewords. -/
def dataBlock (v : Nat) (data : List Byte) (b : Nat) : List Byte := (data.drop (blockStart v b)).take (blockLen v b)

theorem splitBlocks_eq (v : Nat) (data : List Byte) : splitBlocks v data = (List.range (nblk v)).map (dataBlock v data) := rfl

/-- The first `n` blocks in order are the data up to the start of the next. -/
theorem flatten_blocks (v n : Nat) (data : List Byte) :
    ((List.range n).map (dataBlock v data)).flatten = data.take (blockStart v n) := by
  induction n with
  | zero => rfl
  | succ n ih =>
    rw [List.range_succ, List.map_append, List.flatten_append, ih, blockStart_succ, List.take_add]
    simp [dataBlock]

theorem ndata_mod_nblk {v : Nat} (h1 : 1 ≤ v) (h9 : v ≤ 9) : ndata v % nblk v = 0 := by
  interval_cases v <;> decide

/-- Settles O37: each block begins where the one before it ends, so the blocks in order are the data. -/
theorem blocksPartitionTheData : Obligations.BlocksPartitionTheData := by
  unfold Obligations.BlocksPartitionTheData
  refine ⟨fun v h1 h10 => ?_, by decide, fun v h1 h9 b hb => ?_⟩
  · have hv := (validVersion_iff v).2 ⟨h1, h10⟩
    refine ⟨rfl, blockStart_nblk hv, fun b _ => blockStart_succ v b, fun _ _ => rfl, fun D hD =>
      ⟨by simp [splitBlocks], ?_, fun b hb => by simp [splitBlocks, hb]⟩⟩
    rw [splitBlocks_eq, flatten_blocks, blockStart_nblk hv, ← hD, List.take_length]
  · rw [blockLen, ndata_mod_nblk h1 h9, if_neg (by omega), Nat.add_zero]

/-! ### Lists cut into pieces -/

/-- Entry `j` of piece `b`, when the pieces before it have length `k`. -/
theorem getElem?_flatMap_range {α : Type} {f : Nat → List α} {k n b j : Nat} (hk : ∀ i < b, (f i).length = k) (hb : b < n)
    (hj : j < (f b).length) : ((List.range n).flatMap f)[k * b + j]? = (f b)[j]? := by
  obtain ⟨m, rfl⟩ := Nat.exists_eq_add_of_lt hb
  have hlen : ((List.range b).flatMap f).length = k * b := by
    rw [List.length_flatMap, List.map_congr_left fun i hi => hk i (List.mem_range.1 hi)]
    simp [Nat.mul_comm]
  rw [Nat.add_assoc, List.range_add, List.flatMap_append,
    List.getElem?_append_right (by omega), hlen, Nat.add_sub_cancel_left, List.range_succ_eq_map, List.map_cons,
    List.flatMap_cons, Nat.add_zero, List.getElem?_append_left hj]

theorem getElem?_ecwAddrs {v b j : Nat} (hb : b < nblk v) (hj : j < ecpb v) :
    (ecwAddrs v)[ecpb v * b + j]? = some (ecwAddr b j) := by
  rw [ecwAddrs, getElem?_flatMap_range (fun _ _ => by simp) hb (by simpa using hj)]
  simp [hj]

theorem getElem?_ecBytes {v b j : Nat} (data : List Byte) (hb : b < nblk v) (hj : j < ecpb v) :
    (ecBytes v data)[ecpb v * b + j]? =
      (rsrem (dataBlock v data b) (ecpb v))[j]? := by
  have hlen : ∀ d, (rsrem d (ecpb v)).length = ecpb v := fun d => rsrem_length d (by omega)
  rw [ecBytes, splitBlocks_eq, List.flatMap_map, getElem?_flatMap_range (fun _ _ => hlen _) hb (by rw [hlen]; exact hj)]

/-! ### RS_BLOCKS (R191) -/

/-- The cells RS_BLOCKS lays over ECW. -/
def ecCells (v : Nat) (data : List Byte) : Memory := (ecwAddrs v).zip (ecBytes v data)

theorem wf_ecCells {v : Nat} (hv : validVersion v = true) (data : List Byte) : (ecCells v data).wf = true := by
  obtain ⟨-, -, hec, -, -, -⟩ := profile_bounds hv
  exact wf_of_keys (map_fst_zip_sublist ..) (addrsRise_ecwAddrs (by omega)) fun a ha => (inBuffer_ecwAddrs hv ha).isRam

theorem memRead_ecCells {v b j : Nat} (hv : validVersion v = true) (data : List Byte) (hb : b < nblk v) (hj : j < ecpb v) :
    memRead (ecCells v data) (ecwAddr b j) =
      (rsrem (dataBlock v data b) (ecpb v))[j]? := by
  have hj' : j < (rsrem (dataBlock v data b) (ecpb v)).length := by rwa [rsrem_length _ (by omega)]
  have hzip : (ecCells v data)[ecpb v * b + j]? = some (ecwAddr b j, (rsrem (dataBlock v data b) (ecpb v))[j]) :=
    List.getElem?_zip_eq_some.2
      ⟨getElem?_ecwAddrs hb hj, (getElem?_ecBytes data hb hj).trans (List.getElem?_eq_getElem hj')⟩
  rw [List.getElem?_eq_getElem hj']
  exact memRead_of_mem (wf_rising (wf_ecCells hv data)) (List.mem_of_getElem? hzip)

theorem memRead_ecCells_outside {v a : Nat} (data : List Byte) (ha : ¬∃ b < nblk v, ∃ j < ecpb v, a = ecwAddr b j) :
    memRead (ecCells v data) a = none := by
  cases h : memRead (ecCells v data) a with
  | none => rfl
  | some x => exact absurd (mem_ecwAddrs.1 (List.of_mem_zip (memRead_some_mem h)).1) ha

/-- Settles O38: the body stores the generator polynomial and then, apart from it, the remainders block by block. -/
theorem rsBlocksResult : Obligations.RsBlocksResult := by
  unfold Obligations.RsBlocksResult
  refine fun s hm => ⟨fun D h1 h10 hlen hold => ?_, fun hver => ?_⟩
  · have hv := (validVersion_iff s.ver).2 ⟨h1, h10⟩
    obtain ⟨-, -, hec, -, -, -⟩ := profile_bounds hv
    have hbody : rsBlocksBody s = .ok ((s.store (cellsAt genBase (genpoly (ecpb s.ver)))).store (ecCells s.ver D)) := by
      rw [rsBlocksBody, withVersion_valid hv, ← hlen, load_of_reads hm (addrsRise_addrRange ..) (reads_of_holds hold)]
      rfl
    have hmg : (s.store (cellsAt genBase (genpoly (ecpb s.ver)))).mem.wf = true := wf_store (wf_genCells (by omega)) hm
    have hread := byteAt_store (wf_rising (wf_ecCells hv D)) hmg
    have hgl := genpoly_length (ecpb s.ver)
    refine ⟨_, exec_of_ok .rsBlocks hbody, completeDone_store_store .., fun i hi => ?_, fun b hb j hj => ?_,
      fun a ha => ?_⟩
    · refine (hread (genBase + i)).trans ?_
      rw [memRead_ecCells_outside D (by simp only [ecwAddr, ecwBase, genBase]; omega), Option.none_or]
      exact holds_store_cellsAt hm _ _ i hi
    · refine (hread (ecwAddr b j)).trans ?_
      rw [memRead_ecCells hv D hb hj, List.getElem?_eq_getElem (by rwa [rsrem_length _ (by omega)]), Option.some_or]
      exact (List.getElem?_eq_getElem _).symm
    · refine (hread a).trans ?_
      rw [memRead_ecCells_outside D fun h => ha (.inr h), Option.none_or]
      exact byteAt_store_cellsAt_outside hm fun h => ha (.inl (by omega))
  · have hbody : rsBlocksBody s = raise .badVersion s := withVersion_invalid (validVersion_eq_false hver) _
    exact exec_of_raise .rsBlocks hbody

end Sys2Proof.Proofs
end

section
/-! PROOF. INTERLEAVE (O39): where each codeword stands in the interleaved stream. -/

namespace Sys2Proof.Proofs

open Sys2Proof.Machine Sys2Proof.Laws

/-! ### Column-wise interleaving (R195) -/

/-- When exactly the indices from `m` on have a value, what the filtered list holds. -/
theorem filterMap_range_eq {g : Nat → Option Byte} {m p : Nat} (hnone : ∀ b < m, g b = none)
    (hsome : ∀ c < p, (g (m + c)).isSome) :
    (List.range (m + p)).filterMap g = (List.range p).map fun c => (g (m + c)).getD 0x00 := by
  rw [List.range_add, List.filterMap_append, List.filterMap_eq_nil_iff.2 fun b hb => hnone b (List.mem_range.1 hb),
    List.nil_append, List.filterMap_map, ← List.filterMap_eq_map]
  refine List.filterMap_congr fun c hc => ?_
  obtain ⟨x, hx⟩ := Option.isSome_iff_exists.1 (hsome c (List.mem_range.1 hc))
  simp [hx]

/-- Column `i` of `n` blocks of which exactly those from `m` on have entry `i`. -/
theorem column_eq {f : Nat → List Byte} {n m i : Nat} (hm : m ≤ n) (h : ∀ b < n, i < (f b).length ↔ m ≤ b) :
    (List.range n).filterMap (fun b => (f b)[i]?) = (List.range (n - m)).map fun c => ((f (m + c))[i]?).getD 0x00 := by
  obtain ⟨p, rfl⟩ := Nat.exists_eq_add_of_le hm
  rw [Nat.add_sub_cancel_left]
  refine filterMap_range_eq (fun b hb => List.getElem?_eq_none ?_) fun c hc => ?_
  · exact Nat.not_lt.1 fun hlt => absurd ((h b (by omega)).1 hlt) (by omega)
  · rw [List.getElem?_eq_getElem ((h (m + c) (by omega)).2 (by omega))]
    rfl

/-- Entry `i` of block `b` in the interleaving of `n` blocks, when every block has the `i` entries before it and exactly the
blocks from `m` on have entry `i` itself. -/
theorem getElem?_columnwise {f : Nat → List Byte} {len n m i b : Nat} (hi : i < len) (hfull : ∀ b < n, i ≤ (f b).length)
    (hlast : ∀ b < n, i < (f b).length ↔ m ≤ b) (hm : m ≤ b) (hb : b < n) :
    (columnwise len ((List.range n).map f))[n * i + (b - m)]? = (f b)[i]? := by
  have hprev : ∀ i' < i, ((List.range n).filterMap fun b => (f b)[i']?).length = n := fun i' hi' => by
    rw [column_eq (Nat.zero_le n) fun b hb => iff_of_true (Nat.lt_of_lt_of_le hi' (hfull b hb)) (Nat.zero_le b)]
    simp
  have hcolumns : columnwise len ((List.range n).map f) =
      (List.range len).flatMap fun i => (List.range n).filterMap fun b => (f b)[i]? := by
    simp only [columnwise, List.filterMap_map, Function.comp_def]
  rw [hcolumns, getElem?_flatMap_range hprev hi, column_eq (by omega) hlast]
  · have hlt := (hlast b hb).2 hm
    simp [show b - m < n - m by omega, show m + (b - m) = b by omega, hlt]
  · rw [column_eq (by omega) hlast, List.length_map, List.length_range]
    omega

/-! ### The interleaved stream of a version (R195) -/

theorem dataBlock_length {v b : Nat} (hv : validVersion v = true) {data : List Byte} (hdata : data.length = ndata v)
    (hb : b < nblk v) : (dataBlock v data b).length = blockLen v b := by
  have := blockStart_add_blockLen_le hv hb
  rw [dataBlock, List.length_take, List.length_drop, hdata]
  omega

theorem getElem?_dataBlock {v b i : Nat} (data : List Byte) (hi : i < blockLen v b) :
    (dataBlock v data b)[i]? = data[blockStart v b + i]? := by
  rw [dataBlock, List.getElem?_take_of_lt hi, List.getElem?_drop]

theorem blockLen_le_maxBlockLen {v b : Nat} (hv : validVersion v = true) (hb : b < nblk v) : blockLen v b ≤ maxBlockLen v := by
  have key : ∀ b < nblk v, blockLen v b ≤ maxBlockLen v := by
    obtain ⟨h1, h10⟩ := (validVersion_iff v).1 hv
    clear hb
    interval_cases v <;> decide
  exact key b hb

/-- Where the stream holds byte `i` of data block `b`: in column `i`, where the last column has the long blocks only. -/
def dataPos (v b i : Nat) : Nat :=
  if i < ndata v / nblk v then i * nblk v + b
  else ndata v / nblk v * nblk v + (b - (nblk v - ndata v % nblk v))

theorem getElem?_columnwise_data {v b i : Nat} (hv : validVersion v = true) {data : List Byte}
    (hdata : data.length = ndata v) (hb : b < nblk v) (hi : i < blockLen v b) :
    (columnwise (maxBlockLen v) (splitBlocks v data))[dataPos v b i]? = data[blockStart v b + i]? := by
  have hmax := Nat.lt_of_lt_of_le hi (blockLen_le_maxBlockLen hv hb)
  have hlen : ∀ b, blockLen v b = ndata v / nblk v + if nblk v - ndata v % nblk v ≤ b then 1 else 0 := fun _ => rfl
  rw [← getElem?_dataBlock data hi, splitBlocks_eq, dataPos]
  split
  · next hshort =>
    rw [Nat.mul_comm i]
    refine getElem?_columnwise (m := 0) hmax (fun b hb => ?_) (fun b hb => ?_) (Nat.zero_le b) hb
    · rw [dataBlock_length hv hdata hb, hlen]
      omega
    · rw [dataBlock_length hv hdata hb, hlen]
      omega
  · next hlong =>
    rw [hlen] at hi
    have hlast : nblk v - ndata v % nblk v ≤ b := by
      by_contra h
      rw [if_neg h] at hi
      omega
    rw [if_pos hlast] at hi
    obtain rfl : i = ndata v / nblk v := by omega
    rw [Nat.mul_comm (ndata v / nblk v)]
    refine getElem?_columnwise hmax (fun b hb => ?_) (fun b hb => ?_) hlast hb
    · rw [dataBlock_length hv hdata hb, hlen]
      omega
    · rw [dataBlock_length hv hdata hb, hlen]
      split <;> omega

theorem columnwise_data_length {v : Nat} (hv : validVersion v = true) {data : List Byte} (hdata : data.length = ndata v) :
    (columnwise (maxBlockLen v) (splitBlocks v data)).length = ndata v := by
  have hblocks : (List.range (nblk v)).map (fun b => min (maxBlockLen v) (dataBlock v data b).length) =
      (List.range (nblk v)).map (blockLen v) := List.map_congr_left fun b hb => by
    have hb := List.mem_range.1 hb
    rw [dataBlock_length hv hdata hb, Nat.min_eq_right (blockLen_le_maxBlockLen hv hb)]
  rw [columnwise_length, splitBlocks_eq, List.map_map, ← blockStart_nblk hv, blockStart, ← hblocks]
  rfl

theorem getElem?_interleaved_data {v b i : Nat} (hv : validVersion v = true) {data : List Byte}
    (hdata : data.length = ndata v) (ec : List Byte) (hb : b < nblk v) (hi : i < blockLen v b) :
    (interleaved v data ec)[dataPos v b i]? = data[blockStart v b + i]? := by
  have hpos := getElem?_columnwise_data hv hdata hb hi
  have hend := blockStart_add_blockLen_le hv hb
  rw [List.getElem?_eq_getElem (l := data) (by omega)] at hpos ⊢
  rw [interleaved, List.getElem?_append_left (List.getElem?_eq_some_iff.1 hpos).1, hpos]

theorem getElem?_interleaved_ec {v b j : Nat} (hv : validVersion v = true) {data ec : List Byte}
    (hdata : data.length = ndata v) (hec : ec.length = ecpb v * nblk v) (hb : b < nblk v) (hj : j < ecpb v) :
    (interleaved v data ec)[ndata v + j * nblk v + b]? = ec[ecpb v * b + j]? := by
  have hlen : ∀ b < nblk v, ((ec.drop (ecpb v * b)).take (ecpb v)).length = ecpb v := fun b hb => by
    have hend : ecpb v * (b + 1) ≤ ecpb v * nblk v := Nat.mul_le_mul_left _ hb
    rw [Nat.mul_add_one] at hend
    rw [List.length_take, List.length_drop, hec]
    omega
  rw [Nat.add_assoc, Nat.mul_comm j, interleaved,
    List.getElem?_append_right (by rw [columnwise_data_length hv hdata]; omega),
    columnwise_data_length hv hdata, Nat.add_sub_cancel_left, splitEc]
  refine (getElem?_columnwise (m := 0) hj (fun b hb => ?_) (fun b hb => ?_) (Nat.zero_le b) hb).trans ?_
  · rw [hlen b hb]
    omega
  · rw [hlen b hb]
    omega
  · rw [List.getElem?_take_of_lt hj, List.getElem?_drop]

/-! ### INTERLEAVE (R196) -/

/-- The image of what is written. -/
def imageOf (s : State) (a : Nat) : Byte := (s.byteAt a).getD 0x00

theorem known_imageOf (s : State) : Known (fun a => (s.byteAt a).isSome) (imageOf s) s := by
  intro a ha
  obtain ⟨x, hx⟩ := Option.isSome_iff_exists.1 ha
  rw [imageOf, hx, Option.getD_some]

theorem getElem?_map_imageOf {s : State} {addrs : List Nat} {k a : Nat} (hk : addrs[k]? = some a)
    (ha : (s.byteAt a).isSome) : (addrs.map (imageOf s))[k]? = s.byteAt a := by
  rw [List.getElem?_map, hk, known_imageOf s a ha]
  rfl

theorem isSome_byteAt_of_written {s : State} {base n a : Nat} (h : s.Written base n) (ha : a ∈ addrRange base n) :
    (s.byteAt a).isSome := by
  obtain ⟨hlo, hhi⟩ := mem_addrRange.1 ha
  obtain ⟨i, rfl⟩ := Nat.exists_eq_add_of_le hlo
  exact h i (by omega)

theorem byteAt_store_cellsAt_of_getElem? {s : State} (hm : s.mem.wf = true) {base p : Nat} {bytes : List Byte}
    {x : Option Byte} (hp : bytes[p]? = x) (hx : x.isSome) : (s.store (cellsAt base bytes)).byteAt (base + p) = x := by
  subst hp
  obtain ⟨y, hy⟩ := Option.isSome_iff_exists.1 hx
  obtain ⟨hlt, -⟩ := List.getElem?_eq_some_iff.1 hy
  rw [holds_store_cellsAt hm base bytes p hlt, List.getElem?_eq_getElem hlt]

/-- The stream INTERLEAVE makes of the codewords in memory. -/
def streamIn (s : State) (v : Nat) : List Byte := interleaved v (dataIn v (imageOf s)) ((ecwAddrs v).map (imageOf s))

/-- The EC codewords of version `v` are all written. -/
def EcWritten (s : State) (v : Nat) : Prop := ∀ b, b < nblk v → ∀ j, j < ecpb v → (s.byteAt (ecwAddr b j)).isSome

theorem dataIn_length (v : Nat) (img : Nat → Byte) : (dataIn v img).length = ndata v := by
  rw [dataIn, List.length_map, addrRange_length]

theorem ecIn_length (v : Nat) (img : Nat → Byte) : ((ecwAddrs v).map img).length = ecpb v * nblk v := by
  rw [List.length_map, ecwAddrs_length]

theorem getElem?_streamIn_data {s : State} {v b i : Nat} (hv : validVersion v = true) (hdcw : s.Written dcwBase (ndata v))
    (hb : b < nblk v) (hi : i < blockLen v b) :
    (streamIn s v)[dataPos v b i]? = s.byteAt (dcwBase + blockStart v b + i) := by
  have hend := blockStart_add_blockLen_le hv hb
  have haddr : (addrRange dcwBase (ndata v))[blockStart v b + i]? = some (dcwBase + blockStart v b + i) := by
    simp [addrRange, show blockStart v b + i < ndata v by omega, Nat.add_assoc]
  rw [streamIn, getElem?_interleaved_data hv (dataIn_length ..) _ hb hi]
  exact getElem?_map_imageOf haddr (isSome_byteAt_of_written hdcw (List.mem_of_getElem? haddr))

theorem getElem?_streamIn_ec {s : State} {v b j : Nat} (hv : validVersion v = true) (hecw : EcWritten s v) (hb : b < nblk v)
    (hj : j < ecpb v) : (streamIn s v)[ndata v + j * nblk v + b]? = s.byteAt (ecwAddr b j) := by
  rw [streamIn, getElem?_interleaved_ec hv (dataIn_length ..) (ecIn_length ..) hb hj]
  exact getElem?_map_imageOf (getElem?_ecwAddrs hb hj) (hecw b hb j hj)

theorem interleaveBody_of_written {s : State} (hm : s.mem.wf = true) (hv : validVersion s.ver = true)
    (hdcw : s.Written dcwBase (ndata s.ver)) (hecw : EcWritten s s.ver) :
    interleaveBody s = .ok (s.store (cellsAt icwBase (streamIn s s.ver))) := by
  obtain ⟨-, -, hec, -, -, -⟩ := profile_bounds hv
  have hecw' : ∀ a ∈ ecwAddrs s.ver, (s.byteAt a).isSome := fun a ha => by
    obtain ⟨b, hb, j, hj, rfl⟩ := mem_ecwAddrs.1 ha
    exact hecw b hb j hj
  rw [interleaveBody, withVersion_valid hv, load_of_known hm (known_imageOf s) (addrsRise_addrRange ..) fun a =>
    isSome_byteAt_of_written hdcw, load_of_known hm (known_imageOf s) (addrsRise_ecwAddrs (by omega)) hecw']
  rfl

/-- Settles O39: the one store of its body is the interleaved stream of the loaded codewords, whose entries
`getElem?_streamIn_data` and `getElem?_streamIn_ec` give. -/
theorem interleaveResult : Obligations.InterleaveResult := by
  unfold Obligations.InterleaveResult
  refine fun s hm => ⟨fun h1 h10 hdcw hecw => ?_, fun hver => ?_⟩
  · have hv := (validVersion_iff s.ver).2 ⟨h1, h10⟩
    have hlen : (streamIn s s.ver).length = ntotal s.ver := interleaved_length hv (dataIn_length ..) (ecIn_length ..)
    refine ⟨_, exec_of_ok .interleave (interleaveBody_of_written hm hv hdcw hecw), completeDone_store .., fun b hb i hi => ?_,
      fun b hb j hj => ?_, fun a ha => ?_⟩
    · have hend := blockStart_add_blockLen_le hv hb
      have hsome : (s.byteAt (dcwBase + blockStart s.ver b + i)).isSome := by
        rw [Nat.add_assoc]
        exact hdcw _ (by omega)
      rw [completeDone_byteAt]
      exact byteAt_store_cellsAt_of_getElem? hm (getElem?_streamIn_data hv hdcw hb hi) hsome
    · rw [completeDone_byteAt, Nat.add_assoc icwBase, Nat.add_assoc icwBase]
      exact byteAt_store_cellsAt_of_getElem? hm (getElem?_streamIn_ec hv hecw hb hj) (hecw b hb j hj)
    · rw [completeDone_byteAt]
      exact byteAt_store_cellsAt_outside hm (by rwa [hlen])
  · have hbody : interleaveBody s = raise .badVersion s := withVersion_invalid (validVersion_eq_false hver) _
    exact exec_of_raise .interleave hbody

end Sys2Proof.Proofs
end

section
/-! PROOF. MATRIX_INIT (O45): no two patterns of R223-R230 but a timing line and what it crosses touch the same cell, so
each cell is what the region it lies in gives. -/

namespace Sys2Proof.Proofs

open Sys2Proof.Machine Sys2Proof.Laws

/-! ### Painting (R220) -/

theorem paint_of_ite {g : Grid} {p : Pattern} {r c : Nat} {P : Prop} [Decidable P] {b : Bool}
    (h : p r c = if P then some b else none) : paint g p r c = if P then ⟨b, true⟩ else g r c := by
  rw [paint, h]
  by_cases hP : P
  · rw [if_pos hP, if_pos hP]
  · rw [if_neg hP, if_neg hP]

/-- The byte of a cell `setF` has written (R57, R220). -/
theorem toByte_reserved (b : Bool) : (ModuleCell.mk b true).toByte = if b then 0x03 else 0x02 := by
  cases b <;> rfl

/-- A cell painted where `P` holds is reserved there, and elsewhere if it was before (R220). -/
theorem rsv_ite_iff {P : Prop} [Decidable P] {b : Bool} {m : ModuleCell} :
    (if P then ⟨b, true⟩ else m).rsv = true ↔ P ∨ m.rsv = true := by
  by_cases hP : P
  · rw [if_pos hP]
    exact ⟨fun _ => .inl hP, fun _ => rfl⟩
  · rw [if_neg hP, or_iff_right hP]

/-! ### The finders with their separators (R222, R223) -/

/-- A finder or separator cell at distance `d` from the finder's centre (R223). -/
def ringCell (d : Nat) : ModuleCell := ⟨decide (d ≤ 1 ∨ d = 3), true⟩

theorem toByte_ringCell (d : Nat) : (ringCell d).toByte = ringByte d := by
  rw [ringCell, toByte_reserved, ringByte]
  simp only [decide_eq_true_eq]

theorem finderPattern_eq (n r0 c0 r c : Nat) :
    finderPattern n r0 c0 r c =
      if r < n ∧ c < n ∧ max (Machine.dist r (r0 + 3)) (Machine.dist c (c0 + 3)) ≤ 4 then
        some (decide (max (Machine.dist r (r0 + 3)) (Machine.dist c (c0 + 3)) ≤ 1 ∨
          max (Machine.dist r (r0 + 3)) (Machine.dist c (c0 + 3)) = 3)) else none := by
  unfold finderPattern
  generalize max (Machine.dist r (r0 + 3)) (Machine.dist c (c0 + 3)) = d
  by_cases hin : r < n ∧ c < n
  · rw [if_pos hin]
    by_cases hd : d ≤ 4
    · rw [if_pos ⟨hin.1, hin.2, hd⟩]
      interval_cases d <;> rfl
    · rw [if_neg (by omega)]
      obtain ⟨e, rfl⟩ := Nat.exists_eq_add_of_le' (Nat.lt_of_not_le hd)
      rfl
  · rw [if_neg hin, if_neg (by omega)]

/-- The cells of a finder's window, clipped to the symbol, are those of its 8 × 8 corner (R223). -/
theorem finderGrid_eq {n : Nat} (hn : 21 ≤ n) {r c : Nat} (hr : r < n) (hc : c < n) :
    finderGrid n r c =
      if r < 8 ∧ c < 8 then ringCell (max (Machine.dist r 3) (Machine.dist c 3))
      else if r < 8 ∧ n - 8 ≤ c then ringCell (max (Machine.dist r 3) (Machine.dist c (n - 4)))
      else if n - 8 ≤ r ∧ c < 8 then ringCell (max (Machine.dist r (n - 4)) (Machine.dist c 3))
      else ⟨false, false⟩ := by
  have hcentre : n - 7 + 3 = n - 4 := by omega
  have topLeft : (r < n ∧ c < n ∧ max (Machine.dist r 3) (Machine.dist c 3) ≤ 4) ↔ r < 8 ∧ c < 8 := by
    simp only [Machine.dist]; omega
  have topRight : (r < n ∧ c < n ∧ max (Machine.dist r 3) (Machine.dist c (n - 4)) ≤ 4) ↔ r < 8 ∧ n - 8 ≤ c := by
    simp only [Machine.dist]; omega
  have bottomLeft : (r < n ∧ c < n ∧ max (Machine.dist r (n - 4)) (Machine.dist c 3) ≤ 4) ↔ n - 8 ≤ r ∧ c < 8 := by
    simp only [Machine.dist]; omega
  rw [finderGrid, paint_of_ite (finderPattern_eq ..), paint_of_ite (finderPattern_eq ..),
    paint_of_ite (finderPattern_eq ..)]
  simp only [hcentre, Nat.zero_add, topLeft, topRight, bottomLeft]
  by_cases htl : r < 8 ∧ c < 8
  · rw [if_neg (by omega), if_neg (by omega), if_pos htl, if_pos htl, ringCell]
  · rw [if_neg htl, if_neg htl]
    by_cases htr : r < 8 ∧ n - 8 ≤ c
    · rw [if_neg (by omega), if_pos htr, if_pos htr, ringCell]
    · rw [if_neg htr, if_neg htr]
      rfl

/-- A cell of the 8 × 8 corners of the finders with their separators (R223). -/
def IsFinderCell (n r c : Nat) : Prop := (r < 8 ∧ c < 8) ∨ (r < 8 ∧ n - 8 ≤ c) ∨ (n - 8 ≤ r ∧ c < 8)

theorem rsv_finderGrid_iff {n : Nat} (hn : 21 ≤ n) {r c : Nat} (hr : r < n) (hc : c < n) :
    (finderGrid n r c).rsv = true ↔ IsFinderCell n r c := by
  simp only [finderGrid_eq hn hr hc, ringCell, rsv_ite_iff, IsFinderCell, Bool.false_eq_true, or_false]

theorem finderGrid_outside {n r c : Nat} (h : n ≤ r ∨ n ≤ c) : finderGrid n r c = ⟨false, false⟩ := by
  rw [finderGrid, paint_of_ite (finderPattern_eq ..), if_neg (by omega), paint_of_ite (finderPattern_eq ..),
    if_neg (by omega), paint_of_ite (finderPattern_eq ..), if_neg (by omega), clearGrid]

/-! ### The alignment patterns (R225, R226) -/

/-- Cell `(r, c)` lies in the 5 × 5 square centred on `p` (R225). -/
def Covers (p : Nat × Nat) (r c : Nat) : Prop := Machine.dist r p.1 ≤ 2 ∧ Machine.dist c p.2 ≤ 2

theorem covers_iff (p : Nat × Nat) (r c : Nat) :
    Covers p r c ↔ (r ≤ p.1 + 2 ∧ p.1 ≤ r + 2) ∧ c ≤ p.2 + 2 ∧ p.2 ≤ c + 2 := by
  simp only [Covers, Machine.dist]
  omega

/-- The cell `(r, c)` of the alignment pattern centred on `p` (R225). -/
def alignCell (p : Nat × Nat) (r c : Nat) : ModuleCell :=
  ⟨decide (max (Machine.dist r p.1) (Machine.dist c p.2) ≠ 1), true⟩

theorem paint_align_of_covers {p : Nat × Nat} {r c : Nat} (h : Covers p r c) (g : Grid) :
    paint g (alignPattern p.1 p.2) r c = alignCell p r c := by
  have hd : max (Machine.dist r p.1) (Machine.dist c p.2) ≤ 2 := max_le h.1 h.2
  unfold paint alignPattern alignCell
  generalize max (Machine.dist r p.1) (Machine.dist c p.2) = d at hd
  interval_cases d <;> rfl

theorem paint_align_of_not_covers {p : Nat × Nat} {r c : Nat} (h : ¬Covers p r c) (g : Grid) :
    paint g (alignPattern p.1 p.2) r c = g r c := by
  have hd : 2 < max (Machine.dist r p.1) (Machine.dist c p.2) := by
    rw [Covers] at h
    omega
  unfold paint alignPattern
  obtain ⟨e, he⟩ := Nat.exists_eq_add_of_le' hd
  rw [he]
  rfl

theorem alignGrid_concat (g : Grid) (ps : List (Nat × Nat)) (q : Nat × Nat) :
    alignGrid g (ps ++ [q]) = paint (alignGrid g ps) (alignPattern q.1 q.2) := by
  simp [alignGrid]

theorem alignGrid_of_not_covers {g : Grid} {ps : List (Nat × Nat)} {r c : Nat} (h : ∀ q ∈ ps, ¬Covers q r c) :
    alignGrid g ps r c = g r c := by
  induction ps using List.reverseRecOn with
  | nil => rfl
  | append_singleton ps q ih =>
    rw [alignGrid_concat, paint_align_of_not_covers (h q (by simp)), ih fun q hq => h q (by simp [hq])]

/-- A cell that one square covers is what that square's pattern gives. -/
theorem alignGrid_of_covers {g : Grid} {ps : List (Nat × Nat)} {p : Nat × Nat} {r c : Nat} (hp : p ∈ ps)
    (hcov : Covers p r c) (huniq : ∀ q ∈ ps, Covers q r c → q = p) : alignGrid g ps r c = alignCell p r c := by
  induction ps using List.reverseRecOn with
  | nil => simp at hp
  | append_singleton ps q ih =>
    rw [alignGrid_concat]
    by_cases hq : Covers q r c
    · rw [paint_align_of_covers hq, huniq q (by simp) hq]
    · have hp' : p ∈ ps := by
        rcases List.mem_append.1 hp with h | h
        · exact h
        · exact absurd (List.mem_singleton.1 h ▸ hcov) hq
      rw [paint_align_of_not_covers hq, ih hp' fun q hq => huniq q (by simp [hq])]

/-- The candidates that stand on no finder (R226). -/
def openCentres (v : Nat) : List (Nat × Nat) :=
  (alignCandidates v).filter fun p => !(p == (6, 6) || p == (6, side v - 7) || p == (side v - 7, 6))

/-- The check of R226 skips the three candidates on the finders and no other. -/
theorem alignPlaced_eq_openCentres : ∀ v < 11, alignPlaced v = openCentres v := by decide +kernel

/-- No two squares share a cell. -/
theorem openCentres_apart : ∀ v < 11, ∀ p ∈ openCentres v, ∀ q ∈ openCentres v,
    q = p ∨ p.1 + 5 ≤ q.1 ∨ q.1 + 5 ≤ p.1 ∨ p.2 + 5 ≤ q.2 ∨ q.2 + 5 ≤ p.2 := by decide

/-- The square centred on `p` stands on row 6 or on column 6 between the version areas' inner edges, or past row 8 and
column 8. -/
abbrev StandsClear (n : Nat) (p : Nat × Nat) : Prop :=
  (p.1 = 6 ∧ 11 ≤ p.2 ∧ p.2 + 14 ≤ n) ∨ (p.2 = 6 ∧ 11 ≤ p.1 ∧ p.1 + 14 ≤ n) ∨ (11 ≤ p.1 ∧ 11 ≤ p.2)

theorem openCentres_place : ∀ v < 11, ∀ p ∈ openCentres v,
    p.1 + 7 ≤ side v ∧ p.2 + 7 ≤ side v ∧ StandsClear (side v) p := by decide

/-! ### The patterns painted last (R227-R230) -/

theorem timingPattern_eq (n : Nat) (g : Grid) (r c : Nat) :
    timingPattern n g r c =
      if (r < n ∧ c < n ∧ (g r c).rsv = false) ∧ (r = 6 ∨ c = 6) then
        some (if r = 6 then c % 2 == 0 else r % 2 == 0) else none := by
  unfold timingPattern
  by_cases hin : r < n ∧ c < n ∧ (g r c).rsv = false
  · by_cases hr : r = 6 <;> by_cases hc : c = 6 <;> simp [hin, hr, hc]
  · rw [if_neg hin, if_neg fun h => hin h.1]

/-- The format strips beside the timing lines (R229). -/
theorem isFormatCell_iff {n : Nat} (hn : 21 ≤ n) (r c : Nat) :
    isFormatCell n r c = true ↔
      (r = 8 ∧ c < n ∧ c ≠ 6 ∧ (c ≤ 8 ∨ n - 8 ≤ c)) ∨ (c = 8 ∧ r < n ∧ r ≠ 6 ∧ (r ≤ 8 ∨ n - 7 ≤ r)) := by
  simp only [isFormatCell, Bool.or_eq_true, Bool.and_eq_true, beq_iff_eq, List.contains_eq_mem, decide_eq_true_eq,
    List.mem_cons, List.not_mem_nil, or_false]
  omega

/-- The strips of row 8 and column 8 the format cells lie on, the timing cells among them (R229). -/
abbrev IsStripCell (n r c : Nat) : Prop := (r = 8 ∧ (c ≤ 8 ∨ n - 8 ≤ c)) ∨ (c = 8 ∧ (r ≤ 8 ∨ n - 7 ≤ r))

/-- The areas versions 7 to 10 hold for version information (R230). -/
abbrev IsVersionCell (n r c : Nat) : Prop :=
  (r ≤ 5 ∧ n - 11 ≤ c ∧ c ≤ n - 9) ∨ (n - 11 ≤ r ∧ r ≤ n - 9 ∧ c ≤ 5)

/-- The structural matrix of version `v` up to its alignment patterns (R221). -/
def alignedGrid (v : Nat) : Grid := alignGrid (finderGrid (side v)) (alignPlaced v)

/-- The patterns of R227-R230 over the finders and the alignment patterns, the last painted first. -/
theorem structGrid_eq (v r c : Nat) :
    structGrid v r c =
      if v ≥ 7 ∧ IsVersionCell (side v) r c then ⟨false, true⟩
      else if isFormatCell (side v) r c then ⟨false, true⟩
      else if r = side v - 8 ∧ c = 8 then ⟨true, true⟩
      else if (r < side v ∧ c < side v ∧ (alignedGrid v r c).rsv = false) ∧ (r = 6 ∨ c = 6) then
        ⟨if r = 6 then c % 2 == 0 else r % 2 == 0, true⟩
      else alignedGrid v r c := by
  unfold structGrid structGridWith
  rw [paint_of_ite rfl, paint_of_ite rfl, paint_of_ite rfl, paint_of_ite (timingPattern_eq ..)]
  rfl

/-! ### The regions of the matrix (R231) -/

theorem le_side {v : Nat} (h1 : 1 ≤ v) : 21 ≤ side v := by
  unfold side
  omega

section Regions

variable {v r c : Nat} (h1 : 1 ≤ v) (h10 : v ≤ 10)
include h1 h10

theorem alignedGrid_of_covers {p : Nat × Nat} (hp : p ∈ openCentres v) (hcov : Covers p r c) :
    alignedGrid v r c = alignCell p r c := by
  rw [alignedGrid, alignPlaced_eq_openCentres v (by omega)]
  refine alignGrid_of_covers hp hcov fun q hq hq' => ?_
  rw [covers_iff] at hcov hq'
  have := openCentres_apart v (by omega) p hp q hq
  exact this.resolve_right (by omega)

theorem alignedGrid_of_not_covers (h : ∀ p ∈ openCentres v, ¬Covers p r c) :
    alignedGrid v r c = finderGrid (side v) r c := by
  rw [alignedGrid, alignPlaced_eq_openCentres v (by omega)]
  exact alignGrid_of_not_covers h

theorem not_covers_of_finder (h : IsFinderCell (side v) r c) : ∀ p ∈ openCentres v, ¬Covers p r c := by
  intro p hp hcov
  obtain ⟨hrow, hcol, hplace⟩ := openCentres_place v (by omega) p hp
  rw [covers_iff] at hcov
  unfold IsFinderCell at h
  omega

theorem not_covers_of_outside (h : side v ≤ r ∨ side v ≤ c) : ∀ p ∈ openCentres v, ¬Covers p r c := by
  intro p hp hcov
  obtain ⟨hrow, hcol, -⟩ := openCentres_place v (by omega) p hp
  rw [covers_iff] at hcov
  omega

/-- Nothing is painted outside the symbol. -/
theorem structGrid_of_outside (h : side v ≤ r ∨ side v ≤ c) : structGrid v r c = ⟨false, false⟩ := by
  have hn := le_side h1
  have hformat : ¬isFormatCell (side v) r c = true := by rw [isFormatCell_iff hn]; omega
  rw [structGrid_eq, if_neg (by omega), if_neg hformat, if_neg (by omega), if_neg (by omega),
    alignedGrid_of_not_covers h1 h10 (not_covers_of_outside h1 h10 h), finderGrid_outside h]

omit h10 in
/-- A cell reserved before them, and off the areas of R228-R230, is not painted again. -/
theorem structGrid_of_reserved (hrsv : (alignedGrid v r c).rsv = true) (hdark : ¬(r = side v - 8 ∧ c = 8))
    (hstrip : ¬IsStripCell (side v) r c) (hversion : ¬IsVersionCell (side v) r c) :
    structGrid v r c = alignedGrid v r c := by
  have hformat : ¬isFormatCell (side v) r c = true := by rw [isFormatCell_iff (le_side h1)]; omega
  rw [structGrid_eq, if_neg fun h => hversion h.2, if_neg hformat, if_neg hdark, if_neg (by simp [hrsv])]

theorem structGrid_of_finder (hr : r < side v) (hc : c < side v) (h : IsFinderCell (side v) r c) :
    structGrid v r c = finderGrid (side v) r c := by
  have hn := le_side h1
  have haligned := alignedGrid_of_not_covers h1 h10 (not_covers_of_finder h1 h10 h)
  have hrsv := haligned ▸ (rsv_finderGrid_iff hn hr hc).2 h
  unfold IsFinderCell at h
  rw [← haligned]
  exact structGrid_of_reserved h1 hrsv (by omega) (by omega) (by omega)

theorem structGrid_of_covers {p : Nat × Nat} (hp : p ∈ openCentres v) (hcov : Covers p r c) :
    structGrid v r c = alignCell p r c := by
  obtain ⟨hrow, hcol, hplace⟩ := openCentres_place v (by omega) p hp
  have haligned := alignedGrid_of_covers h1 h10 hp hcov
  rw [covers_iff] at hcov
  rw [← haligned]
  exact structGrid_of_reserved h1 (by rw [haligned]; rfl) (by omega) (by omega) (by omega)

/-- A cell of the symbol off the finders and the alignment patterns is what R227-R230 give it, or free. -/
theorem toByte_structGrid_of_open (hr : r < side v) (hc : c < side v) (hfinder : ¬IsFinderCell (side v) r c)
    (h : ∀ p ∈ openCentres v, ¬Covers p r c) :
    (structGrid v r c).toByte =
      if r = 6 then (if c % 2 = 0 then 0x03 else 0x02)
      else if c = 6 then (if r % 2 = 0 then 0x03 else 0x02)
      else if r = side v - 8 ∧ c = 8 then 0x03
      else if IsStripCell (side v) r c then 0x02
      else if 7 ≤ v ∧ IsVersionCell (side v) r c then 0x02
      else 0x00 := by
  have hn := le_side h1
  unfold IsFinderCell at hfinder
  have hclear : alignedGrid v r c = ⟨false, false⟩ := by
    rw [alignedGrid_of_not_covers h1 h10 h, finderGrid_eq hn hr hc, if_neg (by omega), if_neg (by omega),
      if_neg (by omega)]
  have hpainted := structGrid_eq v r c
  simp only [hclear, isFormatCell_iff hn, hr, hc, true_and] at hpainted
  by_cases hrow : r = 6
  · rw [hpainted, if_neg (by omega), if_neg (by omega), if_neg (by omega), if_pos (.inl hrow), if_pos hrow, if_pos hrow,
      toByte_reserved]
    simp only [beq_iff_eq]
  rw [if_neg hrow] at hpainted ⊢
  by_cases hcol : c = 6
  · rw [hpainted, if_neg (by omega), if_neg (by omega), if_neg (by omega), if_pos (.inr hcol), if_pos hcol,
      toByte_reserved]
    simp only [beq_iff_eq]
  rw [if_neg (by omega : ¬(r = 6 ∨ c = 6))] at hpainted
  rw [if_neg hcol]
  by_cases hdark : r = side v - 8 ∧ c = 8
  · rw [hpainted, if_neg (by omega), if_neg (by omega), if_pos hdark, if_pos hdark]
    rfl
  rw [if_neg hdark] at hpainted ⊢
  by_cases hstrip : IsStripCell (side v) r c
  · rw [hpainted, if_neg (by omega), if_pos (by omega), if_pos hstrip]
    rfl
  rw [if_neg hstrip, hpainted, if_neg (c := _ ∨ _) (by omega), apply_ite ModuleCell.toByte]
  rfl

/-- The two readings of R222-R230 agree: what the patterns paint and what the regions give. -/
theorem toByte_structGrid : (structGrid v r c).toByte = structByte v r c := by
  have hn := le_side h1
  unfold structByte
  dsimp only
  rw [← side, ← alignCandidates, ← openCentres]
  by_cases hout : side v ≤ r ∨ side v ≤ c
  · rw [structGrid_of_outside h1 h10 hout, if_pos hout]
    rfl
  rw [if_neg hout]
  have hr : r < side v := by omega
  have hc : c < side v := by omega
  have hfinder := fun h => (structGrid_of_finder h1 h10 hr hc h).trans (finderGrid_eq hn hr hc)
  by_cases htl : r < 8 ∧ c < 8
  · rw [if_pos htl, hfinder (.inl htl), if_pos htl, toByte_ringCell]
  by_cases htr : r < 8 ∧ side v - 8 ≤ c
  · rw [if_neg htl, if_pos htr, hfinder (.inr (.inl htr)), if_neg htl, if_pos htr, toByte_ringCell]
  by_cases hbl : side v - 8 ≤ r ∧ c < 8
  · rw [if_neg htl, if_neg htr, if_pos hbl, hfinder (.inr (.inr hbl)), if_neg htl, if_neg htr, if_pos hbl,
      toByte_ringCell]
  rw [if_neg htl, if_neg htr, if_neg hbl]
  split
  next p hfind =>
    have hcov := List.find?_some hfind
    rw [Bool.and_eq_true, decide_eq_true_eq, decide_eq_true_eq] at hcov
    rw [structGrid_of_covers h1 h10 (List.mem_of_find?_eq_some hfind) hcov, alignCell, toByte_reserved]
    simp only [decide_eq_true_eq, ite_not]
  next hfind =>
    refine toByte_structGrid_of_open h1 h10 hr hc (by unfold IsFinderCell; omega) fun p hp hcov => ?_
    exact List.find?_eq_none.1 hfind p hp (by simpa [Covers] using hcov)

end Regions

/-! ### MATRIX_INIT (R221) -/

theorem structCells_eq (v : Nat) : structCells v = gridCells (structGrid v) := rfl

/-- What MATRIX holds after MATRIX_INIT, and that no other byte changes. -/
theorem byteAt_store_structCells {s : State} (hm : s.mem.wf = true) (v a : Nat) :
    (s.store (structCells v)).byteAt a =
      if matrixBase ≤ a ∧ a < matrixBase + 4096 then
        some (structGrid v ((a - matrixBase) / 64) ((a - matrixBase) % 64)).toByte else s.byteAt a := by
  rw [structCells_eq, byteAt_store (wf_rising (wf_gridCells _)) hm, memRead_gridCells]
  split
  · rfl
  · exact Option.none_or

/-- Settles O45: the one store of its body is the structural matrix, whose cells `toByte_structGrid` reads off region by
region. -/
theorem matrixInitResult : Obligations.MatrixInitResult := by
  unfold Obligations.MatrixInitResult
  refine fun s hm => ⟨fun h1 h10 => ?_, fun hver => ?_⟩
  · have hbody : matrixInitBody s = .ok (s.store (structCells s.ver)) :=
      withVersion_valid ((validVersion_iff s.ver).2 ⟨h1, h10⟩) _
    refine ⟨_, exec_of_ok .matrixInit hbody, completeDone_store .., fun r hr c hc => ?_, fun a ha => ?_⟩
    · rw [completeDone_byteAt, byteAt_store_structCells hm, if_pos (by omega), toByte_structGrid h1 h10,
        show (matrixBase + 64 * r + c - matrixBase) / 64 = r by omega,
        show (matrixBase + 64 * r + c - matrixBase) % 64 = c by omega]
    · rw [completeDone_byteAt, byteAt_store_structCells hm, if_neg ha]
  · have hbody : matrixInitBody s = raise .badVersion s := withVersion_invalid (validVersion_eq_false hver) _
    exact exec_of_raise .matrixInit hbody

end Sys2Proof.Proofs
end

section
/-! PROOF. The structural counts (O46): the reserved cells of a version are rectangles that lie apart, so their areas
add up, and the free cells are the rest. -/

namespace Sys2Proof.Proofs

open Sys2Proof.Machine Sys2Proof.Laws

/-! ### Cells in rectangles -/

/-- A rectangle of cells. -/
structure CellBox where
  row : Nat
  col : Nat
  height : Nat
  width : Nat

def CellBox.cells (b : CellBox) : Finset (Nat × Nat) :=
  Finset.Ico b.row (b.row + b.height) ×ˢ Finset.Ico b.col (b.col + b.width)

/-- The two rectangles lie apart, in rows or in columns. -/
def CellBox.apart (a b : CellBox) : Bool :=
  a.row + a.height ≤ b.row || b.row + b.height ≤ a.row || a.col + a.width ≤ b.col || b.col + b.width ≤ a.col

theorem CellBox.mem_cells (b : CellBox) (r c : Nat) :
    (r, c) ∈ b.cells ↔ (b.row ≤ r ∧ r < b.row + b.height) ∧ b.col ≤ c ∧ c < b.col + b.width := by
  rw [cells, Finset.mem_product, Finset.mem_Ico, Finset.mem_Ico]

theorem CellBox.card_cells (b : CellBox) : b.cells.card = b.height * b.width := by
  rw [cells, Finset.card_product, Nat.card_Ico, Nat.card_Ico, Nat.add_sub_cancel_left, Nat.add_sub_cancel_left]

theorem CellBox.not_mem_of_apart {a b : CellBox} (h : a.apart b = true) {p : Nat × Nat} (ha : p ∈ a.cells) :
    p ∉ b.cells := by
  obtain ⟨r, c⟩ := p
  simp only [apart, Bool.or_eq_true, decide_eq_true_eq] at h
  rw [mem_cells] at ha ⊢
  omega

/-- The areas of rectangles that lie apart add up. -/
theorem card_of_boxes {bs : List CellBox} (hapart : bs.Pairwise fun a b => a.apart b = true) {S : Finset (Nat × Nat)}
    (hS : ∀ p, p ∈ S ↔ ∃ b ∈ bs, p ∈ b.cells) : S.card = (bs.map fun b => b.height * b.width).sum := by
  induction bs generalizing S with
  | nil =>
    rw [Finset.eq_empty_of_forall_notMem (s := S) fun p hp => by simpa using (hS p).1 hp]
    rfl
  | cons b bs ih =>
    obtain ⟨hb, hapart⟩ := List.pairwise_cons.1 hapart
    have hsub : b.cells ⊆ S := fun p hp => (hS p).2 ⟨b, List.mem_cons_self, hp⟩
    have hrest : ∀ p, p ∈ S \ b.cells ↔ ∃ b' ∈ bs, p ∈ b'.cells := by
      intro p
      rw [Finset.mem_sdiff, hS, List.exists_mem_cons_iff]
      constructor
      · rintro ⟨h | h, hp⟩
        · exact absurd h hp
        · exact h
      · rintro ⟨b', hb', hp⟩
        exact ⟨.inr ⟨b', hb', hp⟩, fun h => CellBox.not_mem_of_apart (hb b' hb') h hp⟩
    rw [List.map_cons, List.sum_cons, ← ih hapart hrest, ← CellBox.card_cells, Nat.add_comm,
      Finset.card_sdiff_add_card_eq_card hsub]

/-! ### The reserved cells as rectangles (R231) -/

/-- The part of an alignment pattern off the timing lines (R225, R227). -/
def alignBoxes (p : Nat × Nat) : List CellBox :=
  if p.1 = 6 then [⟨4, p.2 - 2, 2, 5⟩, ⟨7, p.2 - 2, 2, 5⟩]
  else if p.2 = 6 then [⟨p.1 - 2, 4, 5, 2⟩, ⟨p.1 - 2, 7, 5, 2⟩]
  else [⟨p.1 - 2, p.2 - 2, 5, 5⟩]

/-- The finders with their separators (R223). -/
def finderBoxes (n : Nat) : List CellBox := [⟨0, 0, 8, 8⟩, ⟨0, n - 8, 8, 8⟩, ⟨n - 8, 0, 8, 8⟩]

/-- The timing lines between the finders (R227). -/
def timingBoxes (n : Nat) : List CellBox := [⟨6, 8, 1, n - 16⟩, ⟨8, 6, n - 16, 1⟩]

/-- The format strips, the dark module on top of the last (R228, R229). -/
def formatBoxes (n : Nat) : List CellBox :=
  [⟨8, 0, 1, 6⟩, ⟨8, 7, 1, 2⟩, ⟨0, 8, 6, 1⟩, ⟨7, 8, 1, 1⟩, ⟨8, n - 8, 1, 8⟩, ⟨n - 8, 8, 8, 1⟩]

/-- The version areas (R230). -/
def versionBoxes (v : Nat) : List CellBox :=
  if 7 ≤ v then [⟨0, side v - 11, 6, 3⟩, ⟨side v - 11, 0, 3, 6⟩] else []

/-- The reserved cells of version `v` as rectangles (R223-R230). -/
def reservedBoxes (v : Nat) : List CellBox :=
  finderBoxes (side v) ++ (timingBoxes (side v) ++ (formatBoxes (side v) ++ (versionBoxes v ++
    (openCentres v).flatMap alignBoxes)))

theorem reservedBoxes_apart : ∀ v < 11, (reservedBoxes v).Pairwise fun a b => a.apart b = true := by decide

/-- The rectangles of a legal version lie in its symbol. -/
theorem reservedBoxes_inside : ∀ v < 11, ∀ b ∈ reservedBoxes v, 1 ≤ v →
    b.row + b.height ≤ side v ∧ b.col + b.width ≤ side v := by decide

theorem exists_mem_alignBoxes_iff {n : Nat} {p : Nat × Nat} (hplace : StandsClear n p) (r c : Nat) :
    (∃ b ∈ alignBoxes p, (r, c) ∈ b.cells) ↔ Covers p r c ∧ ¬(r = 6 ∨ c = 6) := by
  rw [covers_iff, alignBoxes]
  split_ifs <;>
    simp only [List.exists_mem_cons_iff, List.not_mem_nil, false_and, exists_false, or_false, CellBox.mem_cells] <;>
    omega

theorem exists_mem_append_iff {α : Type} {P : α → Prop} {xs ys : List α} :
    (∃ x ∈ xs ++ ys, P x) ↔ (∃ x ∈ xs, P x) ∨ ∃ x ∈ ys, P x := by
  simp only [List.mem_append, or_and_right, exists_or]

theorem exists_mem_finderBoxes_iff {n : Nat} (hn : 21 ≤ n) {r c : Nat} (hr : r < n) (hc : c < n) :
    (∃ b ∈ finderBoxes n, (r, c) ∈ b.cells) ↔ IsFinderCell n r c := by
  simp only [finderBoxes, List.exists_mem_cons_iff, List.not_mem_nil, false_and, exists_false, or_false,
    CellBox.mem_cells, IsFinderCell]
  omega

/-- A timing line crosses the finders and stands for itself between them. -/
theorem finder_or_exists_mem_timingBoxes_iff {n : Nat} (hn : 21 ≤ n) {r c : Nat} (hr : r < n) (hc : c < n) :
    (IsFinderCell n r c ∨ ∃ b ∈ timingBoxes n, (r, c) ∈ b.cells) ↔ IsFinderCell n r c ∨ r = 6 ∨ c = 6 := by
  simp only [timingBoxes, List.exists_mem_cons_iff, List.not_mem_nil, false_and, exists_false, or_false,
    CellBox.mem_cells, IsFinderCell]
  omega

theorem exists_mem_formatBoxes_iff {n : Nat} (hn : 21 ≤ n) {r c : Nat} (hr : r < n) (hc : c < n) :
    (∃ b ∈ formatBoxes n, (r, c) ∈ b.cells) ↔ isFormatCell n r c = true ∨ (r = n - 8 ∧ c = 8) := by
  simp only [formatBoxes, List.exists_mem_cons_iff, List.not_mem_nil, false_and, exists_false, or_false,
    CellBox.mem_cells, isFormatCell_iff hn]
  omega

theorem exists_mem_versionBoxes_iff {v : Nat} (h1 : 1 ≤ v) (r c : Nat) :
    (∃ b ∈ versionBoxes v, (r, c) ∈ b.cells) ↔ v ≥ 7 ∧ IsVersionCell (side v) r c := by
  have hn := le_side h1
  rw [versionBoxes]
  split_ifs with hv
  · simp only [List.exists_mem_cons_iff, List.not_mem_nil, false_and, exists_false, or_false, CellBox.mem_cells]
    omega
  · simp only [List.not_mem_nil, false_and, exists_false, false_iff]
    omega

/-- The rectangles of the alignment patterns are their squares off the timing lines. -/
theorem exists_mem_flatMap_alignBoxes_iff {v : Nat} (h10 : v ≤ 10) (r c : Nat) :
    (∃ b ∈ (openCentres v).flatMap alignBoxes, (r, c) ∈ b.cells) ↔
      (∃ p ∈ openCentres v, Covers p r c) ∧ ¬(r = 6 ∨ c = 6) := by
  have hplace := fun p hp => exists_mem_alignBoxes_iff (openCentres_place v (by omega) p hp).2.2 r c
  constructor
  · rintro ⟨b, hb, hmem⟩
    obtain ⟨p, hp, hb⟩ := List.mem_flatMap.1 hb
    obtain ⟨hcov, hoff⟩ := (hplace p hp).1 ⟨b, hb, hmem⟩
    exact ⟨⟨p, hp, hcov⟩, hoff⟩
  · rintro ⟨⟨p, hp, hcov⟩, hoff⟩
    obtain ⟨b, hb, hmem⟩ := (hplace p hp).2 ⟨hcov, hoff⟩
    exact ⟨b, List.mem_flatMap.2 ⟨p, hp, hb⟩, hmem⟩

/-! ### The reserved cells, counted (R231) -/

section Counts

variable {v : Nat} (h1 : 1 ≤ v) (h10 : v ≤ 10)
include h1 h10

theorem rsv_alignedGrid_iff {r c : Nat} (hr : r < side v) (hc : c < side v) :
    (alignedGrid v r c).rsv = true ↔ (∃ p ∈ openCentres v, Covers p r c) ∨ IsFinderCell (side v) r c := by
  by_cases hcov : ∃ p ∈ openCentres v, Covers p r c
  · obtain ⟨p, hp, hpc⟩ := hcov
    rw [alignedGrid_of_covers h1 h10 hp hpc]
    exact ⟨fun _ => .inl ⟨p, hp, hpc⟩, fun _ => rfl⟩
  · rw [alignedGrid_of_not_covers h1 h10 fun p hp h => hcov ⟨p, hp, h⟩, rsv_finderGrid_iff (le_side h1) hr hc,
      or_iff_right hcov]

theorem rsv_structGrid_iff {r c : Nat} (hr : r < side v) (hc : c < side v) :
    (structGrid v r c).rsv = true ↔
      (v ≥ 7 ∧ IsVersionCell (side v) r c) ∨ isFormatCell (side v) r c = true ∨ (r = side v - 8 ∧ c = 8) ∨
        (r = 6 ∨ c = 6) ∨ IsFinderCell (side v) r c ∨ ∃ p ∈ openCentres v, Covers p r c := by
  rw [structGrid_eq, Or.comm (a := IsFinderCell ..), ← rsv_alignedGrid_iff h1 h10 hr hc]
  simp only [rsv_ite_iff, hr, hc, true_and]
  cases (alignedGrid v r c).rsv
  · simp only [true_and]
  · simp only [or_true]

theorem lt_side_of_mem_reservedBoxes {r c : Nat} (h : ∃ b ∈ reservedBoxes v, (r, c) ∈ b.cells) :
    r < side v ∧ c < side v := by
  obtain ⟨b, hb, hmem⟩ := h
  have := reservedBoxes_inside v (by omega) b hb h1
  rw [CellBox.mem_cells] at hmem
  omega

/-- In the symbol, a cell lies in one of the rectangles if and only if it is reserved. -/
theorem exists_mem_reservedBoxes_iff {r c : Nat} (hr : r < side v) (hc : c < side v) :
    (∃ b ∈ reservedBoxes v, (r, c) ∈ b.cells) ↔ (structGrid v r c).rsv = true := by
  have hn := le_side h1
  rw [rsv_structGrid_iff h1 h10 hr hc, reservedBoxes, exists_mem_append_iff, exists_mem_append_iff,
    exists_mem_append_iff, exists_mem_append_iff, exists_mem_finderBoxes_iff hn hr hc, ← or_assoc,
    finder_or_exists_mem_timingBoxes_iff hn hr hc, exists_mem_formatBoxes_iff hn hr hc,
    exists_mem_versionBoxes_iff h1, exists_mem_flatMap_alignBoxes_iff h10]
  by_cases htiming : r = 6 ∨ c = 6
  · simp only [htiming, true_or, or_true]
  · simp only [htiming, false_or, or_false, not_false_eq_true, and_true]
    exact iff_of_eq (by ac_rfl)

theorem length_reserved :
    ((symbolCells (side v)).filter fun p => (structGrid v p.1 p.2).rsv).length =
      ((reservedBoxes v).map fun b => b.height * b.width).sum := by
  have hnodup : (symbolCells (side v)).Nodup := List.nodup_range.product List.nodup_range
  rw [← List.toFinset_card_of_nodup (hnodup.filter _)]
  refine card_of_boxes (reservedBoxes_apart v (by omega)) fun p => ?_
  rw [List.mem_toFinset, List.mem_filter, mem_symbolCells]
  constructor
  · rintro ⟨⟨hr, hc⟩, hrsv⟩
    exact (exists_mem_reservedBoxes_iff h1 h10 hr hc).2 hrsv
  · intro hbox
    obtain ⟨hr, hc⟩ := lt_side_of_mem_reservedBoxes h1 h10 hbox
    exact ⟨⟨hr, hc⟩, (exists_mem_reservedBoxes_iff h1 h10 hr hc).1 hbox⟩

end Counts

/-- The rows of R231: the areas of the rectangles, and the rest of the symbol. -/
theorem reservedBoxes_area : ∀ row ∈ [(1, 233, 208), (2, 266, 359), (3, 274, 567), (4, 282, 807), (5, 290, 1079),
      (6, 298, 1383), (7, 457, 1568), (8, 465, 1936), (9, 473, 2336), (10, 481, 2768)],
    (1 ≤ row.1 ∧ row.1 ≤ 10) ∧ ((reservedBoxes row.1).map fun b => b.height * b.width).sum = row.2.1 ∧
      side row.1 * side row.1 = row.2.1 + row.2.2 := by decide

/-- Settles O46: the reserved cells are the rectangles' (`length_reserved`), and the free cells are the rest. -/
theorem structureCellCounts : Obligations.StructureCellCounts := by
  unfold Obligations.StructureCellCounts
  intro row hrow
  obtain ⟨⟨h1, h10⟩, harea, hside⟩ := reservedBoxes_area row hrow
  have hreserved := (length_reserved h1 h10).trans harea
  have hcells : (symbolCells (side row.1)).length = side row.1 * side row.1 := by simp [symbolCells]
  have hsplit := List.length_eq_length_filter_add (l := symbolCells (side row.1)) fun p =>
    (structGrid row.1 p.1 p.2).rsv
  exact ⟨hreserved, by omega⟩

end Sys2Proof.Proofs
end

section
/-! PROOF. The zig-zag order (O47): in traversal order the cells of the column pairs have the ranks 0, 1, 2 and so on. -/

namespace Sys2Proof.Proofs

open Sys2Proof.Machine Sys2Proof.Laws

/-! ### The column pairs (R262) -/

/-- The right column of pair `i` of the `m` pairs of a symbol of side `2m + 1`: from column 6 on, one further left. -/
def pairRight (m i : Nat) : Nat := if i + 3 < m then 2 * (m - i) else 2 * (m - i) - 1

/-- Pair `i` with its direction, upward in even pairs. -/
def columnPair (m i : Nat) : Nat × Bool := (pairRight m i, i % 2 == 0)

/-- The generator from pair `i` on: it stands at column 6 where pair `i` starts at column 5. -/
theorem columnPairs_eq {m fuel i right : Nat} (hfuel : m ≤ i + fuel)
    (hright : right = if i + 3 ≤ m then 2 * (m - i) else 2 * (m - i) - 1) :
    columnPairs fuel right (i % 2 == 0) = (List.range' i (m - i)).map (columnPair m) := by
  induction fuel generalizing i right with
  | zero =>
    rw [show m - i = 0 by omega]
    rfl
  | succ fuel ih =>
    rw [columnPairs]
    by_cases hi : i < m
    · have hskip : (if right = 6 then 5 else right) = pairRight m i := by
        rw [pairRight]
        split_ifs at hright ⊢ <;> omega
      have hup : (!(i % 2 == 0)) = ((i + 1) % 2 == 0) := by
        rcases Nat.mod_two_eq_zero_or_one i with h | h <;> simp [Nat.add_mod, h]
      have hnext : pairRight m i - 2 = if i + 1 + 3 ≤ m then 2 * (m - (i + 1)) else 2 * (m - (i + 1)) - 1 := by
        rw [pairRight]
        split_ifs <;> omega
      have hpos : right ≥ 1 := by split_ifs at hright <;> omega
      rw [if_pos hpos]
      dsimp only
      rw [hskip, hup, ih (by omega) hnext, show m - i = (m - (i + 1)) + 1 by omega, List.range'_succ, List.map_cons]
      rfl
    · have hend : ¬right ≥ 1 := by
        rw [if_neg (by omega)] at hright
        omega
      rw [if_neg hend, show m - i = 0 by omega]
      rfl

/-- The cells of all column pairs of a symbol of side `2m + 1`, in traversal order, reserved ones too. -/
def traversal (m : Nat) : List (Nat × Nat) := (List.range m).flatMap fun i => pairCells (2 * m + 1) (columnPair m i)

theorem zigzag_eq_filter_traversal {m : Nat} (hm : 3 ≤ m) (g : Grid) :
    zigzag (2 * m + 1) g = (traversal m).filter fun p => !(g p.1 p.2).rsv := by
  have hpairs := columnPairs_eq (m := m) (fuel := 2 * m + 1) (i := 0) (right := 2 * m) (by omega) (by rw [if_pos (by omega)]; rfl)
  rw [zigzag, traversal, List.range_eq_range', ← List.flatMap_map (columnPair m) (pairCells (2 * m + 1))]
  exact congrArg (fun pairs => (List.flatMap (pairCells (2 * m + 1)) pairs).filter _) hpairs

/-! ### Which cells are traversed -/

theorem mem_pairCells {n r c : Nat} {pair : Nat × Bool} :
    (r, c) ∈ pairCells n pair ↔ r < n ∧ (c = pair.1 ∨ c = pair.1 - 1) := by
  simp only [pairCells, List.mem_flatMap, List.mem_range, List.mem_cons, List.not_mem_nil, or_false, Prod.mk.injEq,
    ← and_or_left]
  constructor
  · rintro ⟨k, hk, hrow, hcol⟩
    exact ⟨by split_ifs at hrow <;> omega, hcol⟩
  · rintro ⟨hr, hcol⟩
    exact ⟨if pair.2 then n - 1 - r else r, by split_ifs <;> omega, by split_ifs <;> omega, hcol⟩

/-- The columns of the pairs are those of the symbol but column 6. -/
theorem exists_pairRight_iff {m c : Nat} (hm : 3 ≤ m) :
    (∃ i < m, c = pairRight m i ∨ c = pairRight m i - 1) ↔ c < 2 * m + 1 ∧ c ≠ 6 := by
  constructor
  · rintro ⟨i, hi, hcol⟩
    rw [pairRight] at hcol
    split_ifs at hcol <;> omega
  · rintro ⟨hc, h6⟩
    refine ⟨pairIndex (2 * m + 1) c, ?_⟩
    rw [pairRight, pairIndex]
    split_ifs <;> omega

theorem mem_traversal {m r c : Nat} (hm : 3 ≤ m) :
    (r, c) ∈ traversal m ↔ r < 2 * m + 1 ∧ c < 2 * m + 1 ∧ c ≠ 6 := by
  rw [← exists_pairRight_iff hm]
  simp only [traversal, List.mem_flatMap, List.mem_range, mem_pairCells, columnPair]
  exact ⟨fun ⟨i, hi, hr, hcol⟩ => ⟨hr, i, hi, hcol⟩, fun ⟨hr, i, hi, hcol⟩ => ⟨i, hi, hr, hcol⟩⟩

/-! ### In which order -/

/-- The rank of the cell `d` columns left of the right one, in the row traversed `k`-th. -/
theorem zigzagRank_columnPair {n m i k d : Nat} (hn : n = 2 * m + 1) (hi : i < m) (hk : k < n) (hd : d < 2) :
    zigzagRank n (if i % 2 == 0 then n - 1 - k else k, pairRight m i - d) = 2 * n * i + 2 * k + d := by
  have hindex : pairIndex n (pairRight m i - d) = i := by
    rw [pairIndex, pairRight]
    split_ifs <;> omega
  have hrow : (if i % 2 = 0 then n - 1 - (if i % 2 = 0 then n - 1 - k else k) else if i % 2 = 0 then n - 1 - k else k) =
      k := by
    split_ifs <;> omega
  have hleft : (if 6 < pairRight m i - d then (pairRight m i - d) % 2 else (pairRight m i - d + 1) % 2) = d := by
    rw [pairRight]
    split_ifs <;> omega
  simp only [zigzagRank, hindex, beq_iff_eq]
  rw [hrow, hleft]

/-- Consecutive runs of `w` numbers are one run. -/
theorem flatMap_range'_eq (base w m : Nat) :
    ((List.range m).flatMap fun i => List.range' (base + w * i) w) = List.range' base (w * m) := by
  induction m with
  | zero => rfl
  | succ m ih =>
    rw [List.range_succ, List.flatMap_append, ih, List.flatMap_cons, List.flatMap_nil, List.append_nil, Nat.mul_succ,
      ← List.range'_append, Nat.one_mul]

theorem map_zigzagRank_pairCells {n m i : Nat} (hn : n = 2 * m + 1) (hi : i < m) :
    (pairCells n (columnPair m i)).map (zigzagRank n) = List.range' (2 * n * i) (2 * n) := by
  rw [← flatMap_range'_eq, pairCells, List.map_flatMap]
  refine List.flatMap_congr fun k hk => ?_
  have hrank := fun d => zigzagRank_columnPair (d := d) hn hi (List.mem_range.1 hk)
  exact congrArg₂ (fun a b => [a, b]) (hrank 0 (by decide)) (hrank 1 (by decide))

/-- The traversal takes the cells by rising rank, with no gap. -/
theorem map_zigzagRank_traversal (m : Nat) :
    (traversal m).map (zigzagRank (2 * m + 1)) = List.range' 0 (2 * (2 * m + 1) * m) := by
  rw [← flatMap_range'_eq, traversal, List.map_flatMap]
  refine List.flatMap_congr fun i hi => ?_
  rw [map_zigzagRank_pairCells rfl (List.mem_range.1 hi), Nat.zero_add]

theorem side_eq (v : Nat) : side v = 2 * (2 * v + 8) + 1 := by
  unfold side
  omega

/-- Settles O47: the generator visits the cells of `traversal` that are free, and their ranks are a part of `0, 1, 2, …`. -/
theorem zigzagVisitsFreeCellsInOrder : Obligations.ZigzagVisitsFreeCellsInOrder := by
  unfold Obligations.ZigzagVisitsFreeCellsInOrder
  intro v g _ _
  have hm : 3 ≤ 2 * v + 8 := by omega
  rw [side_eq, zigzag_eq_filter_traversal hm]
  refine ⟨fun r c => ?_, ?_⟩
  · rw [List.mem_filter, mem_traversal hm, Bool.not_eq_true', and_assoc, and_assoc]
  · have hranks : ((traversal (2 * v + 8)).map (zigzagRank (2 * (2 * v + 8) + 1))).Pairwise (· < ·) := by
      rw [map_zigzagRank_traversal]
      exact List.pairwise_lt_range'
    exact (List.pairwise_map.1 hranks).filter _

end Sys2Proof.Proofs
end

section
/-! PROOF. PLACE_DATA (O48): the traversal names no cell twice, so the bit placed in a cell is the one that stays there. -/

namespace Sys2Proof.Proofs

open Sys2Proof.Machine Sys2Proof.Laws

/-! ### The symbol in memory -/

/-- The cells of the symbol as a command finds them, row by row. -/
def cellsIn (s : State) (n : Nat) : List ModuleCell := (symbolCells n).map fun p => s.cellAt p.1 p.2

theorem loadSymbol_of_written {s : State} (hm : s.mem.wf = true) {n : Nat} (hn : n ≤ 64) (hw : s.SymbolWritten n)
    (k : List ModuleCell → Except Stop State) : s.loadSymbol n k = k (cellsIn s n) := by
  have hsome : ∀ a ∈ symbolAddrs n, (s.byteAt a).isSome := fun a ha => by
    obtain ⟨p, hp, rfl⟩ := List.mem_map.1 ha
    obtain ⟨hr, hc⟩ := mem_symbolCells.1 hp
    exact hw _ hr _ hc
  rw [State.loadSymbol, load_of_known hm (known_imageOf s) (addrsRise_symbolAddrs hn) hsome, symbolAddrs, List.map_map,
    List.map_map]
  rfl

theorem gridOf_cellsIn (s : State) {n r c : Nat} (hr : r < n) (hc : c < n) :
    gridOf n (cellsIn s n) r c = s.cellAt r c := by
  have hget : (symbolCells n)[n * r + c]? = some (r, c) := by
    rw [symbolCells, getElem?_flatMap_range (fun _ _ => by simp) hr (by simpa using hc)]
    simp [hc]
  rw [gridOf, List.getD_eq_getElem?_getD, cellsIn, List.getElem?_map, hget]
  rfl

/-- The order depends on the RSV bits of the symbol alone (R262). -/
theorem zigzag_congr {n : Nat} {g g' : Grid} (h : ∀ r < n, ∀ c < n, (g r c).rsv = (g' r c).rsv) : zigzag n g = zigzag n g' := by
  refine List.filter_congr fun p hp => ?_
  have hall : p ∈ zigzag n clearGrid := List.mem_filter.2 ⟨hp, rfl⟩
  obtain ⟨hr, hc⟩ := zigzag_lt hall
  rw [h _ hr _ hc]

/-- The addresses of the visited cells are distinct. -/
theorem nodup_zigzag_addrs {v : Nat} (hv : validVersion v = true) (g : Grid) :
    ((zigzag (side v) g).map fun p => cellAddr p.1 p.2).Nodup := by
  obtain ⟨h1, h10⟩ := (validVersion_iff v).1 hv
  obtain ⟨-, -, -, -, hside, -⟩ := profile_bounds hv
  obtain ⟨-, hrank⟩ := zigzagVisitsFreeCellsInOrder v g h1 h10
  have hnodup : (zigzag (side v) g).Nodup := hrank.imp fun hlt heq => by rw [heq] at hlt; omega
  refine hnodup.map_on fun p hp q hq haddr => ?_
  have hp := zigzag_lt hp
  have hq := zigzag_lt hq
  obtain ⟨hr, hc⟩ := cellAddr_inj (by omega) (by omega) haddr
  exact Prod.ext hr hc

/-! ### The bits of the stream and the cells they go to (R261, R263) -/

theorem getElem?_streamBits (W : List Byte) (i : Nat) :
    (streamBits W)[i]? = if i < 8 * W.length then some (streamBit W i) else none := by
  induction W generalizing i with
  | nil => simp [streamBits]
  | cons b W ih =>
    rw [streamBits_cons, List.length_cons]
    by_cases hi : i < 8
    · rw [List.getElem?_append_left (by rwa [bitsOf_length]), getElem?_bitsOf, if_pos hi, if_pos (by omega), streamBit,
        Nat.div_eq_of_lt hi, Nat.mod_eq_of_lt hi]
      rfl
    · rw [List.getElem?_append_right (by rw [bitsOf_length]; omega), bitsOf_length, ih, streamBit, streamBit,
        show i / 8 = (i - 8) / 8 + 1 by omega, show i % 8 = (i - 8) % 8 by omega, List.getD_cons_succ]
      exact if_congr (by omega) rfl rfl

theorem toByte_free (b : Bool) : (ModuleCell.mk b false).toByte = if b then 0x01 else 0x00 := by cases b <;> rfl

theorem map_fst_placements (free : List (Nat × Nat)) (bits : List Bool) :
    (placements free bits).map Prod.fst = free.map fun p => cellAddr p.1 p.2 := by
  have hzip : (free.zip (bits ++ List.replicate free.length false)).map Prod.fst = free := List.map_fst_zip (by simp)
  conv_rhs => rw [← hzip]
  rw [placements, List.map_map, List.map_map]
  rfl

/-- The `i`-th free cell is given bit `i`, and 0 where the bits have run out. -/
theorem mem_placements {free : List (Nat × Nat)} {i : Nat} (hi : i < free.length) (bits : List Bool) :
    (cellAddr free[i].1 free[i].2, (ModuleCell.mk (bits[i]?.getD false) false).toByte) ∈ placements free bits := by
  have hbit : (bits ++ List.replicate free.length false)[i]? = some (bits[i]?.getD false) := by
    by_cases hlt : i < bits.length
    · rw [List.getElem?_append_left hlt, List.getElem?_eq_getElem hlt, Option.getD_some]
    · rw [List.getElem?_append_right (by omega), List.getElem?_replicate, if_pos (by omega),
        List.getElem?_eq_none (by omega), Option.getD_none]
  have hzip : (free[i], bits[i]?.getD false) ∈ free.zip (bits ++ List.replicate free.length false) :=
    List.mem_of_getElem? (i := i) (List.getElem?_zip_eq_some.2 ⟨List.getElem?_eq_getElem hi, hbit⟩)
  exact List.mem_map_of_mem hzip

/-- Of writes to distinct keys each stands. -/
theorem memRead_memWriteAll_of_mem {α : Type} {writes m : List (Nat × α)} (hm : risingFrom 0 m = true)
    (hnodup : (writes.map Prod.fst).Nodup) {a : Nat} {b : α} (h : (a, b) ∈ writes) :
    memRead (memWriteAll writes m) a = some b := by
  obtain ⟨x, hx⟩ := memRead_of_mem_keys (m := writes.reverse) (List.mem_map_of_mem (List.mem_reverse.2 h))
  have heq := List.inj_on_of_nodup_map hnodup (List.mem_reverse.1 (memRead_some_mem hx)) h rfl
  rw [memRead_memWriteAll writes hm, hx, Option.some_or]
  exact congrArg (fun e => some e.2) heq

/-! ### Loads that fault -/

/-- A load goes on with what stands at its addresses, or faults at an unwritten byte (R60). -/
theorem load_written_or_faults {s : State} (hm : s.mem.wf = true) {lo : Nat} {addrs : List Nat} (ha : addrsRise lo addrs)
    (k : List Byte → Except Stop State) :
    (∃ bytes, addrs.map s.byteAt = bytes.map some ∧ s.load addrs k = k bytes) ∨
      ∃ a, s.byteAt a = none ∧ s.load addrs k = .error (.fault (.unwrittenRead a)) := by
  obtain ⟨bytes, hread, hload⟩ | ⟨a, hread, hload⟩ := load_cases s addrs k
  · exact .inl ⟨bytes, load_reads hm ha hread, hload⟩
  · exact .inr ⟨a, (memGather_error ha (wf_rising hm) hread).2, hload⟩

/-- A range whose load found bytes is written. -/
theorem written_of_reads {s : State} {base n : Nat} {bytes : List Byte}
    (h : (addrRange base n).map s.byteAt = bytes.map some) : s.Written base n := by
  intro i hi
  have hmem : s.byteAt (base + i) ∈ (addrRange base n).map s.byteAt :=
    List.mem_map_of_mem (mem_addrRange.2 ⟨by omega, by omega⟩)
  rw [h] at hmem
  obtain ⟨b, -, hb⟩ := List.mem_map.1 hmem
  rw [← hb]
  rfl

/-! ### PLACE_DATA (R260) -/

theorem placeDataBody_of_written {s : State} (hm : s.mem.wf = true) (hv : validVersion s.ver = true)
    (hw : s.SymbolWritten (side s.ver)) {W : List Byte} (hlen : W.length = ntotal s.ver) (hold : s.Holds icwBase W) :
    placeDataBody s =
      .ok { s with mem := memWriteAll (placements (zigzag (side s.ver) s.cellAt) (streamBits W)) s.mem } := by
  obtain ⟨-, -, -, -, hside, -⟩ := profile_bounds hv
  rw [placeDataBody, withVersion_valid hv, loadSymbol_of_written hm (by omega) hw, ← hlen]
  dsimp only
  rw [load_of_reads hm (addrsRise_addrRange icwBase W.length) (reads_of_holds hold),
    zigzag_congr fun r hr c hc => congrArg ModuleCell.rsv (gridOf_cellsIn s hr hc)]

/-- The load of the symbol or that of the codewords faults. -/
theorem placeDataBody_of_unwritten {s : State} (hm : s.mem.wf = true) (hv : validVersion s.ver = true)
    (hicw : ¬s.Written icwBase (ntotal s.ver)) :
    ∃ a, s.byteAt a = none ∧ placeDataBody s = .error (.fault (.unwrittenRead a)) := by
  obtain ⟨-, -, -, -, hside, -⟩ := profile_bounds hv
  rw [placeDataBody, withVersion_valid hv, State.loadSymbol]
  obtain ⟨bytes, -, hload⟩ | h := load_written_or_faults hm (addrsRise_symbolAddrs (n := side s.ver) (by omega)) _
  · rw [hload]
    obtain ⟨codewords, hread, -⟩ | h := load_written_or_faults hm (addrsRise_addrRange icwBase (ntotal s.ver)) _
    · exact absurd (written_of_reads hread) hicw
    · exact h
  · exact h

/-- Settles O48: each free cell keeps the byte `mem_placements` gives it, and an unwritten codeword faults even where
the symbol could not take its bits. -/
theorem placeDataResult : Obligations.PlaceDataResult := by
  unfold Obligations.PlaceDataResult
  refine fun s hm => ⟨fun W h1 h10 hw hlen hold => ?_, fun h1 h10 hicw => ?_, fun hver => ?_⟩
  · have hv := (validVersion_iff s.ver).2 ⟨h1, h10⟩
    obtain ⟨-, -, -, -, hside, -⟩ := profile_bounds hv
    refine ⟨_, exec_of_ok .placeData (placeDataBody_of_written hm hv hw hlen hold), rfl, fun i hi => ?_, fun a ha => ?_⟩
    · have hnodup := (map_fst_placements _ (streamBits W)).symm ▸ nodup_zigzag_addrs hv s.cellAt
      refine (memRead_memWriteAll_of_mem (wf_rising hm) hnodup (mem_placements hi _)).trans ?_
      rw [getElem?_streamBits, hlen, toByte_free]
      by_cases hbits : i < 8 * ntotal s.ver
      · rw [if_pos hbits, Option.getD_some]
        simp only [hbits, true_and]
      · rw [if_neg hbits, Option.getD_none]
        simp only [hbits, false_and, Bool.false_eq_true]
    · have hcells := matrixCells_placements (n := side s.ver) (by omega) s.cellAt (streamBits W)
      refine (overwrites_memWriteAll (fun e he => (hcells e he).1.isRam) hm).same fun e he hea => ha ?_
      have hkey : e.1 ∈ (placements (zigzag (side s.ver) s.cellAt) (streamBits W)).map Prod.fst := List.mem_map_of_mem he
      rw [map_fst_placements, hea] at hkey
      obtain ⟨p, hp, haddr⟩ := List.mem_map.1 hkey
      exact ⟨p, hp, haddr.symm⟩
  · obtain ⟨a, ha, hbody⟩ := placeDataBody_of_unwritten hm ((validVersion_iff s.ver).2 ⟨h1, h10⟩) hicw
    refine ⟨a, ?_, ha⟩
    rw [exec_eq_finish, finish_fault_iff]
    exact hbody
  · have hbody : placeDataBody s = raise .badVersion s := withVersion_invalid (validVersion_eq_false hver) _
    exact exec_of_raise .placeData hbody

end Sys2Proof.Proofs
end

section
/-! PROOF. APPLY_MASK (O49): its one store is of the free cells the mask function selects. -/

namespace Sys2Proof.Proofs

open Sys2Proof.Machine Sys2Proof.Laws

/-! ### The flipped cells (R270, R271) -/

/-- What APPLY_MASK needs to complete from `s`: a legal VERSION and the symbol written. -/
structure Maskable (s : State) : Prop where
  memWf : s.mem.wf = true
  legal : validVersion s.ver = true
  written : s.SymbolWritten (side s.ver)

/-- The writes of APPLY_MASK from `s`. -/
def maskWrites (s : State) : Memory := maskedCells (side s.ver) (cellsIn s (side s.ver))

/-- The state a command leaves that makes memory `m` and completes (R310). -/
def completedWith (s : State) (m : Memory) : State := State.completeDone { s with mem := m }

theorem completedWith_mem (s : State) (m : Memory) : (completedWith s m).mem = m := rfl

theorem completedWith_completedWith (s : State) (m m' : Memory) :
    completedWith (completedWith s m) m' = completedWith s m' := rfl

/-- The state APPLY_MASK leaves of `s`. -/
def masked (s : State) : State := completedWith s (memOverlay (maskWrites s) s.mem)

theorem masked_ver (s : State) : (masked s).ver = s.ver := rfl

theorem exec_applyMask {s : State} (h : Maskable s) : exec .applyMask s = .next (masked s) := by
  obtain ⟨-, -, -, -, hside, -⟩ := profile_bounds h.legal
  have hbody : applyMaskBody s = .ok (s.store (maskWrites s)) := by
    rw [applyMaskBody, withVersion_valid h.legal, loadSymbol_of_written h.memWf (by omega) h.written]
    rfl
  exact exec_of_ok .applyMask hbody

theorem wf_maskWrites {s : State} (h : Maskable s) : (maskWrites s).wf = true := by
  obtain ⟨-, -, -, -, hside, -⟩ := profile_bounds h.legal
  exact wf_maskedCells (by omega) _

/-- The free cells the mask selects are written, each with DARK flipped. -/
theorem mem_maskWrites {s : State} {a : Nat} {b : Byte} :
    (a, b) ∈ maskWrites s ↔ ∃ r < side s.ver, ∃ c < side s.ver, (s.cellAt r c).rsv = false ∧ (r + c) % 2 = 0 ∧
      a = cellAddr r c ∧ b = (ModuleCell.mk (!(s.cellAt r c).dark) false).toByte := by
  have hzip : (symbolCells (side s.ver)).zip (cellsIn s (side s.ver)) =
      (symbolCells (side s.ver)).map fun p => (p, s.cellAt p.1 p.2) := by
    have h := List.zip_map' (f := id) (g := fun p : Nat × Nat => s.cellAt p.1 p.2) (l := symbolCells (side s.ver))
    rwa [List.map_id] at h
  rw [maskWrites, maskedCells, hzip, List.filterMap_map, List.mem_filterMap]
  simp only [Function.comp_apply, mask0, Bool.and_eq_true, Bool.not_eq_true', beq_iff_eq, Option.ite_none_right_eq_some,
    Option.some.injEq, Prod.mk.injEq, mem_symbolCells, Prod.exists]
  constructor
  · rintro ⟨r, c, ⟨hr, hc⟩, ⟨hfree, heven⟩, rfl, rfl⟩
    exact ⟨r, hr, c, hc, hfree, heven, rfl, rfl⟩
  · rintro ⟨r, hr, c, hc, hfree, heven, rfl, rfl⟩
    exact ⟨r, c, ⟨hr, hc⟩, ⟨hfree, heven⟩, rfl, rfl⟩

theorem byteAt_masked_of_mem {s : State} (h : Maskable s) {a : Nat} {b : Byte} (hmem : (a, b) ∈ maskWrites s) :
    (masked s).byteAt a = some b := by
  have hrise := wf_rising (wf_maskWrites h)
  rw [State.byteAt, masked, completedWith_mem, memRead_memOverlay hrise (wf_rising h.memWf), memRead_of_mem hrise hmem,
    Option.some_or]

theorem byteAt_masked_of_not_mem {s : State} (h : Maskable s) {a : Nat} (hmem : ∀ b, (a, b) ∉ maskWrites s) :
    (masked s).byteAt a = s.byteAt a :=
  (overwrites_memOverlay (wf_maskWrites h) h.memWf).same fun e he hea => hmem e.2 (hea ▸ he)

theorem toByte_flipped (b : Bool) : (ModuleCell.mk (!b) false).toByte = if b then 0x00 else 0x01 := by cases b <;> rfl

/-- Settles O49: the body's one store is of `maskWrites`. -/
theorem applyMaskResult : Obligations.ApplyMaskResult := by
  unfold Obligations.ApplyMaskResult
  refine fun s hm => ⟨fun h1 h10 hw => ?_, fun hver => ?_⟩
  · have h : Maskable s := ⟨hm, (validVersion_iff s.ver).2 ⟨h1, h10⟩, hw⟩
    refine ⟨_, exec_applyMask h, completeDone_store .., fun r hr c hc hfree heven => ?_, fun a ha => ?_⟩
    · rw [← toByte_flipped]
      exact byteAt_masked_of_mem h (mem_maskWrites.2 ⟨r, hr, c, hc, hfree, heven, rfl, rfl⟩)
    · refine byteAt_masked_of_not_mem h fun b hb => ha ?_
      obtain ⟨r, hr, c, hc, hfree, heven, haddr, -⟩ := mem_maskWrites.1 hb
      exact ⟨r, hr, c, hc, hfree, heven, haddr⟩
  · have hbody : applyMaskBody s = raise .badVersion s := withVersion_invalid (validVersion_eq_false hver) _
    exact exec_of_raise .applyMask hbody

end Sys2Proof.Proofs
end

section
/-! PROOF. The mask undone and WRITE_FORMAT (O50): what APPLY_MASK makes of memory is, at each address, a function of the byte
there, which is its own inverse and leaves reserved cells alone. -/

namespace Sys2Proof.Proofs

open Sys2Proof.Machine Sys2Proof.Laws

/-! ### APPLY_MASK as a function of each byte -/

/-- Address `a` is that of a symbol cell the mask function selects. -/
def maskSelects (n a : Nat) : Bool := (symbolCells n).any fun p => mask0 p.1 p.2 && a == cellAddr p.1 p.2

theorem maskSelects_iff {n a : Nat} : maskSelects n a = true ↔ ∃ r < n, ∃ c < n, (r + c) % 2 = 0 ∧ a = cellAddr r c := by
  simp only [maskSelects, List.any_eq_true, mem_symbolCells, mask0, Bool.and_eq_true, beq_iff_eq, Prod.exists]
  exact ⟨fun ⟨r, c, ⟨hr, hc⟩, h⟩ => ⟨r, hr, c, hc, h⟩, fun ⟨r, hr, c, hc, h⟩ => ⟨r, c, ⟨hr, hc⟩, h⟩⟩

/-- The byte of a cell with DARK flipped if the cell is free. -/
def flipFree (b : Byte) : Byte :=
  if (ModuleCell.ofByte b).rsv then b else (ModuleCell.mk (!(ModuleCell.ofByte b).dark) false).toByte

/-- What APPLY_MASK makes of byte `b` at address `a`. -/
def maskByte (n a : Nat) (b : Byte) : Byte := if maskSelects n a then flipFree b else b

theorem flipFree_reserved {b : Byte} (h : (ModuleCell.ofByte b).rsv = true) : flipFree b = b := if_pos h

theorem flipFree_free {b : Byte} (h : (ModuleCell.ofByte b).rsv = false) :
    flipFree b = (ModuleCell.mk (!(ModuleCell.ofByte b).dark) false).toByte := by
  rw [flipFree, h]
  rfl

theorem flipFree_flipFree {b : Byte} (hb : b.toNat < 4) : flipFree (flipFree b) = b := by
  cases h : (ModuleCell.ofByte b).rsv
  · rw [flipFree_free h, flipFree_free (by rw [ofByte_toByte]), ofByte_toByte, Bool.not_not, ← h]
    exact toByte_ofByte hb
  · rw [flipFree_reserved h, flipFree_reserved h]

theorem maskByte_reserved {b : Byte} (h : (ModuleCell.ofByte b).rsv = true) (n a : Nat) : maskByte n a b = b := by
  rw [maskByte, flipFree_reserved h, ite_self]

theorem maskByte_maskByte {n a : Nat} {b : Byte} (hb : matrixBase ≤ a → b.toNat < 4) : maskByte n a (maskByte n a b) = b := by
  unfold maskByte
  split
  · next h =>
    obtain ⟨r, -, c, -, -, rfl⟩ := maskSelects_iff.1 h
    exact flipFree_flipFree (hb (by rw [cellAddr]; omega))
  · rfl

/-- What every RAM address reads as after APPLY_MASK. -/
theorem byteAt_masked {s : State} (h : Maskable s) (a : Nat) :
    (masked s).byteAt a = (s.byteAt a).map (maskByte (side s.ver) a) := by
  obtain ⟨-, -, -, -, hside, -⟩ := profile_bounds h.legal
  by_cases hsel : maskSelects (side s.ver) a = true
  · obtain ⟨r, hr, c, hc, heven, rfl⟩ := maskSelects_iff.1 hsel
    obtain ⟨b, hb⟩ := Option.isSome_iff_exists.1 (h.written r hr c hc)
    have hcell : s.cellAt r c = ModuleCell.ofByte b := by rw [State.cellAt, hb, Option.getD_some]
    rw [hb, Option.map_some, maskByte, if_pos hsel]
    cases hrsv : (ModuleCell.ofByte b).rsv
    · rw [flipFree_free hrsv, ← hcell]
      exact byteAt_masked_of_mem h (mem_maskWrites.2 ⟨r, hr, c, hc, hcell ▸ hrsv, heven, rfl, rfl⟩)
    · rw [flipFree_reserved hrsv, ← hb]
      refine byteAt_masked_of_not_mem h fun x hx => ?_
      obtain ⟨r', -, c', hc', hfree, -, haddr, -⟩ := mem_maskWrites.1 hx
      obtain ⟨rfl, rfl⟩ := cellAddr_inj (by omega) (by omega) haddr
      rw [hcell, hrsv] at hfree
      cases hfree
  · have hkeeps : maskByte (side s.ver) a = id := funext fun b => if_neg hsel
    rw [hkeeps, Option.map_id]
    refine byteAt_masked_of_not_mem h fun x hx => hsel ?_
    obtain ⟨r, hr, c, hc, -, heven, haddr, -⟩ := mem_maskWrites.1 hx
    exact maskSelects_iff.2 ⟨r, hr, c, hc, heven, haddr⟩

theorem maskable_masked {s : State} (h : Maskable s) : Maskable (masked s) where
  memWf := wf_store (wf_maskWrites h) h.memWf
  legal := h.legal
  written r hr c hc := by
    rw [byteAt_masked h, Option.isSome_map]
    exact h.written r hr c hc

theorem mem_masked_masked {s : State} (h : Maskable s) (hbits : ∀ a b, s.byteAt a = some b → matrixBase ≤ a → b.toNat < 4) :
    (masked (masked s)).mem = s.mem := by
  refine wf_ext (maskable_masked (maskable_masked h)).memWf h.memWf fun a => ?_
  change (masked (masked s)).byteAt a = s.byteAt a
  rw [byteAt_masked (maskable_masked h), byteAt_masked h]
  cases hb : s.byteAt a with
  | none => rfl
  | some b => exact congrArg some (maskByte_maskByte (hbits a b hb))

/-! ### WRITE_FORMAT (R292) -/

/-- The state WRITE_FORMAT leaves of `s`. -/
def formatted (s : State) : State := completedWith s (memWriteAll (formatWrites (side s.ver)) s.mem)

theorem formatted_ver (s : State) : (formatted s).ver = s.ver := rfl

theorem exec_writeFormat {s : State} (hv : validVersion s.ver = true) : exec .writeFormat s = .next (formatted s) := by
  have hbody : writeFormatBody s = .ok { s with mem := memWriteAll (formatWrites (side s.ver)) s.mem } :=
    withVersion_valid hv _
  exact exec_of_ok .writeFormat hbody

/-- What every RAM address reads as after WRITE_FORMAT. -/
theorem byteAt_formatted {s : State} (hm : s.mem.wf = true) (a : Nat) :
    (formatted s).byteAt a = (memRead (formatWrites (side s.ver)).reverse a).or (s.byteAt a) := by
  rw [State.byteAt, formatted, completedWith_mem, memRead_memWriteAll _ (wf_rising hm)]
  rfl

/-- Every cell WRITE_FORMAT writes it reserves. -/
theorem reserved_of_memRead_formatWrites {n a : Nat} {b : Byte} (h : memRead (formatWrites n).reverse a = some b) :
    (ModuleCell.ofByte b).rsv = true := by
  obtain ⟨e, -, he⟩ := List.mem_map.1 (List.mem_reverse.1 (memRead_some_mem h))
  obtain ⟨-, rfl⟩ := Prod.mk.inj he
  rw [ofByte_toByte]

theorem maskable_formatted {s : State} (h : Maskable s) : Maskable (formatted s) where
  memWf := by
    obtain ⟨-, -, -, -, hside, -⟩ := profile_bounds h.legal
    have hcells := matrixCells_formatWrites (n := side s.ver) (by unfold side; omega) (by omega)
    rw [formatted, completedWith_mem]
    exact wf_memWriteAll (fun e he => (hcells e he).1.isRam) h.memWf
  legal := h.legal
  written r hr c hc := by
    rw [byteAt_formatted h.memWf, Option.isSome_or, Bool.or_eq_true]
    exact .inr (h.written r hr c hc)

/-- The two commands commute: a cell WRITE_FORMAT writes is reserved from then on, and of any other it changes nothing. -/
theorem masked_formatted {s : State} (h : Maskable s) : masked (formatted s) = formatted (masked s) := by
  have hmem : (masked (formatted s)).mem = (formatted (masked s)).mem := by
    refine wf_ext (maskable_masked (maskable_formatted h)).memWf (maskable_formatted (maskable_masked h)).memWf fun a => ?_
    change (masked (formatted s)).byteAt a = (formatted (masked s)).byteAt a
    rw [byteAt_masked (maskable_formatted h), byteAt_formatted h.memWf, byteAt_formatted (maskable_masked h).memWf,
      byteAt_masked h, formatted_ver, masked_ver]
    cases hb : memRead (formatWrites (side s.ver)).reverse a with
    | none => rfl
    | some b => exact congrArg some (maskByte_reserved (reserved_of_memRead_formatWrites hb) ..)
  have hleft : masked (formatted s) = completedWith s (masked (formatted s)).mem := by
    rw [masked, completedWith_mem, formatted, completedWith_completedWith]
  have hright : formatted (masked s) = completedWith s (formatted (masked s)).mem := by
    rw [formatted, completedWith_mem, masked, completedWith_completedWith]
  rw [hleft, hmem, ← hright]

/-- Settles O50. The two commands commute even where the format cells were not reserved before, as WRITE_FORMAT reserves
them itself. -/
theorem maskIsAnInvolution : Obligations.MaskIsAnInvolution := by
  unfold Obligations.MaskIsAnInvolution
  intro s hinv h1 h10 hw
  have h : Maskable s := ⟨hinv.memWf, (validVersion_iff s.ver).2 ⟨h1, h10⟩, hw⟩
  refine ⟨⟨_, _, exec_applyMask h, exec_applyMask (maskable_masked h), mem_masked_masked h hinv.cellBits⟩, fun _ => ?_⟩
  refine ⟨_, _, _, _, exec_applyMask h, exec_writeFormat (maskable_masked h).legal, exec_writeFormat h.legal,
    exec_applyMask (maskable_formatted h), ?_⟩
  exact (masked_formatted h).symm

end Sys2Proof.Proofs
end

section
/-! PROOF. The format cells (O52, O51): the table of R291 lists the strips of R229, each cell once, so each of the 30 writes of
WRITE_FORMAT stands. -/

namespace Sys2Proof.Proofs

open Sys2Proof.Machine Sys2Proof.Laws

/-! ### The table of R291 and the strips of R229 -/

theorem mem_formatCells {n i : Nat} {p : Nat × Nat} :
    (i, p) ∈ formatCells n ↔ i < 15 ∧ (p = formatCell1 i ∨ p = formatCell2 n i) := by
  simp only [formatCells, List.mem_append, List.mem_map, List.mem_range, Prod.mk.injEq]
  constructor
  · rintro (⟨j, hj, rfl, rfl⟩ | ⟨j, hj, rfl, rfl⟩)
    · exact ⟨hj, .inl rfl⟩
    · exact ⟨hj, .inr rfl⟩
  · rintro ⟨hi, rfl | rfl⟩
    · exact .inl ⟨i, hi, rfl, rfl⟩
    · exact .inr ⟨i, hi, rfl, rfl⟩

/-- Copy 1 runs along the two strips beside the top left finder (R291). -/
theorem exists_formatCell1_iff {r c : Nat} :
    (∃ i < 15, formatCell1 i = (r, c)) ↔ (r = 8 ∧ c ≤ 8 ∧ c ≠ 6) ∨ (c = 8 ∧ r ≤ 8 ∧ r ≠ 6) := by
  constructor
  · rintro ⟨i, hi, h⟩
    unfold formatCell1 at h
    split_ifs at h <;> cases h <;> omega
  · have hrow : ∀ c ≤ 8, c ≠ 6 → ∃ i < 15, formatCell1 i = (8, c) := by decide
    have hcol : ∀ r ≤ 8, r ≠ 6 → ∃ i < 15, formatCell1 i = (r, 8) := by decide
    rintro (⟨rfl, hc, hne⟩ | ⟨rfl, hr, hne⟩)
    · exact hrow c hc hne
    · exact hcol r hr hne

/-- Copy 2 runs along the last eight cells of row 8 and the last seven of column 8 (R291). -/
theorem exists_formatCell2_iff {n r c : Nat} (hn : 21 ≤ n) :
    (∃ i < 15, formatCell2 n i = (r, c)) ↔ (r = 8 ∧ n - 8 ≤ c ∧ c < n) ∨ (c = 8 ∧ n - 7 ≤ r ∧ r < n) := by
  constructor
  · rintro ⟨i, hi, h⟩
    unfold formatCell2 at h
    split_ifs at h <;> cases h <;> omega
  · rintro (⟨rfl, hlo, hhi⟩ | ⟨rfl, hlo, hhi⟩)
    · refine ⟨n - 1 - c, by omega, ?_⟩
      rw [formatCell2, if_pos (by omega), show n - 1 - (n - 1 - c) = c by omega]
    · refine ⟨r + 15 - n, by omega, ?_⟩
      rw [formatCell2, if_neg (by omega), show n - 15 + (r + 15 - n) = r by omega]

theorem isFormatCell_iff_mem_formatCells {n : Nat} (hn : 21 ≤ n) (r c : Nat) :
    isFormatCell n r c = true ↔ ∃ i, (i, (r, c)) ∈ formatCells n := by
  have hcopies : (∃ i, (i, (r, c)) ∈ formatCells n) ↔
      (∃ i < 15, formatCell1 i = (r, c)) ∨ ∃ i < 15, formatCell2 n i = (r, c) := by
    simp only [mem_formatCells, and_or_left, exists_or, eq_comm]
  rw [hcopies, exists_formatCell1_iff, exists_formatCell2_iff hn, isFormatCell_iff hn]
  omega

/-- Copy 2 repeats none of its own cells. -/
theorem formatCell2_inj {n i j : Nat} (hn : 21 ≤ n) (hi : i < 15) (hj : j < 15) (h : formatCell2 n i = formatCell2 n j) :
    i = j := by
  unfold formatCell2 at h
  split_ifs at h <;> obtain ⟨hr, hc⟩ := Prod.mk.inj h <;> omega

/-- The copies share no cell: copy 1 lies within row 8 and column 8 of the corner, copy 2 beyond them. -/
theorem nodup_formatCells {n : Nat} (hn : 21 ≤ n) : ((formatCells n).map (·.2)).Nodup := by
  have hcopies : (formatCells n).map (·.2) = (List.range 15).map formatCell1 ++ (List.range 15).map (formatCell2 n) := by
    rw [formatCells, List.map_append, List.map_map, List.map_map]
    rfl
  have hcopy1 : ((List.range 15).map formatCell1).Nodup := by decide
  have hcopy2 : ((List.range 15).map (formatCell2 n)).Nodup :=
    List.nodup_range.map_on fun i hi j hj h => formatCell2_inj hn (List.mem_range.1 hi) (List.mem_range.1 hj) h
  rw [hcopies]
  refine hcopy1.append hcopy2 fun ⟨r, c⟩ h1 h2 => ?_
  simp only [List.mem_map, List.mem_range] at h1 h2
  have hnear := exists_formatCell1_iff.1 h1
  have hfar := (exists_formatCell2_iff hn).1 h2
  omega

/-- Settles O52: both lists come to the same two strips of row 8 and of column 8. -/
theorem formatCellsAreTheReservedOnes : Obligations.FormatCellsAreTheReservedOnes := by
  unfold Obligations.FormatCellsAreTheReservedOnes
  intro v h1 _
  exact ⟨isFormatCell_iff_mem_formatCells (le_side h1), nodup_formatCells (le_side h1), rfl⟩

/-! ### The bytes WRITE_FORMAT leaves (R292) -/

theorem mem_formatWrites {n a : Nat} {b : Byte} :
    (a, b) ∈ formatWrites n ↔ ∃ i p, (i, p) ∈ formatCells n ∧ a = cellAddr p.1 p.2 ∧
      b = (ModuleCell.mk (formatWord.getLsbD i) true).toByte := by
  simp only [formatWrites, List.mem_map, Prod.exists, Prod.mk.injEq, eq_comm]

theorem nodup_formatWrites {n : Nat} (hn : 21 ≤ n) (hn64 : n ≤ 64) : ((formatWrites n).map Prod.fst).Nodup := by
  have hkeys : (formatWrites n).map Prod.fst = ((formatCells n).map (·.2)).map fun p => cellAddr p.1 p.2 := by
    rw [formatWrites, List.map_map, List.map_map]
    rfl
  have hcol : ∀ p ∈ (formatCells n).map (·.2), p.2 < 64 := fun p hp => by
    obtain ⟨e, he, rfl⟩ := List.mem_map.1 hp
    exact (formatCells_lt (by omega) he).2.trans_le hn64
  rw [hkeys]
  refine (nodup_formatCells hn).map_on fun p hp q hq h => ?_
  obtain ⟨hr, hc⟩ := cellAddr_inj (hcol p hp) (hcol q hq) h
  exact Prod.ext hr hc

/-- New memory and completion change what completion writes, and no other field (R310). -/
theorem completedWith_eq (s : State) (m : Memory) :
    completedWith s m = { s with
      mem := (completedWith s m).mem, done := true, err := false, errcode := 0x00, pending := none } :=
  rfl

/-- A cell of the table holds its bit of the format word, reserved. -/
theorem byteAt_formatted_of_mem {s : State} (hm : s.mem.wf = true) (hv : validVersion s.ver = true) {i : Nat} {p : Nat × Nat}
    (h : (i, p) ∈ formatCells (side s.ver)) :
    (formatted s).byteAt (cellAddr p.1 p.2) = some (if formatWord.getLsbD i then 0x03 else 0x02) := by
  obtain ⟨-, -, -, -, hside, -⟩ := profile_bounds hv
  have hnodup := nodup_formatWrites (le_side ((validVersion_iff s.ver).1 hv).1) (by omega)
  rw [← toByte_reserved, State.byteAt, formatted, completedWith_mem]
  exact memRead_memWriteAll_of_mem (wf_rising hm) hnodup (mem_formatWrites.2 ⟨i, p, h, rfl, rfl⟩)

theorem byteAt_formatted_of_not_mem {s : State} (hm : s.mem.wf = true) {a : Nat}
    (h : ∀ e ∈ formatCells (side s.ver), a ≠ cellAddr e.2.1 e.2.2) : (formatted s).byteAt a = s.byteAt a := by
  rw [byteAt_formatted hm]
  cases hread : memRead (formatWrites (side s.ver)).reverse a with
  | none => rfl
  | some b =>
    obtain ⟨i, p, hp, haddr, -⟩ := mem_formatWrites.1 (List.mem_reverse.1 (memRead_some_mem hread))
    exact absurd haddr (h _ hp)

/-- Settles O51: the cells the statement writes out are `formatCell1` and `formatCell2`, and its word is `formatWord`. -/
theorem writeFormatResult : Obligations.WriteFormatResult := by
  unfold Obligations.WriteFormatResult
  refine fun s hm => ⟨fun h1 h10 => ?_, fun hver => ?_⟩
  · have hv := (validVersion_iff s.ver).2 ⟨h1, h10⟩
    refine ⟨_, exec_writeFormat hv, completedWith_eq .., fun i hi => ⟨?_, ?_⟩, fun a ha => ?_⟩
    · exact byteAt_formatted_of_mem hm hv (mem_formatCells.2 ⟨hi, .inl rfl⟩)
    · exact byteAt_formatted_of_mem hm hv (mem_formatCells.2 ⟨hi, .inr rfl⟩)
    · refine byteAt_formatted_of_not_mem hm fun ⟨i, p⟩ he haddr => ha ?_
      obtain ⟨hi, rfl | rfl⟩ := mem_formatCells.1 he
      · exact ⟨i, hi, .inl haddr⟩
      · exact ⟨i, hi, .inr haddr⟩
  · have hbody : writeFormatBody s = raise .badVersion s := withVersion_invalid (validVersion_eq_false hver) _
    exact exec_of_raise .writeFormat hbody

end Sys2Proof.Proofs
end

section
/-! SUPPORT. How a command's body ends, set beside its first failing check (R313): the checks stand before every write, so
one that fails leaves only `STAGE <- 0` of GENERATE, and once all have passed no line of the body raises (R311). -/

namespace Sys2Proof.Proofs

open Sys2Proof.Machine Sys2Proof.Laws

/-! ### A body and its checks -/

/-- LASTCMD and WIGN, which only the host's writes and the reset input change, are the same in `t` as in `s`. -/
def HostFieldsKept (s t : State) : Prop := t.lastCmd = s.lastCmd ∧ t.wign = s.wign

theorem HostFieldsKept.trans {s t u : State} (h1 : HostFieldsKept s t) (h2 : HostFieldsKept t u) : HostFieldsKept s u :=
  ⟨h2.1.trans h1.1, h2.2.trans h1.2⟩

theorem hostFieldsKept_of_onlyPut {s t : State} (h : OnlyPut s t) : HostFieldsKept s t := by
  rw [h]
  exact ⟨rfl, rfl⟩

/-- A body ends as its first failing check says: with the check's code raised in state `s`, or, when every check passes,
without raise (R311, R313). -/
def Reports (s : State) : Option Byte → Except Stop State → Prop
  | some c, r => ∃ e : ErrCode, e.code = c ∧ r = raise e s
  | none, .ok t => HostFieldsKept s t
  | none, .error (.fault _) => True
  | none, .error (.raised _ _) => False

theorem Reports.raised {s u : State} {check : Option Byte} {e : ErrCode} (h : Reports s check (raise e u)) :
    check = some e.code ∧ u = s := by
  cases check with
  | none => exact h.elim
  | some c => obtain ⟨e', rfl, hr⟩ := h; cases hr; exact ⟨rfl, rfl⟩

theorem Reports.completed {s t : State} {check : Option Byte} (h : Reports s check (.ok t)) :
    check = none ∧ HostFieldsKept s t := by
  cases check with
  | none => exact ⟨rfl, h⟩
  | some c => obtain ⟨e, -, hr⟩ := h; cases hr

theorem Reports.of_hostFieldsKept {s t : State} (h : HostFieldsKept s t) {r : Except Stop State}
    (hr : Reports t none r) : Reports s none r := by
  rcases r with (⟨e, u⟩ | f) | u
  · exact hr
  · trivial
  · exact h.trans hr

theorem reports_ok {s t : State} (h : HostFieldsKept s t) : Reports s none (.ok t) := h

/-! ### One rule per check -/

/-- A check that comes before the others is reported when it fails, and leaves the report to them when it passes. -/
theorem reports_ite {s : State} (e : ErrCode) {p : Prop} [Decidable p] {check : Option Byte} {r : Except Stop State}
    (h : ¬ p → Reports s check r) : Reports s (if p then some e.code else check) (if p then raise e s else r) := by
  by_cases hp : p
  · rw [if_pos hp, if_pos hp]
    exact ⟨e, rfl, rfl⟩
  · rw [if_neg hp, if_neg hp]
    exact h hp

theorem reports_withVersion {s : State} {check : Option Byte} {k : Nat → Except Stop State}
    (h : validVersion s.ver = true → Reports s check (k s.ver)) :
    Reports s (if s.ver = 0 ∨ 10 < s.ver then some 0x06#8 else check) (s.withVersion k) := by
  by_cases hv : s.ver = 0 ∨ 10 < s.ver
  · rw [if_pos hv, withVersion_invalid (validVersion_eq_false hv)]
    exact ⟨.badVersion, rfl, rfl⟩
  · have hvalid := (validVersion_iff s.ver).2 (by omega)
    rw [if_neg hv, withVersion_valid hvalid]
    exact h hvalid

/-- A load never raises. -/
theorem reports_load {s : State} {addrs : List Nat} {k : List Byte → Except Stop State}
    (h : ∀ bytes, Reports s none (k bytes)) : Reports s none (s.load addrs k) := by
  rcases load_cases s addrs k with ⟨bytes, -, hload⟩ | ⟨a, -, hload⟩ <;> rw [hload]
  · exact h bytes
  · trivial

/-! ### The commands -/

/-- The numbers of R122 are MAXLEN. -/
theorem maxLen_table {v : Nat} (hv : validVersion v = true) :
    maxLen v = [17, 32, 53, 78, 106, 134, 154, 192, 230, 271].getD (v - 1) 0 := by
  obtain ⟨h1, h10⟩ := (validVersion_iff v).1 hv
  interval_cases v <;> decide

theorem encodeStreamBody_reports (s : State) :
    Reports s (firstFailingCheck .encodeStream s) (encodeStreamBody s) := by
  refine reports_withVersion fun hv => ?_
  rw [← maxLen_table hv]
  by_cases hlen : maxLen s.ver < s.len
  · rw [if_pos hlen, if_neg (by rw [fits_iff_le_maxLen hv]; omega)]
    exact ⟨.capacity, rfl, rfl⟩
  · rw [if_neg hlen, if_pos ((fits_iff_le_maxLen hv _).2 (Nat.not_lt.1 hlen))]
    exact reports_load fun payload => hostFieldsKept_of_onlyPut (putStream_onlyPut s s.ver payload)

/-- The check of CAPACITY at any version, as the table of checks and as the version selector make it (R122, R123). -/
theorem reports_capacity {s t : State} {r : Except Stop State}
    (h : (selectVersion s.len = none ∧ r = raise .capacity t) ∨
      ∃ v, selectVersion s.len = some v ∧ Reports t none r) :
    Reports t (if 271 < s.len then some 0x05#8 else none) r := by
  obtain ⟨hsel, rfl⟩ | ⟨v, hsel, hr⟩ := h
  · rw [if_pos ((selectVersion_none_iff _).1 hsel)]
    exact ⟨.capacity, rfl, rfl⟩
  · rwa [if_neg fun hlen => Option.some_ne_none v (hsel.symm.trans ((selectVersion_none_iff _).2 hlen))]

/-- Every command but GENERATE ends as its first failing check says, with nothing written when one fails. -/
theorem commandBody_reports_of_ne_generate {i : Instr} (hi : i ≠ .generate) (s : State) :
    Reports s (firstFailingCheck i s) (commandBody i s) := by
  unfold commandBody
  cases i with
  | nop | gfAdd | gfMul | gfExp | bpClear => exact reports_ok ⟨rfl, rfl⟩
  | gfInv | gfLog => exact reports_ite .gfZero fun _ => reports_ok ⟨rfl, rfl⟩
  | polyEval => exact reports_ite .badLen fun _ => reports_load fun _ => reports_ok ⟨rfl, rfl⟩
  | rsGenpoly => exact reports_ite .badK fun _ => reports_ok ⟨rfl, rfl⟩
  | rsEncode | rsSyndrome =>
    exact reports_ite .badK fun _ => reports_ite .badLen fun _ => reports_load fun _ => reports_ok ⟨rfl, rfl⟩
  | bpPut =>
    exact reports_ite .badNbits fun _ => reports_ite .bpOverflow fun _ => hostFieldsKept_of_onlyPut (put_onlyPut ..)
  | selectVersion =>
    refine reports_capacity ((selectVersionBody_cases s).imp id fun ⟨v, hsel, hbody⟩ => ⟨v, hsel, ?_⟩)
    dsimp only
    rw [hbody]
    exact reports_ok ⟨rfl, rfl⟩
  | encodeStream => exact encodeStreamBody_reports s
  | rsBlocks | applyMask =>
    exact reports_withVersion fun _ => reports_load fun _ => reports_ok ⟨rfl, rfl⟩
  | interleave | placeData =>
    exact reports_withVersion fun _ => reports_load fun _ => reports_load fun _ => reports_ok ⟨rfl, rfl⟩
  | matrixInit => exact reports_withVersion fun _ => reports_ok ⟨store_lastCmd .., store_wign ..⟩
  | writeFormat => exact reports_withVersion fun _ => reports_ok ⟨rfl, rfl⟩
  | generate => exact absurd rfl hi

/-- From a legal version that holds the payload the later stages of GENERATE raise nothing (R111). -/
theorem stagesBody_reports (l : List (Instr × Byte)) (hl : ∀ e ∈ l, e.1 ∈ pipelineStages.tail) {s : State}
    (hs : Fitting s) : Reports s none (stagesBody l s) := by
  induction l generalizing s with
  | nil => exact ⟨rfl, rfl⟩
  | cons e l ih =>
    obtain ⟨i, n⟩ := e
    have hi := hl _ List.mem_cons_self
    have hne : i ≠ .generate := ne_of_mem_of_not_mem hi (by decide)
    rw [stagesBody]
    rcases stage_ignoresControl hi hs with ⟨t, ht, h⟩ | ⟨f, h⟩
    · have hown : commandBody i s = .ok (withControl t s) := h s
      have hreport := commandBody_reports_of_ne_generate hne s
      rw [hown] at hreport
      obtain ⟨-, hkept⟩ := hreport.completed
      simp only [Body.andThen, stageThen, hown]
      exact .of_hostFieldsKept (t := (withControl t s).setStage n) hkept
        (ih (fun e he => hl e (List.mem_cons_of_mem _ he)) ht)
    · have hown : commandBody i s = .error (.fault f) := h s
      simp only [Body.andThen, stageThen, hown]
      trivial

/-- Every command ends as its first failing check says: what a failing check leaves of `s` is `s`, with STAGE 0 for GENERATE
(R311, R313). -/
theorem commandBody_reports (i : Instr) (s : State) :
    Reports { s with stage := if i = .generate then 0x00 else s.stage } (firstFailingCheck i s) (commandBody i s) := by
  rcases eq_or_ne i .generate with rfl | hi
  · refine reports_capacity ((generateBody_cases s).imp id fun ⟨v, hsel, hbody⟩ => ⟨v, hsel, ?_⟩)
    obtain ⟨hvalid, hfits⟩ := selectVersion_some hsel
    have hfit : Fitting { s with stage := 1, version := BitVec.ofNat 8 v } := by
      simp only [Fitting, State.ver, ofNat_version_toNat hvalid]
      exact ⟨hvalid, hfits⟩
    rw [show commandBody .generate s = _ from hbody, laterStages_eq]
    refine .of_hostFieldsKept ?_ (stagesBody_reports numberedStages (by decide) hfit)
    exact ⟨rfl, rfl⟩
  · rw [if_neg hi]
    exact commandBody_reports_of_ne_generate hi s

end Sys2Proof.Proofs
end

section
/-! PROOF. Completion and error reports: O20, O21, O22, and the idle machine O6. -/

namespace Sys2Proof.Proofs

open Sys2Proof.Machine Sys2Proof.Laws

/-- The core step of a command ends in one of the two ways of R310, and ERR is set exactly when a check fails. -/
theorem exec_next_cases {i : Instr} {s t : State} (h : exec i s = .next t) :
    (firstFailingCheck i s = none ∧ ∃ u, HostFieldsKept s u ∧ t = u.completeDone) ∨
      ∃ e : ErrCode, firstFailingCheck i s = some e.code ∧
        t = ({ s with stage := if i = .generate then 0x00 else s.stage } : State).completeError e := by
  have hreport := commandBody_reports i s
  rw [exec_eq_finish, finish_next_iff] at h
  obtain ⟨u, hbody, rfl⟩ | ⟨e, u, hbody, rfl⟩ := h <;> rw [hbody] at hreport
  · obtain ⟨hcheck, hkept⟩ := hreport.completed
    exact .inl ⟨hcheck, u, hkept, rfl⟩
  · obtain ⟨hcheck, rfl⟩ := hreport.raised
    exact .inr ⟨e, hcheck, rfl⟩

/-- Settles O22: the table of checks says how each body ends (`commandBody_reports`). -/
theorem firstFailingCheckIsReported : Obligations.FirstFailingCheckIsReported := by
  unfold Obligations.FirstFailingCheckIsReported
  refine fun s i => ⟨fun c hno => runCommand_no_command hno s, fun c hcheck => ?_, fun hcheck t h => ?_⟩
  · have hreport := commandBody_reports i s
    rw [hcheck] at hreport
    obtain ⟨e, rfl, hbody⟩ := hreport
    exact exec_of_raise i hbody
  · obtain ⟨-, u, -, rfl⟩ | ⟨e, hsome, -⟩ := exec_next_cases h
    · exact ⟨rfl, rfl⟩
    · rw [hcheck] at hsome
      cases hsome

/-- Settles O21: ERR is set only where a check failed, and the checks stand before every write but `STAGE <- 0`. -/
theorem raiseLeavesStateAsItWas : Obligations.RaiseLeavesStateAsItWas := by
  unfold Obligations.RaiseLeavesStateAsItWas
  intro s t i h herr
  obtain ⟨-, u, -, rfl⟩ | ⟨e, -, rfl⟩ := exec_next_cases h
  · cases herr
  · rfl

/-- A command byte's core step completes a state that has kept LASTCMD and WIGN, in one of the two ways of R310. -/
theorem runCommand_next_cases {c : Byte} {s t : State} (h : runCommand c s = .next t) :
    ∃ u, HostFieldsKept s u ∧ (t = u.completeDone ∨ ∃ e, t = u.completeError e) := by
  unfold runCommand at h
  split at h
  · obtain ⟨-, u, hkept, ht⟩ | ⟨e, -, ht⟩ := exec_next_cases h
    · exact ⟨u, hkept, .inl ht⟩
    · refine ⟨_, ?_, .inr ⟨e, ht⟩⟩
      exact ⟨rfl, rfl⟩
  · cases h
    exact ⟨s, ⟨rfl, rfl⟩, .inr ⟨.illegalCmd, rfl⟩⟩

/-- Settles O20, from the two ways a core step ends and the range of the error codes (`code_range`). -/
theorem completionRule : Obligations.CompletionRule := by
  unfold Obligations.CompletionRule
  refine ⟨fun s t c h => ?_, fun s c hp => ?_⟩
  · obtain ⟨u, ⟨hcmd, hwign⟩, rfl | ⟨e, rfl⟩⟩ := runCommand_next_cases h
    · exact ⟨rfl, hwign, hcmd, .inl ⟨rfl, rfl, rfl⟩⟩
    · exact ⟨rfl, hwign, hcmd, .inr ⟨rfl, rfl, code_range e⟩⟩
  · rw [hostWrite_cmd_idle hp]
    exact ⟨rfl, rfl, rfl, rfl⟩

/-! ### The idle machine -/

theorem coreTurn_idle {s : State} (hp : s.pending = none) : coreTurn s = .next s := by
  rw [coreTurn, hp]

/-- Settles O6: either way the step is the core's turn, which finds nothing pending. -/
theorem idleMachineStandsStill : Obligations.IdleMachineStandsStill := by
  unfold Obligations.IdleMachineStandsStill
  refine fun s hp => ⟨fun he => ?_, fun rest he => ?_⟩
  · rw [step, nextStep, he]
    exact coreTurn_idle hp
  · rw [step, nextStep, he]
    exact coreTurn_idle (s := { s with events := rest }) hp

end Sys2Proof.Proofs
end

section
/-! PROOF. The unwritten-input hazard (O16, R355): a command whose reads run into a byte that holds no value faults there, at
whichever of its loads comes to one first. -/

namespace Sys2Proof.Proofs

open Sys2Proof.Machine Sys2Proof.Laws

/-! ### Loads that cannot go on -/

/-- A body ended `r` on a read of a byte that is unwritten in `s` (R60). -/
def FaultsUnwritten (s : State) (r : Except Stop State) : Prop :=
  ∃ a, s.byteAt a = none ∧ r = .error (.fault (.unwrittenRead a))

theorem exec_fault_of_faultsUnwritten (i : Instr) {s : State} (h : FaultsUnwritten s (commandBody i s)) :
    ∃ a, exec i s = .fault (.unwrittenRead a) ∧ s.byteAt a = none := by
  obtain ⟨a, ha, hbody⟩ := h
  exact ⟨a, by rw [exec_eq_finish, finish_fault_iff, hbody], ha⟩

theorem faultsUnwritten_andThen {first second : Body} {s u : State} (h : FaultsUnwritten s (first u)) :
    FaultsUnwritten s (first.andThen second u) := by
  obtain ⟨a, ha, hfirst⟩ := h
  exact ⟨a, ha, (andThen_error_iff ..).2 (.inl hfirst)⟩

section Loads

variable {s : State} (hm : s.mem.wf = true)
include hm

theorem faultsUnwritten_load {lo : Nat} {addrs : List Nat} (hrise : addrsRise lo addrs) {a : Nat} (hmem : a ∈ addrs)
    (ha : s.byteAt a = none) (k : List Byte → Except Stop State) : FaultsUnwritten s (s.load addrs k) := by
  obtain ⟨bytes, hread, -⟩ | h := load_written_or_faults hm hrise k
  · have hsome : s.byteAt a ∈ bytes.map some := hread ▸ List.mem_map_of_mem hmem
    obtain ⟨b, -, hb⟩ := List.mem_map.1 hsome
    rw [ha] at hb
    cases hb
  · exact h

/-- A load before one that faults goes on to it or faults itself. -/
theorem faultsUnwritten_load_of_rest {lo : Nat} {addrs : List Nat} (hrise : addrsRise lo addrs)
    {k : List Byte → Except Stop State} (hk : ∀ bytes, FaultsUnwritten s (k bytes)) : FaultsUnwritten s (s.load addrs k) := by
  obtain ⟨bytes, -, hload⟩ | h := load_written_or_faults hm hrise k
  · rw [hload]
    exact hk bytes
  · exact h

theorem faultsUnwritten_load_range {base n : Nat} (hw : ¬ s.Written base n) (k : List Byte → Except Stop State) :
    FaultsUnwritten s (s.load (addrRange base n) k) := by
  obtain ⟨bytes, hread, -⟩ | h := load_written_or_faults hm (addrsRise_addrRange base n) k
  · exact absurd (written_of_reads hread) hw
  · exact h

theorem faultsUnwritten_loadSymbol {n : Nat} (hn : n ≤ 64) (hw : ¬ s.SymbolWritten n)
    (k : List ModuleCell → Except Stop State) : FaultsUnwritten s (s.loadSymbol n k) := by
  simp only [State.SymbolWritten, not_forall, Option.not_isSome_iff_eq_none] at hw
  obtain ⟨r, hr, c, hc, ha⟩ := hw
  have hmem : cellAddr r c ∈ symbolAddrs n := List.mem_map.2 ⟨(r, c), mem_symbolCells.2 ⟨hr, hc⟩, rfl⟩
  exact faultsUnwritten_load hm (addrsRise_symbolAddrs hn) hmem ha _

/-! ### The commands that read VERSION -/

theorem placeData_applyMask_fault (hv : validVersion s.ver = true) (hw : ¬ s.SymbolWritten (side s.ver)) :
    FaultsUnwritten s (placeDataBody s) ∧ FaultsUnwritten s (applyMaskBody s) := by
  obtain ⟨-, -, -, -, hside, -⟩ := profile_bounds hv
  rw [placeDataBody, applyMaskBody, withVersion_valid hv, withVersion_valid hv]
  exact ⟨faultsUnwritten_loadSymbol hm (by omega) hw _, faultsUnwritten_loadSymbol hm (by omega) hw _⟩

/-- The EC codewords are read after the data codewords, which may hold the unwritten byte the fault names (R196). -/
theorem interleave_faults_of_ecw (hv : validVersion s.ver = true) {b j : Nat} (hb : b < nblk s.ver) (hj : j < ecpb s.ver)
    (ha : s.byteAt (ecwAddr b j) = none) : FaultsUnwritten s (interleaveBody s) := by
  obtain ⟨-, -, hec, -, -, -⟩ := profile_bounds hv
  rw [interleaveBody, withVersion_valid hv]
  exact faultsUnwritten_load_of_rest hm (addrsRise_addrRange ..) fun _ =>
    faultsUnwritten_load hm (addrsRise_ecwAddrs (by omega)) (mem_ecwAddrs.2 ⟨b, hb, j, hj, rfl⟩) ha _

theorem rsBlocks_interleave_fault (hv : validVersion s.ver = true) (hw : ¬ s.Written dcwBase (ndata s.ver)) :
    FaultsUnwritten s (rsBlocksBody s) ∧ FaultsUnwritten s (interleaveBody s) := by
  rw [rsBlocksBody, interleaveBody, withVersion_valid hv, withVersion_valid hv]
  exact ⟨faultsUnwritten_load_range hm hw _, faultsUnwritten_load_range hm hw _⟩

/-! ### The commands that read POLY -/

theorem faultsUnwritten_withPoly (hp : s.plen ≠ 0x00) (hw : ¬ s.Written polyBase s.plen.toNat)
    (k : List Byte → Except Stop State) : FaultsUnwritten s (s.withPoly k) := by
  have hne : s.plen.toNat ≠ 0 := fun h => hp (BitVec.eq_of_toNat_eq h)
  rw [withPoly_pos hne]
  exact faultsUnwritten_load_range hm hw k

theorem rsEncode_rsSyndrome_fault (hk : 1 ≤ s.k.toNat ∧ s.k.toNat ≤ 64) (hp : s.plen ≠ 0x00)
    (hw : ¬ s.Written polyBase s.plen.toNat) :
    FaultsUnwritten s (rsEncodeBody s) ∧ FaultsUnwritten s (rsSyndromeBody s) := by
  rw [rsEncodeBody, rsSyndromeBody, withK_valid hk, withK_valid hk]
  exact ⟨faultsUnwritten_withPoly hm hp hw _, faultsUnwritten_withPoly hm hp hw _⟩

/-! ### The commands that read PAYLOAD -/

theorem encodeStream_faults (hv : validVersion s.ver = true) (hf : fits s.ver s.len = true)
    (hw : ¬ s.Written payloadBase s.len) : FaultsUnwritten s (encodeStreamBody s) := by
  rw [encodeStreamBody, withVersion_valid hv, if_pos hf]
  exact faultsUnwritten_load_range hm hw _

/-- GENERATE selects a version that the payload fits, and its stage ENCODE_STREAM is the first to read (R111). -/
theorem generate_faults (hlen : s.len ≤ 271) (hw : ¬ s.Written payloadBase s.len) :
    FaultsUnwritten s (generateBody s) := by
  obtain ⟨v, hsel⟩ := exists_selectVersion hlen
  obtain ⟨hv, hf⟩ := selectVersion_some hsel
  have hver : ({ s with stage := 1, version := BitVec.ofNat 8 v } : State).ver = v := ofNat_version_toNat hv
  have hencode := encodeStream_faults (s := { s with stage := 1, version := BitVec.ofNat 8 v }) hm (by rwa [hver])
    (by rwa [hver]) hw
  rw [generateBody_eq_stagesBody hsel]
  exact faultsUnwritten_andThen (faultsUnwritten_andThen hencode)

end Loads

/-! ### WRITE_FORMAT -/

theorem exec_writeFormat_ne_fault (s : State) (f : Fault) : exec .writeFormat s ≠ .fault f := by
  rw [exec_eq_finish, Ne, finish_fault_iff, show commandBody .writeFormat s = writeFormatBody s from rfl]
  obtain ⟨-, hbody⟩ | ⟨-, hbody⟩ := writeFormatBody_cases s <;> rw [hbody] <;> rintro ⟨⟩

/-- Settles O16: each command's load of the range that has the unwritten byte faults, unless an earlier load of it does;
WRITE_FORMAT loads nothing. -/
theorem unwrittenInputsFault : Obligations.UnwrittenInputsFault := by
  unfold Obligations.UnwrittenInputsFault
  intro s hm faults
  have of_body : ∀ i, FaultsUnwritten s (commandBody i s) → faults i := fun i => exec_fault_of_faultsUnwritten i
  have legal : 1 ≤ s.ver → s.ver ≤ 10 → validVersion s.ver = true := fun h1 h10 => (validVersion_iff s.ver).2 ⟨h1, h10⟩
  refine ⟨fun h1 h10 hw => ?_, fun h1 h10 hw => ?_, fun h1 h10 ⟨b, hb, j, hj, ha⟩ => ?_, fun h1 h10 hw => ?_,
    fun hp hw => ⟨?_, fun hk1 hk64 => ?_⟩, fun hlen hw => ⟨?_, fun h1 h10 hmax => ?_⟩, exec_writeFormat_ne_fault s⟩
  · exact (placeData_applyMask_fault hm (legal h1 h10) hw).imp (of_body .placeData) (of_body .applyMask)
  · exact of_body .placeData (placeDataBody_of_unwritten hm (legal h1 h10) hw)
  · exact of_body .interleave (interleave_faults_of_ecw hm (legal h1 h10) hb hj ha)
  · exact (rsBlocks_interleave_fault hm (legal h1 h10) hw).imp (of_body .rsBlocks) (of_body .interleave)
  · exact of_body .polyEval (faultsUnwritten_withPoly hm hp hw _)
  · exact (rsEncode_rsSyndrome_fault hm ⟨hk1, hk64⟩ hp hw).imp (of_body .rsEncode) (of_body .rsSyndrome)
  · exact of_body .generate (generate_faults hm hlen hw)
  · have hv := legal h1 h10
    exact of_body .encodeStream (encodeStream_faults hm hv ((fits_iff_le_maxLen hv s.len).2 hmax) hw)

end Sys2Proof.Proofs
end

section
/-! PROOF. Progress (O58, R356) and the reset input (O8, R340). -/

namespace Sys2Proof.Proofs

open Sys2Proof.Machine Sys2Proof.Laws

/-! ### A host access while a command is pending -/

/-- The addresses R80 keeps true are registers, so their read always has a value. -/
theorem readIdle_ok_of_readsTrueWhilePending (s : State) {a : BusAddr} (h : readsTrueWhilePending (locate a) = true) :
    ∃ b, s.readIdle a = .ok b := by
  cases hl : locate a with
  | reg r =>
    obtain rfl := locate_reg hl
    exact ⟨_, readIdle_reg s r⟩
  | _ => rw [hl] at h; cases h

/-- A one-byte access that finds a command pending is taken, and leaves the machine as it was but for WIGN (R79, R80). -/
theorem step_host_pending {s : State} {x : Access} {rest : List Event} (hp : s.pending ≠ none) (hx : x.width = 1)
    (he : s.events = .host x :: rest) :
    ∃ t, step s = .next t ∧ t.events = rest ∧ SameMachine { s with wign := t.wign } t := by
  cases x with
  | read w a =>
    obtain rfl : w = 1 := hx
    cases htrue : readsTrueWhilePending (locate a)
    · exact ⟨_, step_read_free he hp htrue, rfl, rfl⟩
    · obtain ⟨b, hb⟩ := readIdle_ok_of_readsTrueWhilePending s htrue
      exact ⟨_, step_read_of_ok he (.inr htrue) hb, rfl, rfl⟩
  | write w a v =>
    obtain rfl : w = 1 := hx
    exact ⟨_, step_write_busy he hp, rfl, rfl⟩

theorem sameMachine_wign_trans {s t u : State} (h1 : SameMachine { s with wign := t.wign } t)
    (h2 : SameMachine { t with wign := u.wign } u) : SameMachine { s with wign := u.wign } u := by
  rw [SameMachine] at h1 h2
  rw [SameMachine, h2, h1]

theorem pending_of_sameMachine_wign {s t : State} (h : SameMachine { s with wign := t.wign } t) : t.pending = s.pending := by
  rw [h]

theorem run_succ_of_next {M : Host.Core} {s t : M.State} (h : M.step s = .next t) (n : Nat) :
    M.run (n + 1) s = M.run n t := by
  rw [Host.Core.run, h]

/-- One-byte accesses that find a command pending are all taken, a step each. -/
theorem run_host_pending (events : List Event) {s : State} (he : s.events = events) (hp : s.pending ≠ none)
    (hhost : ∀ e ∈ events, ∃ x : Access, x.width = 1 ∧ e = .host x) :
    ∃ u, Sys2Proof.core.run events.length s = .next u ∧ u.events = [] ∧ SameMachine { s with wign := u.wign } u := by
  induction events generalizing s with
  | nil => exact ⟨s, rfl, he, rfl⟩
  | cons e rest ih =>
    obtain ⟨x, hx, rfl⟩ := hhost e List.mem_cons_self
    obtain ⟨t, hstep, hrest, hst⟩ := step_host_pending hp hx he
    have hpt : t.pending ≠ none := by rwa [pending_of_sameMachine_wign hst]
    obtain ⟨u, hrun, hnone, htu⟩ := ih hrest hpt fun e' he' => hhost e' (List.mem_cons_of_mem _ he')
    exact ⟨u, (run_succ_of_next (M := Sys2Proof.core) hstep _).trans hrun, hnone, sameMachine_wign_trans hst htu⟩

theorem step_pending_of_no_events {s : State} {c : Byte} (he : s.events = []) (hp : s.pending = some c) :
    step s = runCommand c s := by
  rw [step, nextStep, he]
  dsimp only
  rw [coreTurn, hp]

/-- Settles O58, by induction on the waiting accesses (`run_host_pending`). -/
theorem pendingCommandIsTakenAfterHostAccesses : Obligations.PendingCommandIsTakenAfterHostAccesses := by
  unfold Obligations.PendingCommandIsTakenAfterHostAccesses
  intro s c hp hhost
  obtain ⟨u, hrun, hnone, hsame⟩ := run_host_pending s.events rfl (by simp [hp]) hhost
  exact ⟨u, hrun, hnone, hsame, step_pending_of_no_events hnone ((pending_of_sameMachine_wign hsame).trans hp)⟩

/-! ### Reset -/

/-- Settles O8: the step takes the reset event, which looks at nothing else of the state. -/
theorem resetInputResetsEverything : Obligations.ResetInputResetsEverything := by
  unfold Obligations.ResetInputResetsEverything
  intro s rest he
  rw [step, nextStep, he]
  rfl

end Sys2Proof.Proofs
end
